-- ==== Sys2Proof/Word.lean ====
section
/-! DEFINITION. The word types of the CCD (spec 00 R8, R11): every data, key, IV, command and register word is 32 bits
(W = 32), a host memory address is 32 bits (AW = 32), and host memory is byte-addressed (20 R60). All values are unsigned. -/

namespace Sys2Proof

/-- A 32-bit word: data, key, IV, command and operand words, registers, and byte addresses (00 R8, 92 D4, D9). -/
abbrev Word := BitVec 32

/-- One byte of host memory (20 R60). -/
abbrev Byte := BitVec 8

end Sys2Proof
end

