-- ==== Sys2Proof/Config.lean ====
section
/-! DEFINITION. What an implementation of the CCD fixes and the spec leaves OPEN (00 R8), the condition R9 on it, the
source's literals for AlgoA (10 R43), and the free values. `Config.params` and `Config.freeWord` are opaque: nothing in
Lean can evaluate either, so what is proved of them holds whatever they are. Log entries 1, 4, 9, 15, 20. -/

namespace Sys2Proof

/-- The four multi-bit fields of CR that a configuration command writes (10 R31). -/
inductive Field where
  | algo
  | mode
  | swap
  | order
  deriving DecidableEq, Repr

/-- Where a multi-bit field of CR lies: bits `shift + width - 1 .. shift` (00 R8, R9). -/
structure FieldPos where
  shift : Nat
  width : Nat
  deriving DecidableEq, Repr

/-- The bit numbers a field occupies (00 R9). -/
def FieldPos.bits (f : FieldPos) : List Nat := (List.range f.width).map (f.shift + ·)

/-- What a CR read returns at CNTRST after a write set it (00 R8, 92 D22). -/
inductive CntrstReadback where
  | selfClearing
  | sticky
  | unconstrained
  deriving DecidableEq, Repr

/-- The platform's byte order for host memory, which no rule of the CCD observes (20 R63; log 15). -/
inductive ByteOrder where
  | little
  | big
  deriving DecidableEq, Repr

/-- A range of host addresses the platform admits, and for which accesses (20 R67; log 9). -/
structure Region where
  base : Nat
  size : Nat
  readable : Bool
  writable : Bool
  deriving DecidableEq, Repr

/-- Every OPEN parameter of 00 R8, under the spec's names, and what 20 R63 and R67 leave to the platform. -/
structure Params where
  regBase : Word
  offCr : Word
  offKey : Word
  offIv : Word
  offData : Word
  busyBit : Nat
  decodeBit : Nat
  cntrstBit : Nat
  algo : FieldPos
  mode : FieldPos
  swap : FieldPos
  order : FieldPos
  codeAlgoA : Word
  codeAlgoB : Word
  codeAlgoC : Word
  codeEcb : Word
  codeCbc : Word
  codeCtr : Word
  swapLegal : List Word
  orderLegal : List Word
  blockWordsB : Word
  keyWordsB : Word
  blockWordsC : Word
  keyWordsC : Word
  crReset : Word
  cntrstReadback : CntrstReadback
  byteOrder : ByteOrder
  regions : List Region
  deriving DecidableEq, Repr

/-- The position of a field in CR. -/
def Params.field (p : Params) : Field → FieldPos
  | .algo => p.algo
  | .mode => p.mode
  | .swap => p.swap
  | .order => p.order

/-- The bit numbers of all seven named fields of CR, in one list (00 R9, R10). -/
def Params.namedBits (p : Params) : List Nat :=
  [p.busyBit, p.decodeBit, p.cntrstBit] ++ p.algo.bits ++ p.mode.bits ++ p.swap.bits ++ p.order.bits

/-- The four register offsets (00 R8). -/
def Params.offsets (p : Params) : List Word := [p.offCr, p.offKey, p.offIv, p.offData]

/-- The three algorithm codes (00 R8, 10 R44). -/
def Params.algoCodes (p : Params) : List Word := [p.codeAlgoA, p.codeAlgoB, p.codeAlgoC]

/-- The three cipher-mode codes (00 R8, 10 R44). -/
def Params.modeCodes (p : Params) : List Word := [p.codeEcb, p.codeCbc, p.codeCtr]

/-- 00 R9, clause by clause: bit positions in 0..31; field widths at least 1 and the field inside the word; the seven
fields pairwise disjoint; every code fits its field and the codes of one kind are distinct; the legal swap and order
values fit; the offsets are distinct multiples of 4 from a 4-aligned base (20 R64); sizes at least 1 (R8). -/
abbrev Params.WF (p : Params) : Prop :=
  (p.busyBit < 32 ∧ p.decodeBit < 32 ∧ p.cntrstBit < 32) ∧
  (∀ f ∈ [p.algo, p.mode, p.swap, p.order], 1 ≤ f.width ∧ f.shift + f.width ≤ 32) ∧
  p.namedBits.Nodup ∧
  ((∀ c ∈ p.algoCodes.map BitVec.toNat, c < 2 ^ p.algo.width) ∧ p.algoCodes.Nodup) ∧
  ((∀ c ∈ p.modeCodes.map BitVec.toNat, c < 2 ^ p.mode.width) ∧ p.modeCodes.Nodup) ∧
  (∀ c ∈ p.swapLegal.map BitVec.toNat, c < 2 ^ p.swap.width) ∧
  (∀ c ∈ p.orderLegal.map BitVec.toNat, c < 2 ^ p.order.width) ∧
  ((∀ o ∈ p.offsets.map BitVec.toNat, o % 4 = 0) ∧ p.offsets.Nodup ∧ p.regBase.toNat % 4 = 0) ∧
  (∀ n ∈ [p.blockWordsB, p.keyWordsB, p.blockWordsC, p.keyWordsC].map BitVec.toNat, 1 ≤ n)

/-- The illustrative instance `P_EX` of 95 section 1.1, which is NOT the hardware's: for tests and witnesses. The register
addresses (not needed there) and the platform's regions (all of memory) are this file's illustration. -/
def Params.pEx : Params where
  regBase := 0x40000000#32
  offCr := 0#32
  offKey := 4#32
  offIv := 8#32
  offData := 12#32
  busyBit := 0
  decodeBit := 1
  cntrstBit := 10
  algo := ⟨2, 2⟩
  mode := ⟨4, 2⟩
  swap := ⟨6, 2⟩
  order := ⟨8, 2⟩
  codeAlgoA := 0#32
  codeAlgoB := 1#32
  codeAlgoC := 2#32
  codeEcb := 0#32
  codeCbc := 1#32
  codeCtr := 2#32
  swapLegal := [0#32, 1#32, 2#32, 3#32]
  orderLegal := [0#32, 1#32, 2#32, 3#32]
  blockWordsB := 4#32
  keyWordsB := 4#32
  blockWordsC := 2#32
  keyWordsC := 4#32
  crReset := 0#32
  cntrstReadback := .selfClearing
  byteOrder := .little
  regions := [⟨0, 4294967296, true, true⟩]

/-- `P_EX` meets 00 R9, as 95 section 1.1 says. -/
theorem Params.pEx_wf : Params.pEx.WF := by decide

/-- A parameter set together with the proof of 00 R9. -/
structure SoundParams where
  val : Params
  sound : val.WF

/-- The machine's own parameter set: SOME set that meets 00 R9. It has no body. The `Inhabited` argument only tells Lean
that such a set exists; the constant is opaque, so its value is not that set and nothing can be proved of it but R9. -/
opaque Config.chosen [Inhabited SoundParams] : SoundParams

/-- The parameters of the machine that `State.reset` describes (00 R8; log 1). -/
def Config.params : Params := (@Config.chosen ⟨⟨Params.pEx, Params.pEx_wf⟩⟩).val

/-- The machine's parameters meet 00 R9. -/
theorem Config.params_wf : Config.params.WF := SoundParams.sound _

/-- FREE VALUE: the `k`-th draw of the coprocessor where the State's `answers` list has ended (40 R107, R108; log 4). -/
opaque Config.freeWord : Nat → Word

/-- The block size of AlgoA in words: the source's (unaudited) literal (10 R43; log 20). -/
def Config.blockWordsA : Word := 4#32

/-- The key length of AlgoA in words: the source's (unaudited) literal (10 R43; log 20). -/
def Config.keyWordsA : Word := 8#32

end Sys2Proof
end

