-- ==== Sys2Proof/Machine/State.lean ====
section
/-! DEFINITION. The state of the CCD as plain data: its registers (10 R20 to R30), what it can tell of the coprocessor's
register block (10 R31, 40 R107), host memory (20 R60), the outside world's inputs, and the trace (40 R104); then the
reasons a step can stop, and the state after reset (70 R230). -/

namespace Sys2Proof.Machine

/-- The kinds of fault a command can raise (60 R205). -/
inductive FaultKind where
  /-- A command other than INIT started while CLKEN = 0 (60 R206). -/
  | notInitialised
  /-- A buffer the command will access is not 4-byte aligned (60 R207). -/
  | misaligned
  /-- A buffer the command will access runs past the top of the address space (60 R207). -/
  | addressWrap
  deriving DecidableEq, Repr

/-- The result codes (60 R201). -/
inductive Result where
  | ok
  | align
  | unsupportedAlgo
  | illegal
  deriving DecidableEq, Repr

/-- The coprocessor's four registers (10 R31, R38, R39, R40). -/
inductive Reg where
  | cr
  | key
  | iv
  | data
  deriving DecidableEq, Repr

/-- A position in a command's pseudocode, named for what comes next: a label between two events (10 R27, 40 R103). -/
inductive Pos where
  /-- Just accepted: the dispatch of 40 R102 comes next. -/
  | start
  /-- INIT, after the hook: CLKEN is set with the next event, the read of CR for ALGO (42 R130). -/
  | clockOn
  /-- INIT, before the CR read of a later field (42 R130). -/
  | fieldRead (f : Field)
  /-- SetField, between its CR read and its CR write (42 R133). -/
  | fieldWrite (f : Field)
  /-- RmwCR of SetDirection or RSTCNT, between its two events (40 R111, R112; 42 R140). -/
  | rmwWrite
  /-- After SetDirection's CR write (43 R150, 44 R170). -/
  | directionSet
  /-- After a CR read of the readiness gate: its until test comes next (41 R120). -/
  | gate
  /-- SETKEY, between a MemRead and its KEY write (43 R150). -/
  | keyWrite
  /-- SETKEY, after a KEY write (43 R150). -/
  | keyWritten
  /-- SETIV, between a MemRead and its IV write (43 R155). -/
  | ivWrite
  /-- SETIV, after an IV write of the IV's own words (43 R155). -/
  | ivWritten
  /-- SETIV, after an IV write of the zero fill (43 R155). -/
  | zeroWritten
  /-- WriteChunk, between a MemRead and its DATA write (44 R170). -/
  | chunkWrite
  /-- WriteChunk, after a DATA write (44 R170). -/
  | chunkWritten
  /-- ReadChunk, between a DATA read and its MemWrite (44 R170). -/
  | chunkStore
  /-- ReadChunk, after a MemWrite (44 R170). -/
  | chunkStored
  /-- Before the complete(OK) that ends a configuration command (42 R130, R135 to R138, R140). -/
  | finish
  deriving DecidableEq, Repr

/-- PHASE (10 R27). -/
inductive Phase where
  | idle
  | active (p : Pos)
  | faulted
  deriving DecidableEq, Repr

/-- The events of a trace (40 R104). -/
inductive Event where
  | accept (words : List Word)
  | busRd (r : Reg) (v : Word)
  | busWr (r : Reg) (v : Word)
  | memRd (addr v : Word)
  | memWr (addr v : Word)
  | hook
  | done (r : Result)
  | reset
  deriving DecidableEq, Repr

/-- A coming move of the host (the model's own; log 6). -/
inductive HostMove where
  /-- Present words at the command port: one command, or several in a row (40 R100, R101). -/
  | command (words : List Word)
  /-- Write one byte of its own memory while no command is active (20 R62, R72). -/
  | store (addr : Word) (b : Byte)
  deriving DecidableEq, Repr

/-- The state. Plain data; every field of the spec's is named in INVENTORY.md with its rule. -/
structure State where
  /-- ALGO_M (10 R21). -/
  algoM : Word
  /-- MODE_M (10 R22). -/
  modeM : Word
  /-- SWAP_M (10 R23). -/
  swapM : Word
  /-- ORDER_M (10 R23). -/
  orderM : Word
  /-- CLKEN (10 R25). -/
  clken : Bool
  /-- RES (10 R26). -/
  res : Word
  /-- PHASE (10 R27). -/
  phase : Phase
  /-- The latch's OPC (10 R28). -/
  opc : BitVec 8
  /-- The accepted command word's bits 31..8, which the dispatch reads (40 R102; log 10). -/
  rsv : BitVec 24
  /-- OP[0] (10 R28). -/
  op0 : Word
  /-- OP[1] (10 R28). -/
  op1 : Word
  /-- OP[2] (10 R28). -/
  op2 : Word
  /-- OP[3] (10 R28). -/
  op3 : Word
  /-- SZ, the resolved block size or key length in words (10 R29). -/
  sz : Word
  /-- OFF, the chunk offset in words (10 R29). -/
  off : Word
  /-- J, the word index (10 R29). -/
  j : Word
  /-- END, the end of a chunk (10 R29). -/
  endJ : Word
  /-- N, a word count (10 R29). -/
  n : Word
  /-- TMP, the last CR value read (10 R29). -/
  tmp : Word
  /-- V, the last data word moved (10 R29). -/
  v : Word
  /-- FAULT (10 R30). -/
  fault : Option FaultKind
  /-- CR as last written since the last Reset, else CR_RESET (10 R31, 40 R107). -/
  crLast : Word
  /-- Host memory: (address, byte) pairs in the canonical form `Memory.wf` (20 R60, R62; log 3). -/
  mem : List Host.Cell
  /-- The OPEN parameters, an argument of the model that no step changes (00 R8; log 1). -/
  cfg : Params
  /-- The host's coming moves (log 6). -/
  host : List HostMove
  /-- The device reset input: for each coming Reset, how many steps come before it (70 R230; log 7). -/
  resets : List Nat
  /-- The coming clock-hook calls, one entry each: true where the platform never returns from that call; a call past the end
  returns (42 R131; log 8). -/
  hookHolds : List Bool
  /-- The coprocessor's coming draws, one for each BusRead (40 R107, R108; log 4). -/
  answers : List Word
  /-- How many draws have been taken: what the free value is applied to once `answers` has ended (log 4). -/
  draws : Nat
  /-- The events so far, newest first (40 R104; log 11). -/
  trace : List Event
  deriving DecidableEq, Repr

/-- READY is 1 exactly when PHASE = IDLE (10 R27). -/
def State.ready (s : State) : Bool := s.phase == .idle

/-- Why the machine stops: states in which the CCD has no step and no Reset is to come, and one state no run reaches. -/
inductive Fault where
  /-- Raised by the step of a FAULTED machine: a fault is permanent, only Reset leaves it (60 R205). Safe. -/
  | halted
  /-- Raised by a MemRead or MemWrite the platform does not admit: stuck (20 R67, 60 R208). Safe. -/
  | notAdmitted
  /-- Raised by INIT's hook call when the platform does not return from that call: stuck (42 R131, 60 R208). Safe. -/
  | hookHeld
  /-- Raised by any command whose phase holds a position that is none of its own; no run reaches one (log 13). Safe. -/
  | foreignPosition
  deriving DecidableEq, Repr

/-- Why the model has no meaning for an instruction. -/
inductive Refusal where
  /-- Raised by an arm of exec for an instruction not modelled yet; every instruction is modelled, so none is. Safe. -/
  | notModelled (mnemonic : String)
  deriving DecidableEq, Repr

/-- What a step answers. -/
abbrev Out := Host.Outcome State Fault Refusal

/-- The machine right after reset (70 R230, R232): idle, CLKEN 0, RES 0, no fault, CR at CR_RESET. The registers the spec
leaves unwritten hold 0 (log 2); no input is to come (log 4, 6, 7, 8); memory has nothing listed (log 3). -/
def State.reset : State where
  algoM := 0#32
  modeM := 0#32
  swapM := 0#32
  orderM := 0#32
  clken := false
  res := 0#32
  phase := .idle
  opc := 0#8
  rsv := 0#24
  op0 := 0#32
  op1 := 0#32
  op2 := 0#32
  op3 := 0#32
  sz := 0#32
  off := 0#32
  j := 0#32
  endJ := 0#32
  n := 0#32
  tmp := 0#32
  v := 0#32
  fault := none
  crLast := Config.params.crReset
  mem := []
  cfg := Config.params
  host := []
  resets := []
  hookHolds := []
  answers := []
  draws := 0
  trace := []

end Sys2Proof.Machine
end

