-- ==== Sys2Proof/Machine/Flags.lean ====
section
/-! DEFINITION. The fields of CR: masks (00 R10), the value a field write puts in (42 R134), the read-modify-write value
(40 R111), the busy test (41 R120), what a CR read and a DATA read answer (40 R107, R108), and the result codes (60 R201). -/

namespace Sys2Proof

/-- A single-bit mask: `1 << bit` (00 R10). -/
def bitMask (bit : Nat) : Word := 1#32 <<< bit

/-- The mask of a multi-bit field: `((2^WIDTH) - 1) << SHIFT` (00 R10). -/
def FieldPos.mask (f : FieldPos) : Word := BitVec.ofNat 32 (2 ^ f.width - 1) <<< f.shift

/-- F_MASK (00 R10). -/
def Params.fieldMask (p : Params) (f : Field) : Word := (p.field f).mask

/-- BUSY_MASK (00 R10). -/
def Params.busyMask (p : Params) : Word := bitMask p.busyBit

/-- DECODE_MASK (00 R10). -/
def Params.decodeMask (p : Params) : Word := bitMask p.decodeBit

/-- CNTRST_MASK (00 R10). -/
def Params.cntrstMask (p : Params) : Word := bitMask p.cntrstBit

/-- The bits at which a CR read returns what was last written (40 R107, first clause). -/
def Params.storedMask (p : Params) : Word :=
  p.decodeMask ||| p.fieldMask .algo ||| p.fieldMask .mode ||| p.fieldMask .swap ||| p.fieldMask .order

/-- NAMED_MASK, the OR of all seven (00 R10). -/
def Params.namedMask (p : Params) : Word := p.storedMask ||| p.busyMask ||| p.cntrstMask

/-- The bits of a CR read that are a draw whatever the parameters: BUSY and the unnamed bits (40 R107). -/
def Params.drawnMask (p : Params) : Word := p.busyMask ||| ~~~p.namedMask

/-- The value a field write puts into its field: the low bits of `v`, after the 32-bit shift, masked (42 R134, 90 C1). -/
def Params.fieldValue (p : Params) (f : Field) (v : Word) : Word := (v <<< (p.field f).shift) &&& p.fieldMask f

/-- The number a CR value holds in a field. -/
def Params.fieldOf (p : Params) (f : Field) (cr : Word) : Word := (cr &&& p.fieldMask f) >>> (p.field f).shift

/-- What RmwCR writes after reading `tmp`: `(TMP & ~clear) | set` (40 R111). -/
def rmwValue (tmp clear set : Word) : Word := (tmp &&& ~~~clear) ||| set

/-- The `set` of SetDirection: `d << DECODE_BIT` (40 R112). -/
def Params.directionValue (p : Params) (decrypt : Bool) : Word := if decrypt then p.decodeMask else 0#32

/-- BUSY of a CR value: `TMP[BUSY_BIT]` (41 R120). -/
def Params.busy (p : Params) (cr : Word) : Bool := cr.getLsbD p.busyBit

/-- CNTRST of a CR value. -/
def Params.cntrst (p : Params) (cr : Word) : Bool := cr.getLsbD p.cntrstBit

/-- DECODE of a CR value (10 R33). -/
def Params.direction (p : Params) (cr : Word) : Bool := cr.getLsbD p.decodeBit

/-- The CNTRST bit of a CR read, in place, from the last written value and the draw (40 R107, `CNTRST_READBACK`). -/
def Params.cntrstAnswer (p : Params) (last draw : Word) : Word :=
  match p.cntrstReadback with
  | .selfClearing => 0#32
  | .sticky => last &&& p.cntrstMask
  | .unconstrained => draw &&& p.cntrstMask

/-- What a CR read answers (40 R107): the last written bits in DECODE and the four fields, the draw at BUSY and the unnamed
bits, and CNTRST by `CNTRST_READBACK`. -/
def Params.crAnswer (p : Params) (last draw : Word) : Word :=
  (last &&& p.storedMask) ||| (draw &&& p.drawnMask) ||| p.cntrstAnswer last draw

/-- The bus address of a coprocessor register (00 R8, 20 R60). -/
def Params.regAddr (p : Params) : Machine.Reg → Word
  | .cr => p.regBase + p.offCr
  | .key => p.regBase + p.offKey
  | .iv => p.regBase + p.offIv
  | .data => p.regBase + p.offData

namespace Machine

/-- The number of a result code (60 R201). -/
def Result.code : Result → Word
  | .ok => 0#32
  | .align => 1#32
  | .unsupportedAlgo => 2#32
  | .illegal => 3#32

/-- The next draw of the coprocessor: the head of `answers`, or the FREE VALUE where the list has ended (log 4). -/
def State.nextDraw (s : State) : Word :=
  match s.answers with
  | w :: _ => w
  | [] => Config.freeWord s.draws

/-- What a BusRead(CR) answers now (40 R107). -/
def State.crAnswer (s : State) : Word := s.cfg.crAnswer s.crLast s.nextDraw

/-- What a BusRead(DATA) answers now: a draw (40 R108). -/
def State.dataAnswer (s : State) : Word := s.nextDraw

end Machine

end Sys2Proof
end

