-- ==== Sys2Proof/Machine/Operands.lean ====
section
/-! DEFINITION. The operand kinds (30 R83): the size table a value operand selects (10 R42), a buffer's check (40 R113), the
address of a buffer's word (20 R65), and the platform's admission of an access (20 R67). -/

namespace Sys2Proof

/-- BLOCK_WORDS: the block size in words, by equality of the whole mirror (10 R42, R43). -/
def Params.blockWords (p : Params) (a : Word) : Word :=
  if a = p.codeAlgoA then Config.blockWordsA
  else if a = p.codeAlgoB then p.blockWordsB
  else if a = p.codeAlgoC then p.blockWordsC
  else 0#32

/-- KEY_WORDS: the key length in words, by equality of the whole mirror (10 R42, R43). -/
def Params.keyWords (p : Params) (a : Word) : Word :=
  if a = p.codeAlgoA then Config.keyWordsA
  else if a = p.codeAlgoB then p.keyWordsB
  else if a = p.codeAlgoC then p.keyWordsC
  else 0#32

namespace Machine

/-- CheckBuffer (40 R113): nothing for a count of 0; else Misaligned before AddressWrap, the end computed without wrap. -/
def checkBuffer (addr n : Word) : Option FaultKind :=
  if n = 0#32 then none
  else if addr.toNat % 4 ≠ 0 then some .misaligned
  else if addr.toNat + 4 * n.toNat > 2 ^ 32 then some .addressWrap
  else none

/-- The address of word `i` of a buffer: `addr + 4*i` (20 R65; log 22). -/
def wordAddr (addr i : Word) : Word := addr + 4#32 * i

/-- How an access uses a region. -/
inductive Access where
  | load
  | store
  deriving DecidableEq, Repr

/-- The region allows the access. -/
def permits (r : Region) : Access → Bool
  | .load => r.readable
  | .store => r.writable

end Machine

/-- A 4-byte access at `addr` lies in an admitted region that allows it (20 R67; log 9). -/
def Params.inRegion (p : Params) (k : Machine.Access) (addr : Word) : Bool :=
  p.regions.any fun r => decide (r.base ≤ addr.toNat) && decide (addr.toNat + 4 ≤ r.base + r.size) && Machine.permits r k

/-- A buffer of `n` words at `buf` overlaps one of the four registers (20 R67; log 9). -/
def Params.overlapsRegisters (p : Params) (buf n : Word) : Bool :=
  [p.regAddr .cr, p.regAddr .key, p.regAddr .iv, p.regAddr .data].any fun r =>
    decide (r.toNat < buf.toNat + 4 * n.toNat) && decide (buf.toNat < r.toNat + 4)

/-- The platform admits the access to word `i` of the buffer of `n` words at `buf` (20 R67; log 9). -/
def Params.admits (p : Params) (k : Machine.Access) (buf n i : Word) : Bool :=
  p.inRegion k (Machine.wordAddr buf i) && !p.overlapsRegisters buf n

end Sys2Proof
end

