-- ==== Sys2Proof/Machine/Ops.lean ====
section
/-! DEFINITION. The named operations: host memory in canonical form; one state update for each event primitive of 00 R13,
which records the event and moves PHASE to the position after it (40 R103); complete (40 R105); raising a fault, the one
shared operation (60 R205); the mirror and field writes (42 R133); and the readiness gate (41 R120). -/

namespace Sys2Proof.Machine

/-! ### Host memory (20 R60, R62; log 3, log 15) -/

/-- One byte. An address that is not listed reads 0 (log 3). -/
def Memory.read (a : Nat) : List Host.Cell → Byte
  | [] => 0#8
  | (k, b) :: m => if a = k then b else Memory.read a m

/-- Write one byte, keeping the list sorted and free of zero bytes. -/
def Memory.write (a : Nat) (b : Byte) : List Host.Cell → List Host.Cell
  | [] => if b = 0#8 then [] else [(a, b)]
  | (k, c) :: m =>
    if a < k then (if b = 0#8 then (k, c) :: m else (a, b) :: (k, c) :: m)
    else if a = k then (if b = 0#8 then m else (a, b) :: m)
    else (k, c) :: Memory.write a b m

/-- The canonical form: addresses of the 32-bit space, strictly rising, each at least `lo`, no byte equal to 0. -/
def Memory.wfFrom (lo : Nat) : List Host.Cell → Bool
  | [] => true
  | (k, b) :: m => decide (lo ≤ k) && decide (k < 2 ^ 32) && decide (b ≠ 0#8) && Memory.wfFrom (k + 1) m

/-- The canonical form of host memory. -/
def Memory.wf (m : List Host.Cell) : Bool := Memory.wfFrom 0 m

/-- The address of the `i`-th byte of a word at `addr`. -/
def Memory.lane (addr : Word) (i : Nat) : Nat := (addr + BitVec.ofNat 32 i).toNat

/-- The byte of `w` that lies at byte `i` of its four, in the platform's order (20 R63). -/
def Memory.laneByte (o : ByteOrder) (w : Word) (i : Nat) : Byte :=
  match o with
  | .little => w.extractLsb' (8 * i) 8
  | .big => w.extractLsb' (8 * (3 - i)) 8

/-- The word at a byte address (20 R62). -/
def Memory.readWord (o : ByteOrder) (addr : Word) (m : List Host.Cell) : Word :=
  let b (i : Nat) : Byte := Memory.read (Memory.lane addr i) m
  match o with
  | .little => b 3 ++ b 2 ++ b 1 ++ b 0
  | .big => b 0 ++ b 1 ++ b 2 ++ b 3

/-- Write a word at a byte address (20 R62). -/
def Memory.writeWord (o : ByteOrder) (addr w : Word) (m : List Host.Cell) : List Host.Cell :=
  [0, 1, 2, 3].foldl (fun m i => Memory.write (Memory.lane addr i) (Memory.laneByte o w i) m) m

/-- The word host memory holds at `addr`. -/
def State.readMem (s : State) (addr : Word) : Word := Memory.readWord s.cfg.byteOrder addr s.mem

/-! ### Events: each records its event and sets PHASE to the position after it (00 R13, 40 R103, R104) -/

/-- `TMP <- BusRead(CR)`: takes one draw (40 R107). -/
def busReadCr (p : Pos) (s : State) : State :=
  { s with
    tmp := s.crAnswer, answers := s.answers.tail, draws := s.draws + 1,
    trace := .busRd .cr s.crAnswer :: s.trace, phase := .active p }

/-- `V <- BusRead(DATA)`: takes one draw, the next output word (40 R108, 20 R71). -/
def busReadData (p : Pos) (s : State) : State :=
  { s with
    v := s.dataAnswer, answers := s.answers.tail, draws := s.draws + 1,
    trace := .busRd .data s.dataAnswer :: s.trace, phase := .active p }

/-- `BusWrite(CR, w)`, always accepted (40 R106); CR then reads back by 40 R107. -/
def busWriteCr (w : Word) (p : Pos) (s : State) : State :=
  { s with crLast := w, trace := .busWr .cr w :: s.trace, phase := .active p }

/-- `BusWrite(r, w)` to a port without readable value: KEY, IV or DATA (10 R38 to R40; 40 R106). -/
def busWritePort (r : Reg) (w : Word) (p : Pos) (s : State) : State :=
  { s with trace := .busWr r w :: s.trace, phase := .active p }

/-- `V <- MemRead(addr, 4)` of an admitted address (20 R62). -/
def memRead (addr : Word) (p : Pos) (s : State) : State :=
  { s with v := s.readMem addr, trace := .memRd addr (s.readMem addr) :: s.trace, phase := .active p }

/-- `MemWrite(addr, 4, w)` at an admitted address (20 R62). -/
def memWrite (addr w : Word) (p : Pos) (s : State) : State :=
  { s with
    mem := Memory.writeWord s.cfg.byteOrder addr w s.mem,
    trace := .memWr addr w :: s.trace, phase := .active p }

/-- The platform does not return from the next clock-hook call (42 R131; log 8). -/
def State.hookHeld (s : State) : Bool := s.hookHolds.headD false

/-- `ClockEnableHook()`, once the platform has returned from this call (42 R131). -/
def hookCall (p : Pos) (s : State) : State :=
  { s with hookHolds := s.hookHolds.tail, trace := .hook :: s.trace, phase := .active p }

/-- `complete(r)`: RES, PHASE to IDLE, Done(r); the working registers keep what they hold (40 R105, 60 R201). -/
def complete (r : Result) (s : State) : State :=
  { s with res := r.code, trace := .done r :: s.trace, phase := .idle }

/-! ### Raising a fault (60 R205) -/

/-- `raise Fault(k)`: FAULT and PHASE, no event, every other register unchanged (60 R205). -/
def raise (k : FaultKind) (s : State) : State :=
  { s with fault := some k, phase := .faulted }

/-- The dispatch check of every command but INIT: CLKEN = 0 raises NotInitialised before any event (40 R102, 60 R206). -/
def whenClocked (s : State) (k : Out) : Out :=
  if s.clken then k else .next (raise .notInitialised s)

/-- The answer of a command in a position that is none of its own (log 13). -/
def foreign : Out := .fault .foreignPosition

/-! ### Memory accesses under the platform's admission (20 R67, 60 R208; log 9) -/

/-- `V <- MemRead(buf + 4*i, 4)` of a buffer of `n` words; stuck where the platform does not admit it. -/
def loadWord (buf n i : Word) (p : Pos) (s : State) : Out :=
  if s.cfg.admits .load buf n i then .next (memRead (wordAddr buf i) p s) else .fault .notAdmitted

/-- `MemWrite(buf + 4*i, 4, V)` to a buffer of `n` words; stuck where the platform does not admit it. -/
def storeWord (buf n i : Word) (p : Pos) (s : State) : Out :=
  if s.cfg.admits .store buf n i then .next (memWrite (wordAddr buf i) s.v p s) else .fault .notAdmitted

/-! ### Shared subroutines -/

/-- The mirror write of SetField: the whole operand, unmasked (10 R21 to R23, 42 R133). -/
def writeMirror (f : Field) (w : Word) (s : State) : State :=
  match f with
  | .algo => { s with algoM := w }
  | .mode => { s with modeM := w }
  | .swap => { s with swapM := w }
  | .order => { s with orderM := w }

/-- The second step of SetField: the mirror and the CR write together (42 R133, R134; 92 D36). -/
def fieldWrite (f : Field) (w : Word) (p : Pos) (s : State) : State :=
  busWriteCr (rmwValue s.tmp (s.cfg.fieldMask f) (s.cfg.fieldValue f w)) p (writeMirror f w s)

/-- The second step of SetDirection (40 R111, R112). -/
def directionWrite (decrypt : Bool) (p : Pos) (s : State) : State :=
  busWriteCr (rmwValue s.tmp s.cfg.decodeMask (s.cfg.directionValue decrypt)) p s

/-- The readiness gate after a CR read: read again while BUSY, else go on (41 R120); no bound on the reads (41 R121). -/
def gateTest (exit : State → Out) (s : State) : Out :=
  if s.cfg.busy s.tmp then .next (busReadCr .gate s) else exit s

end Sys2Proof.Machine
end

