-- ==== Sys2Proof/Machine/Configuration.lean ====
section
/-! DEFINITION. The configuration family: INIT, the four setters and RSTCNT (42). None waits for readiness (42 R141). -/

namespace Sys2Proof.Machine

/-- A setter of field `f`: `SetField(f, w); complete(OK)` (42 R133, R135 to R138). -/
def setterStep (f : Field) (w : Word) (s : State) : Out :=
  match s.phase with
  | .active .start => whenClocked s (.next (busReadCr (.fieldWrite f) s))
  | .active (.fieldWrite g) => if g = f then .next (fieldWrite f w .finish s) else foreign
  | .active .finish => .next (complete .ok s)
  | _ => foreign

/-- SETALGO (42 R135). -/
def execSetalgo (v : Word) (s : State) : Out := setterStep .algo v s

/-- SETMODE (42 R136). -/
def execSetmode (v : Word) (s : State) : Out := setterStep .mode v s

/-- SETSWAP (42 R137). -/
def execSetswap (v : Word) (s : State) : Out := setterStep .swap v s

/-- SETORDER (42 R138). -/
def execSetorder (v : Word) (s : State) : Out := setterStep .order v s

/-- INIT: the hook, then CLKEN with the next event, then the four field writes in the order ALGO, MODE, SWAP, ORDER
(42 R130 to R132). It does not need CLKEN (40 R102). -/
def execInit (algo mode swap order : Word) (s : State) : Out :=
  match s.phase with
  | .active .start => if s.hookHeld then .fault .hookHeld else .next (hookCall .clockOn s)
  | .active .clockOn => .next (busReadCr (.fieldWrite .algo) { s with clken := true })
  | .active (.fieldWrite .algo) => .next (fieldWrite .algo algo (.fieldRead .mode) s)
  | .active (.fieldRead .mode) => .next (busReadCr (.fieldWrite .mode) s)
  | .active (.fieldWrite .mode) => .next (fieldWrite .mode mode (.fieldRead .swap) s)
  | .active (.fieldRead .swap) => .next (busReadCr (.fieldWrite .swap) s)
  | .active (.fieldWrite .swap) => .next (fieldWrite .swap swap (.fieldRead .order) s)
  | .active (.fieldRead .order) => .next (busReadCr (.fieldWrite .order) s)
  | .active (.fieldWrite .order) => .next (fieldWrite .order order .finish s)
  | .active .finish => .next (complete .ok s)
  | _ => foreign

/-- RSTCNT: `RmwCR(CNTRST_MASK, CNTRST_MASK); complete(OK)` (42 R140). -/
def execRstcnt (s : State) : Out :=
  match s.phase with
  | .active .start => whenClocked s (.next (busReadCr .rmwWrite s))
  | .active .rmwWrite => .next (busWriteCr (rmwValue s.tmp s.cfg.cntrstMask s.cfg.cntrstMask) .finish s)
  | .active .finish => .next (complete .ok s)
  | _ => foreign

end Sys2Proof.Machine
end

