-- ==== Sys2Proof/Machine/Gate.lean ====
section
/-! DEFINITION. The readiness family: WAITRDY (41 R122). -/

namespace Sys2Proof.Machine

/-- WAITRDY: WaitReady, then complete(OK) (41 R122). -/
def execWaitrdy (s : State) : Out :=
  match s.phase with
  | .active .start => whenClocked s (.next (busReadCr .gate s))
  | .active .gate => gateTest (fun s => .next (complete .ok s)) s
  | _ => foreign

end Sys2Proof.Machine
end

