-- ==== Sys2Proof/Machine/Load.lean ====
section
/-! DEFINITION. The key and IV family: SETKEY and SETIV (43). J is left where the loop ends (log 12). -/

namespace Sys2Proof.Machine

/-- SETKEY's loop test: the next key word, or the gate's first CR read (43 R150). -/
def keyLoop (keyAddr : Word) (s : State) : Out :=
  if s.j < s.sz then loadWord keyAddr s.sz s.j .keyWrite s else .next (busReadCr .gate s)

/-- SETKEY: SZ and the buffer check before any event, direction 0, SZ key words, the gate, the result (43 R150 to R154). -/
def execSetkey (keyAddr : Word) (s : State) : Out :=
  match s.phase with
  | .active .start =>
    let s1 := { s with sz := s.cfg.keyWords s.algoM }
    whenClocked s (match checkBuffer keyAddr s1.sz with
      | some k => .next (raise k s1)
      | none => .next (busReadCr .rmwWrite s1))
  | .active .rmwWrite => .next (directionWrite false .directionSet s)
  | .active .directionSet => keyLoop keyAddr { s with j := 0#32 }
  | .active .keyWrite => .next (busWritePort .key s.v .keyWritten s)
  | .active .keyWritten => keyLoop keyAddr { s with j := s.j + 1#32 }
  | .active .gate =>
    gateTest (fun s => .next (complete (if s.sz = 0#32 then .unsupportedAlgo else .ok) s)) s
  | _ => foreign

/-- SETIV's zero-fill loop test (43 R155, R156). -/
def zeroLoop (s : State) : Out :=
  if s.j < s.n then .next (busWritePort .iv 0#32 .zeroWritten s) else .next (complete .ok s)

/-- SETIV's loop test: the next IV word, then the zero fill of counter mode (whole 32-bit equality), then OK (43 R155). -/
def ivLoop (ivAddr : Word) (s : State) : Out :=
  if s.j < s.n then loadWord ivAddr s.n s.j .ivWrite s
  else if s.modeM = s.cfg.codeCtr then zeroLoop { s with j := 0#32 }
  else .next (complete .ok s)

/-- SETIV: N and the buffer check before any event, N IV words, N zero words in counter mode; no CR access, no gate
(43 R155 to R159). -/
def execSetiv (ivAddr ivLen : Word) (s : State) : Out :=
  match s.phase with
  | .active .start =>
    let s1 := { s with n := ivLen }
    whenClocked s (match checkBuffer ivAddr ivLen with
      | some k => .next (raise k s1)
      | none => ivLoop ivAddr { s1 with j := 0#32 })
  | .active .ivWrite => .next (busWritePort .iv s.v .ivWritten s)
  | .active .ivWritten => ivLoop ivAddr { s with j := s.j + 1#32 }
  | .active .zeroWritten => zeroLoop { s with j := s.j + 1#32 }
  | _ => foreign

end Sys2Proof.Machine
end

