-- ==== Sys2Proof/Machine/Stream.lean ====
section
/-! DEFINITION. The streaming family: ENCODE and DECODE over the shared body `Stream(d)` (44 R170). J is left
where a loop ends (log 12). -/

namespace Sys2Proof.Machine

/-- WriteChunk's loop test: the next source word, or the gate's first CR read (44 R170, R172). -/
def writeLoop (src : Word) (s : State) : Out :=
  if s.j < s.endJ then loadWord src s.n s.j .chunkWrite s else .next (busReadCr .gate s)

/-- The chunk loop's test: clip END, then WriteChunk; or complete(OK) (44 R170, R173). -/
def chunkLoop (src : Word) (s : State) : Out :=
  if s.off < s.n then
    writeLoop src { s with endJ := if s.off + s.sz ≤ s.n then s.off + s.sz else s.n, j := s.off }
  else .next (complete .ok s)

/-- ReadChunk's loop test: the next output word, or the next chunk (44 R170, R172). -/
def readLoop (src : Word) (s : State) : Out :=
  if s.j < s.endJ then .next (busReadData .chunkStore s) else chunkLoop src { s with off := s.off + s.sz }

/-- ReadChunk, once the gate has ended: J starts again at OFF (44 R170, R172). -/
def readStart (src : Word) (s : State) : Out := readLoop src { s with j := s.off }

/-- What `Stream(d)` decides before its first event: SZ, N, UNSUPPORTED_ALGO, ALIGN, the two buffers in operand order
(44 R170, R171, R179; 60 R204). -/
def streamStart (src dst len : Word) (s : State) : Out :=
  let s1 := { s with sz := s.cfg.blockWords s.algoM, n := len }
  if s1.sz = 0#32 then .next (complete .unsupportedAlgo s1)
  else if len % s1.sz ≠ 0#32 then .next (complete .align s1)
  else
    match checkBuffer src len with
    | some k => .next (raise k s1)
    | none =>
      match checkBuffer dst len with
      | some k => .next (raise k s1)
      | none => .next (busReadCr .rmwWrite s1)

/-- `Stream(d)` at its positions (44 R170, R178). -/
def streamStep (decrypt : Bool) (src dst len : Word) (s : State) : Out :=
  match s.phase with
  | .active .start => whenClocked s (streamStart src dst len s)
  | .active .rmwWrite => .next (directionWrite decrypt .directionSet s)
  | .active .directionSet => chunkLoop src { s with off := 0#32 }
  | .active .chunkWrite => .next (busWritePort .data s.v .chunkWritten s)
  | .active .chunkWritten => writeLoop src { s with j := s.j + 1#32 }
  | .active .gate => gateTest (readStart src) s
  | .active .chunkStore => storeWord dst s.n s.j .chunkStored s
  | .active .chunkStored => readLoop src { s with j := s.j + 1#32 }
  | _ => foreign

/-- ENCODE: `Stream(0)` (44 R175). -/
def execEncode (src dst len : Word) (s : State) : Out := streamStep false src dst len s

/-- DECODE: `Stream(1)` (44 R176). -/
def execDecode (src dst len : Word) (s : State) : Out := streamStep true src dst len s

end Sys2Proof.Machine
end

