-- ==== Sys2Proof/Syntax.lean ====
section
/-! DEFINITION. The command set (30 R84): one constructor per row of spec/opcode_table.json, its operands the whole 32-bit
operand words in the order presented (30 R83, R85). -/

namespace Sys2Proof

/-- The eleven commands of 30 R84. -/
inductive Instr where
  /-- Wait until the coprocessor reports ready (41 R122). -/
  | waitrdy
  /-- Enable the coprocessor's clock and push all four attributes (42 R130). -/
  | init (algo mode swap order : Word)
  /-- Set the algorithm (42 R135). -/
  | setalgo (v : Word)
  /-- Set the cipher mode (42 R136). -/
  | setmode (v : Word)
  /-- Set the swap mode (42 R137). -/
  | setswap (v : Word)
  /-- Set the order mode (42 R138). -/
  | setorder (v : Word)
  /-- Load the key from host memory (43 R150). -/
  | setkey (keyAddr : Word)
  /-- Load the initialisation vector (43 R155). -/
  | setiv (ivAddr ivLen : Word)
  /-- Encrypt `len` words (44 R175). -/
  | encode (src dst len : Word)
  /-- Decrypt `len` words (44 R176). -/
  | decode (src dst len : Word)
  /-- Reset the coprocessor's load/unload counters (42 R140). -/
  | rstcnt
  deriving DecidableEq, Repr

end Sys2Proof
end

