-- ==== Sys2Proof/Machine/Dispatch.lean ====
section
/-! DEFINITION. exec: the meaning of each instruction, one arm per constructor (40 R102). exec is ONE STEP of the active
command: from the position in PHASE up to and including the next event (40 R103). -/

namespace Sys2Proof.Machine

def exec (i : Instr) (s : State) : Host.Outcome State Fault Refusal :=
  match i with
  | .waitrdy => Sys2Proof.Machine.execWaitrdy s
  | .init algo mode swap order => Sys2Proof.Machine.execInit algo mode swap order s
  | .setalgo v => Sys2Proof.Machine.execSetalgo v s
  | .setmode v => Sys2Proof.Machine.execSetmode v s
  | .setswap v => Sys2Proof.Machine.execSetswap v s
  | .setorder v => Sys2Proof.Machine.execSetorder v s
  | .setkey keyAddr => Sys2Proof.Machine.execSetkey keyAddr s
  | .setiv ivAddr ivLen => Sys2Proof.Machine.execSetiv ivAddr ivLen s
  | .encode src dst len => Sys2Proof.Machine.execEncode src dst len s
  | .decode src dst len => Sys2Proof.Machine.execDecode src dst len s
  | .rstcnt => Sys2Proof.Machine.execRstcnt s

end Sys2Proof.Machine
end

