-- ==== Sys2Proof/Decode.lean ====
section
/-! DEFINITION. Command decoding (30 R80 to R90): total on any word stream, rejecting by name, then the encoder written from
the same tables, and the assembler text of R88. A command is decoded from its command word and the operand words of its
format; the number of operand words is fixed by OPC alone (R82). -/

namespace Sys2Proof

/-- Why a word stream is no legal command. -/
inductive DecodeError where
  /-- OPC is 0x00 or in 0x0C..0xFF (30 R86). -/
  | reservedOpcode (opc : BitVec 8)
  /-- RSV is not 0 (30 R86). -/
  | reservedBits (rsv : BitVec 24)
  /-- The stream ends before the command's last word: the host has not presented the whole command (30 R82). -/
  | truncated
  deriving DecidableEq, Repr

/-- OPC, the command word's bits 7..0 (30 R80). -/
def opcOf (cw : Word) : BitVec 8 := cw.extractLsb' 0 8

/-- RSV, the command word's bits 31..8 (30 R80). -/
def rsvOf (cw : Word) : BitVec 24 := cw.extractLsb' 8 24

/-- The number of operand words that belong to a command, fixed by OPC alone; a reserved OPC takes none (30 R81, R82). -/
def operandCount (opc : BitVec 8) : Nat :=
  if opc = 0x02#8 then 4
  else if 0x03#8 ≤ opc ∧ opc ≤ 0x07#8 then 1
  else if opc = 0x08#8 then 2
  else if opc = 0x09#8 ∨ opc = 0x0A#8 then 3
  else 0

/-- The command of an opcode with its operand slots: the opcode map (30 R84, R85). -/
def ofOpcode (opc : BitVec 8) (o0 o1 o2 o3 : Word) : Option Instr :=
  if opc = 0x01#8 then some .waitrdy
  else if opc = 0x02#8 then some (.init o0 o1 o2 o3)
  else if opc = 0x03#8 then some (.setalgo o0)
  else if opc = 0x04#8 then some (.setmode o0)
  else if opc = 0x05#8 then some (.setswap o0)
  else if opc = 0x06#8 then some (.setorder o0)
  else if opc = 0x07#8 then some (.setkey o0)
  else if opc = 0x08#8 then some (.setiv o0 o1)
  else if opc = 0x09#8 then some (.encode o0 o1 o2)
  else if opc = 0x0A#8 then some (.decode o0 o1 o2)
  else if opc = 0x0B#8 then some .rstcnt
  else none

/-- The legality test of the dispatch and the opcode map, on a command word in its two fields and four operand slots
(30 R84, R86; 40 R102). -/
def decodeFields (opc : BitVec 8) (rsv : BitVec 24) (o0 o1 o2 o3 : Word) : Except DecodeError Instr :=
  if rsv = 0#24 then
    match ofOpcode opc o0 o1 o2 o3 with
    | some i => .ok i
    | none => .error (.reservedOpcode opc)
  else .error (.reservedBits rsv)

/-- One command's words off the front of a stream: the command word, its operand words, and the rest, whose first word is
the next command word; none while the stream lacks some of them (30 R82). Legal or not plays no part. -/
def takeCommand : List Word → Option (Word × List Word × List Word)
  | [] => none
  | cw :: rest =>
    let k := operandCount (opcOf cw)
    if rest.length < k then none else some (cw, rest.take k, rest.drop k)

/-- The command at the front of a word stream, and the words after it. -/
def decode (ws : List Word) : Except DecodeError (Instr × List Word) :=
  match takeCommand ws with
  | none => .error .truncated
  | some (cw, ops, rest) =>
    match decodeFields (opcOf cw) (rsvOf cw) (ops.getD 0 0) (ops.getD 1 0) (ops.getD 2 0) (ops.getD 3 0) with
    | .ok i => .ok (i, rest)
    | .error e => .error e

/-- The opcode of a command (30 R84). -/
def Instr.opcode : Instr → BitVec 8
  | .waitrdy => 0x01#8
  | .init _ _ _ _ => 0x02#8
  | .setalgo _ => 0x03#8
  | .setmode _ => 0x04#8
  | .setswap _ => 0x05#8
  | .setorder _ => 0x06#8
  | .setkey _ => 0x07#8
  | .setiv _ _ => 0x08#8
  | .encode _ _ _ => 0x09#8
  | .decode _ _ _ => 0x0A#8
  | .rstcnt => 0x0B#8

/-- The operand words of a command in the order presented (30 R85). -/
def Instr.operands : Instr → List Word
  | .waitrdy => []
  | .init algo mode swap order => [algo, mode, swap, order]
  | .setalgo v => [v]
  | .setmode v => [v]
  | .setswap v => [v]
  | .setorder v => [v]
  | .setkey keyAddr => [keyAddr]
  | .setiv ivAddr ivLen => [ivAddr, ivLen]
  | .encode src dst len => [src, dst, len]
  | .decode src dst len => [src, dst, len]
  | .rstcnt => []

/-- The words of a command: the command word, OPC zero-extended, then each operand as one word (30 R84, R88). -/
def encode (i : Instr) : List Word := i.opcode.setWidth 32 :: i.operands

/-- The mnemonic of a command (30 R84). -/
def Instr.mnemonic : Instr → String
  | .waitrdy => "WAITRDY"
  | .init _ _ _ _ => "INIT"
  | .setalgo _ => "SETALGO"
  | .setmode _ => "SETMODE"
  | .setswap _ => "SETSWAP"
  | .setorder _ => "SETORDER"
  | .setkey _ => "SETKEY"
  | .setiv _ _ => "SETIV"
  | .encode _ _ _ => "ENCODE"
  | .decode _ _ _ => "DECODE"
  | .rstcnt => "RSTCNT"

/-- The assembler text of a command, its operands in decimal (30 R88). -/
def Instr.asm (i : Instr) : String :=
  match i.operands with
  | [] => i.mnemonic
  | ops => i.mnemonic ++ " " ++ ", ".intercalate (ops.map fun w => toString w.toNat)

/-- The instruction whose bits are `w`, numbered as spec/opcode_table.json numbers them: bit 0 is the least significant bit
of the command word and the operand words' bits count on from it; bits at `nbits` and above are 0. -/
def decodeTableWord (nbits w : Nat) : Option Instr :=
  match decode (tableWords nbits w) with
  | .ok (i, _) => some i
  | .error _ => none
where
  /-- The five words of the longest command, the first word the lowest 32 bits. -/
  tableWords (nbits w : Nat) : List Word :=
    let x := w % 2 ^ nbits
    [BitVec.ofNat 32 x, BitVec.ofNat 32 (x / 2 ^ 32), BitVec.ofNat 32 (x / 2 ^ 64), BitVec.ofNat 32 (x / 2 ^ 96),
     BitVec.ofNat 32 (x / 2 ^ 128)]

end Sys2Proof
end

