-- ==== Sys2Proof/Machine/Port.lean ====
section
/-! DEFINITION. The command port, the host, and the device reset: Accept (40 R101), the decoding of the latch (40 R102),
ILLEGAL (60 R203), the host's moves (log 6), Reset (70 R230, R231; log 7) and waiting for it (log 14). -/

namespace Sys2Proof.Machine

/-- Accept(words): loads OPC, RSV and the operand slots the format has, the others keeping what they hold, and sets
`PHASE <- ACTIVE(start)` (40 R101, 10 R28). -/
def accept (cw : Word) (ops : List Word) (s : State) : State :=
  { s with
    opc := opcOf cw, rsv := rsvOf cw,
    op0 := ops.getD 0 s.op0, op1 := ops.getD 1 s.op1, op2 := ops.getD 2 s.op2, op3 := ops.getD 3 s.op3,
    trace := .accept (cw :: ops) :: s.trace, phase := .active .start }

/-- The command in the latch (40 R102). -/
def decodeLatch (s : State) : Except DecodeError Instr := decodeFields s.opc s.rsv s.op0 s.op1 s.op2 s.op3

/-- The dispatch of an illegal command: complete(ILLEGAL) at its first step, whatever CLKEN is (30 R86, 60 R203). -/
def illegalStep (s : State) : Out :=
  match s.phase with
  | .active .start => .next (complete .illegal s)
  | _ => foreign

/-- The moves left once a presented command's words are taken: the words after it are the next command's (30 R82). -/
def hostAfter (rest : List Word) (moves : List HostMove) : List HostMove :=
  if rest = [] then moves else .command rest :: moves

/-- The host's next move while PHASE = IDLE (40 R101). With no move, or a command whose words are not all there, the CCD
waits and nothing changes (70 R232). -/
def hostStep (s : State) : Out :=
  match s.host with
  | [] => .next s
  | .store addr b :: moves => .next { s with mem := Memory.write addr.toNat b s.mem, host := moves }
  | .command words :: moves =>
    match takeCommand words with
    | some (cw, ops, rest) => .next (accept cw ops { s with host := hostAfter rest moves })
    | none => .next s

/-- INIT is held in a hook call from which the platform does not return (42 R131, 60 R208). -/
def hookStuck (s : State) : Bool :=
  match s.phase, decodeLatch s with
  | .active .start, .ok (.init _ _ _ _) => s.hookHeld
  | _, _ => false

/-- Reset: every CCD register to its reset value, the CR contract from CR_RESET; host memory is not changed, nor are the
outside world's inputs, but that a held hook call is aborted with its INIT and the next INIT makes a call of its own; the
event is recorded (70 R230, R231; log 7, log 8). `later` are the Resets still to come. -/
def deviceReset (later : List Nat) (s : State) : State :=
  { State.reset with
    crLast := s.cfg.crReset, mem := s.mem, cfg := s.cfg, host := s.host, resets := later,
    hookHolds := if hookStuck s then s.hookHolds.tail else s.hookHolds,
    answers := s.answers, draws := s.draws, trace := .reset :: s.trace }

/-- One step nearer to the next Reset, if one is to come (log 7). -/
def tickReset (s : State) : State :=
  { s with
    resets := match s.resets with
      | [] => []
      | k :: later => (k - 1) :: later }

/-- Where the CCD has no step and a Reset is to come, it waits for it; else the answer stands (60 R205, R208; log 14). -/
def awaitReset (s : State) (o : Out) : Out :=
  match o with
  | .fault f => if s.resets = [] then .fault f else .next s
  | .next t => .next t
  | .refused r => .refused r

/-- The host's Accept of the command whose words are `ws`, with no Reset due: what `State.withFetchWord` stands for. A
stream that lacks words changes nothing. -/
def place (ws : List Word) (s : State) : State :=
  match takeCommand ws with
  | some (cw, ops, _) => { accept cw ops s with resets := [] }
  | none => s

end Sys2Proof.Machine
end

