-- ==== Sys2Proof/Machine/Step.lean ====
section
/-! DEFINITION. One step of the machine: Reset first if it is due (60 R213), else the host's move while IDLE (40 R101), else
one step of the active command (40 R103). It only calls. -/

namespace Sys2Proof.Machine

/-- One step with no Reset due. -/
def advance (s : State) : Out :=
  match s.phase with
  | .idle => hostStep s
  | .faulted => .fault .halted
  | .active _ =>
    match decodeLatch s with
    | .ok i => exec i s
    | .error _ => illegalStep s

/-- One step. -/
def step (s : State) : Host.Outcome State Fault Refusal :=
  match s.resets with
  | 0 :: later => .next (deviceReset later s)
  | _ => awaitReset (tickReset s) (advance (tickReset s))

/-- `s` with the instruction of an opcode-table word accepted at the command port, so that the very next step runs it: the
host's Accept (40 R101) with no Reset due (log 16). -/
def State.withFetchWord (s : State) (nbits w : Nat) : State := place (decodeTableWord.tableWords nbits w) s

end Sys2Proof.Machine
end

