-- ==== Sys2Proof/Safety.lean ====
section
/-! DEFINITION. The terms claims are stated in: which positions a command has (40 R103), which events it may make (20 R61),
the invariants of the sequencer, the mirrors, alignment and memory; the words a port was given; the conformant run of
70 R245, the named datapath properties of 40 R109, and the premise COPRO_LIVE of 40 R110. Log 18, 19. -/

namespace Sys2Proof

open Machine

/-! ### Positions and events of a command -/

/-- The positions of a setter of field `f` (42 R133). -/
def setterPositions (f : Field) : List Pos := [.start, .fieldWrite f, .finish]

/-- The positions of `Stream(d)` (44 R170, R178). -/
def streamPositions : List Pos :=
  [.start, .rmwWrite, .directionSet, .chunkWrite, .chunkWritten, .gate, .chunkStore, .chunkStored]

/-- The positions of a command's pseudocode (40 R103). -/
def Instr.positions : Instr → List Pos
  | .waitrdy => [.start, .gate]
  | .init _ _ _ _ =>
    [.start, .clockOn, .fieldWrite .algo, .fieldRead .mode, .fieldWrite .mode, .fieldRead .swap, .fieldWrite .swap,
     .fieldRead .order, .fieldWrite .order, .finish]
  | .setalgo _ => setterPositions .algo
  | .setmode _ => setterPositions .mode
  | .setswap _ => setterPositions .swap
  | .setorder _ => setterPositions .order
  | .setkey _ => [.start, .rmwWrite, .directionSet, .keyWrite, .keyWritten, .gate]
  | .setiv _ _ => [.start, .ivWrite, .ivWritten, .zeroWritten]
  | .encode _ _ _ => streamPositions
  | .decode _ _ _ => streamPositions
  | .rstcnt => [.start, .rmwWrite, .finish]

/-- The command is INIT, the one command that does not need CLKEN (40 R102). -/
def Instr.isInit : Instr → Bool
  | .init _ _ _ _ => true
  | _ => false

/-- The field a setter sets (42 R135 to R138). -/
def Instr.setterField : Instr → Option Field
  | .setalgo _ => some .algo
  | .setmode _ => some .mode
  | .setswap _ => some .swap
  | .setorder _ => some .order
  | _ => none

/-- The setter of a field (42 R135 to R138). -/
def setterOf : Field → Word → Instr
  | .algo, v => .setalgo v
  | .mode, v => .setmode v
  | .swap, v => .setswap v
  | .order, v => .setorder v

/-- ENCODE (`decrypt = false`, `d = 0`) or DECODE (`decrypt = true`, `d = 1`) (44 R170). -/
def streamOf (decrypt : Bool) (src dst len : Word) : Instr :=
  if decrypt then .decode src dst len else .encode src dst len

/-- The command is ENCODE or DECODE (44 R170). -/
def Instr.isStream : Instr → Bool
  | .encode _ _ _ => true
  | .decode _ _ _ => true
  | _ => false

/-- The positions at which a command writes CR (40 R111, 42 R133). -/
def Machine.Pos.writesCr : Pos → Bool
  | .rmwWrite => true
  | .fieldWrite _ => true
  | _ => false

/-- The buffers of a command and how it uses each: the host memory columns of the table of 20 R61. -/
def Instr.buffers : Instr → List (Access × Word)
  | .setkey keyAddr => [(.load, keyAddr)]
  | .setiv ivAddr _ => [(.load, ivAddr)]
  | .encode src dst _ => [(.load, src), (.store, dst)]
  | .decode src dst _ => [(.load, src), (.store, dst)]
  | _ => []

/-- Which events a command may make: the table of 20 R61, the hook being INIT's (42 R131) and Done everyone's (40 R105). -/
def Instr.mayMake (i : Instr) : Event → Bool
  | .accept _ => false
  | .reset => false
  | .done _ => true
  | .hook => i.isInit
  | .busRd .cr _ => match i with
    | .setiv _ _ => false
    | _ => true
  | .busWr .cr _ => match i with
    | .setiv _ _ => false
    | .waitrdy => false
    | _ => true
  | .busRd .data _ => i.isStream
  | .busWr .data _ => i.isStream
  | .memWr _ _ => i.isStream
  | .memRd _ _ => match i with
    | .setkey _ => true
    | .setiv _ _ => true
    | _ => i.isStream
  | .busWr .key _ => match i with
    | .setkey _ => true
    | _ => false
  | .busWr .iv _ => match i with
    | .setiv _ _ => true
    | _ => false
  | .busRd .key _ => false
  | .busRd .iv _ => false

namespace Machine

/-- The mirror register of a field (10 R21 to R23). -/
def State.mirror (s : State) : Field → Word
  | .algo => s.algoM
  | .mode => s.modeM
  | .swap => s.swapM
  | .order => s.orderM

/-- The word a trace event gives to a register, if it is a write of that register. -/
def Event.given (r : Reg) : Event → Option Word
  | .busWr q w => if q = r then some w else none
  | _ => none

/-- The words a list of events (newest first) gave to a register, in the order they were written. -/
def given (r : Reg) (tr : List Event) : List Word := (tr.filterMap (Event.given r)).reverse

/-- The words of a buffer of `k` words at `buf`, in increasing index (20 R65). -/
def State.buffer (s : State) (buf : Word) (k : Nat) : List Word :=
  (List.range k).map fun i => s.readMem (wordAddr buf (BitVec.ofNat 32 i))

/-- The events that copy `k` words of a buffer to a port, oldest first: each word read and then written (20 R69). -/
def State.copyEvents (s : State) (r : Reg) (buf : Word) (k : Nat) : List Event :=
  (s.buffer buf k).zipIdx.flatMap fun (w, i) => [.memRd (wordAddr buf (BitVec.ofNat 32 i)) w, .busWr r w]

/-- The events that drain DATA into a buffer, oldest first: each output word read and then stored (20 R69). -/
def drainEvents (buf : Word) (outs : List Word) : List Event :=
  outs.zipIdx.flatMap fun (y, i) => [.busRd .data y, .memWr (wordAddr buf (BitVec.ofNat 32 i)) y]

/-- The draws of one block of ENCODE or DECODE: the gate's busy answers, its ready answer, the output words (44 R172). -/
structure GateBlock where
  busy : List Word
  ready : Word
  outs : List Word
  deriving DecidableEq, Repr

/-- The draws of a block in the order the CCD takes them (44 R172). -/
def GateBlock.draws (b : GateBlock) : List Word := b.busy ++ b.ready :: b.outs

/-! ### The next host memory access of a command (43 R150, R155; 44 R170) -/

/-- A memory access a command is about to make: how, its buffer's address, the buffer's word count, the word's index. -/
structure Attempt where
  kind : Access
  buf : Word
  count : Word
  index : Word
  deriving DecidableEq, Repr

/-- The source read that a chunk at word `off` begins with, if there is such a chunk: its words are `off` up to
`min(OFF + SZ, N)` (44 R170). -/
def State.chunkAttempt (src off : Word) (s : State) : Option Attempt :=
  if off < s.n ∧ off < (if off + s.sz ≤ s.n then off + s.sz else s.n) then some ⟨.load, src, s.n, off⟩ else none

/-- `Stream(d)`'s memory access if its next event is one (44 R170). -/
def State.streamAttempt (src dst : Word) (s : State) : Option Attempt :=
  match s.phase with
  | .active .directionSet => s.chunkAttempt src 0#32
  | .active .chunkWritten => if s.j + 1#32 < s.endJ then some ⟨.load, src, s.n, s.j + 1#32⟩ else none
  | .active .gate => if s.cfg.busy s.tmp ∨ s.off < s.endJ then none else s.chunkAttempt src (s.off + s.sz)
  | .active .chunkStore => some ⟨.store, dst, s.n, s.j⟩
  | .active .chunkStored => if s.j + 1#32 < s.endJ then none else s.chunkAttempt src (s.off + s.sz)
  | _ => none

/-- The command's memory access if its next event is one (43 R150, R155; 44 R170). -/
def State.attempt (i : Instr) (s : State) : Option Attempt :=
  match i with
  | .setkey a =>
    match s.phase with
    | .active .directionSet => if 0#32 < s.sz then some ⟨.load, a, s.sz, 0#32⟩ else none
    | .active .keyWritten => if s.j + 1#32 < s.sz then some ⟨.load, a, s.sz, s.j + 1#32⟩ else none
    | _ => none
  | .setiv a len =>
    match s.phase with
    | .active .start =>
      if s.clken = true ∧ checkBuffer a len = none ∧ 0#32 < len then some ⟨.load, a, len, 0#32⟩ else none
    | .active .ivWritten => if s.j + 1#32 < s.n then some ⟨.load, a, s.n, s.j + 1#32⟩ else none
    | _ => none
  | .encode src dst _ => s.streamAttempt src dst
  | .decode src dst _ => s.streamAttempt src dst
  | _ => none

/-! ### Invariants -/

/-- FAULT holds a kind exactly in the faulted state (10 R30, 60 R205). -/
def State.FaultAgrees (s : State) : Prop := s.phase = .faulted ↔ s.fault ≠ none

/-- RES holds one of the four codes: bits 31..2 are 0 (10 R26). -/
def State.ResultLegal (s : State) : Prop := s.res.toNat ≤ 3

/-- An active command stands at one of its own positions, an illegal one only at the start (10 R27, 40 R102, R103). -/
def State.PositionOwned (s : State) : Prop :=
  ∀ p, s.phase = .active p →
    match decodeLatch s with
    | .ok i => p ∈ i.positions
    | .error _ => p = .start

/-- A command other than INIT that has passed its dispatch found CLKEN = 1, and INIT has set it once it has read CR
(10 R25, 40 R102, 42 R130). -/
def State.ClockedWhenActive (s : State) : Prop :=
  ∀ p i, s.phase = .active p → decodeLatch s = .ok i → p ≠ .start → (i.isInit = false ∨ p ≠ .clockOn) → s.clken = true

/-- The sequencer's invariant. -/
def State.SequencerInv (s : State) : Prop :=
  s.FaultAgrees ∧ s.ResultLegal ∧ s.PositionOwned ∧ s.ClockedWhenActive

/-- The bits of CR that the CCD wrote, as TMP shows them between the two events of a read-modify-write (40 R107, R111). -/
def State.ReadBackHeld (s : State) : Prop :=
  ∀ p, s.phase = .active p → (p = .rmwWrite ∨ ∃ f, p = .fieldWrite f) →
    s.tmp &&& s.cfg.storedMask = s.crLast &&& s.cfg.storedMask

/-- The place of a field write in INIT's fixed order (42 R132). -/
def Field.rank : Field → Nat
  | .algo => 0
  | .mode => 1
  | .swap => 2
  | .order => 3

/-- INIT is at a position at which it has not yet written field `f` since its hook (42 R130). -/
def beforeField (f : Field) : Pos → Bool
  | .clockOn => true
  | .fieldRead g => decide (Field.rank g ≤ Field.rank f)
  | .fieldWrite g => decide (Field.rank g ≤ Field.rank f)
  | _ => false

/-- An INIT is under way that has not yet written field `f`. -/
def State.initOwes (s : State) (f : Field) : Prop :=
  ∃ p i, s.phase = .active p ∧ decodeLatch s = .ok i ∧ i.isInit = true ∧ beforeField f p = true

/-- CR's field as last written is the mirror's value, shifted and masked (10 R24). -/
def State.MirrorAgrees (s : State) (f : Field) : Prop :=
  s.crLast &&& s.cfg.fieldMask f = (s.mirror f <<< (s.cfg.field f).shift) &&& s.cfg.fieldMask f

/-- The mirror invariant of 10 R24: from the first INIT on, every field whose write the running INIT does not still owe
agrees with its mirror; with what a read-modify-write relies on. -/
def State.MirrorInv (s : State) : Prop :=
  s.cfg.WF ∧ s.ReadBackHeld ∧ ∀ f, s.clken = true → ¬ s.initOwes f → s.MirrorAgrees f

/-- Under a sticky CNTRST whose last written value is 1, what every later CR write relies on (70 R244). -/
def State.CounterResetSticks (s : State) : Prop :=
  s.cfg.WF ∧ s.cfg.cntrstReadback = .sticky ∧ s.cfg.cntrst s.crLast = true ∧
    ∀ p, s.phase = .active p → p.writesCr = true → s.cfg.cntrst s.tmp = true

/-- Within its chunks ENCODE and DECODE stay inside their buffers: END is at most N, and a word about to be stored lies before
END (44 R170, R172). -/
def State.ChunkInside (s : State) : Prop :=
  ∀ p i, s.phase = .active p → decodeLatch s = .ok i → i.isStream = true →
    p ≠ .start → p ≠ .rmwWrite → p ≠ .directionSet → s.endJ ≤ s.n ∧ (p = .chunkStore → s.j < s.endJ)

/-- The memory accesses of a trace are at multiples of 4. -/
def Event.aligned : Event → Bool
  | .memRd a _ => a.toNat % 4 == 0
  | .memWr a _ => a.toNat % 4 == 0
  | _ => true

/-- The buffers a command past its checks still accesses are aligned (20 R64, 40 R113). -/
def State.BuffersAligned (s : State) : Prop :=
  ∀ p, s.phase = .active p → p ≠ .start →
    match decodeLatch s with
    | .ok (.setkey a) => s.sz ≠ 0#32 → a.toNat % 4 = 0
    | .ok (.setiv a _) => s.n ≠ 0#32 → a.toNat % 4 = 0
    | .ok (.encode a b _) => (s.n ≠ 0#32 → a.toNat % 4 = 0 ∧ b.toNat % 4 = 0) ∧ (s.n = 0#32 → p = .rmwWrite ∨ p = .directionSet)
    | .ok (.decode a b _) => (s.n ≠ 0#32 → a.toNat % 4 = 0 ∧ b.toNat % 4 = 0) ∧ (s.n = 0#32 → p = .rmwWrite ∨ p = .directionSet)
    | _ => True

/-- No access of the trace is misaligned, and none to come will be (20 R64). -/
def State.AlignmentInv (s : State) : Prop :=
  (∀ e ∈ s.trace, e.aligned = true) ∧ s.BuffersAligned

/-! ### The conformant run (70 R245; log 18) -/

/-- A SETIV that has completed: its `ivLen`, and whether a CR write with CNTRST = 1 has come since. -/
structure IvLoad where
  len : Word
  cntrst : Bool
  deriving DecidableEq, Repr

/-- A SETKEY that has completed with OK: the SETIV before it since the last configuration command, and whether a CR write
with CNTRST = 1 has come since. -/
structure KeyLoad where
  iv : Option IvLoad
  cntrst : Bool
  deriving DecidableEq, Repr

/-- What 70 R245 needs to remember of a trace, read oldest event first. -/
structure Conformance where
  /-- The command accepted last, while it is active; none for an illegal one. -/
  cmd : Option Instr
  /-- CR writes the active command has made: which field INIT writes next (42 R132). -/
  crWrites : Nat
  /-- ALGO_M and MODE_M as the writes of the trace leave them. -/
  algoM : Word
  modeM : Word
  /-- The last SETIV and the last SETKEY since the last INIT, SETALGO or SETMODE (items 2, 3). -/
  iv : Option IvLoad
  key : Option KeyLoad
  /-- A SETIV has completed with no SETKEY or WAITRDY after it (item 4). -/
  ivOpen : Bool
  /-- Since the last Reset: an INIT has been accepted, and a WAITRDY has completed after it (item 6). -/
  inited : Bool
  waited : Bool
  /-- No item is broken: items 1 and 6 since the last Reset, the others in the whole trace. -/
  sinceReset : Bool
  ever : Bool
  deriving DecidableEq, Repr

/-- Before any event. -/
def Conformance.initial : Conformance where
  cmd := none
  crWrites := 0
  algoM := 0#32
  modeM := 0#32
  iv := none
  key := none
  ivOpen := false
  inited := false
  waited := false
  sinceReset := true
  ever := true

/-- The legal values of a field (70 R245 item 1). -/
def legalValues (p : Params) : Field → List Word
  | .algo => p.algoCodes
  | .mode => p.modeCodes
  | .swap => p.swapLegal
  | .order => p.orderLegal

/-- The field and operand of the active command's next CR write, if it is a field write (42 R130, R133). -/
def Conformance.writing (c : Conformance) : Option (Field × Word) :=
  match c.cmd with
  | some (.setalgo v) => some (.algo, v)
  | some (.setmode v) => some (.mode, v)
  | some (.setswap v) => some (.swap, v)
  | some (.setorder v) => some (.order, v)
  | some (.init a m w o) => [(Field.algo, a), (.mode, m), (.swap, w), (.order, o)][c.crWrites]?
  | _ => none

/-- The loads a streaming command relies on are there and untouched by a counter reset (70 R245 items 2, 3, 5). DESIGN CHOICE:
`BLOCK_WORDS(ALGO_M) / 2` is read as the exact half, so that with an odd block size no `ivLen` is conformant in CTR mode, since
none fills the IV register (43 R157; log 24). -/
def Conformance.loadsGood (p : Params) (c : Conformance) : Bool :=
  match c.key with
  | none => false
  | some k =>
    !k.cntrst &&
    (if c.modeM = p.codeCbc ∨ c.modeM = p.codeCtr then
      match k.iv with
      | none => false
      | some l => !l.cntrst && (decide (c.modeM ≠ p.codeCtr) || decide (2 * l.len.toNat = (p.blockWords c.algoM).toNat))
     else true)

/-- A CR write with CNTRST = 1 marks the loads that stand (70 R245 item 5). -/
def Conformance.markCntrst (c : Conformance) : Conformance :=
  let mark (l : IvLoad) : IvLoad := { l with cntrst := true }
  { c with
    iv := c.iv.map mark
    key := c.key.map fun k => { iv := k.iv.map mark, cntrst := true } }

/-- An accepted command. -/
def Conformance.accept (p : Params) (c : Conformance) (i : Instr) : Conformance :=
  let c := { c with cmd := some i, crWrites := 0 }
  let needsWait (c : Conformance) : Conformance := { c with sinceReset := c.sinceReset && c.waited }
  match i with
  | .init _ _ _ _ => { c with iv := none, key := none, inited := true }
  | .setalgo _ => { c with iv := none, key := none }
  | .setmode _ => { c with iv := none, key := none }
  | .setkey _ => needsWait c
  | .setiv _ _ => needsWait c
  | .encode _ _ _ => needsWait { c with ever := c.ever && c.loadsGood p && !c.ivOpen }
  | .decode _ _ _ => needsWait { c with ever := c.ever && c.loadsGood p && !c.ivOpen }
  | _ => c

/-- A CR write of the active command. Item 1 asks that the whole operand of a field write be legal (93 U1, 92 D14) and that the
value it leaves in the field be (42 R134; log 18). -/
def Conformance.crWrite (p : Params) (c : Conformance) (w : Word) : Conformance :=
  let c1 := match c.writing with
    | some (f, v) =>
      { c with
        sinceReset := c.sinceReset && decide (v ∈ legalValues p f) && decide (p.fieldOf f w ∈ legalValues p f)
        algoM := if f = Field.algo then v else c.algoM
        modeM := if f = Field.mode then v else c.modeM }
    | none => c
  let c2 := if p.cntrst w then
      let stream := match c1.cmd with
        | some i => i.isStream
        | none => false
      { c1.markCntrst with ever := c1.ever && !stream }
    else c1
  { c2 with crWrites := c2.crWrites + 1 }

/-- The active command completes. -/
def Conformance.complete (c : Conformance) (r : Result) : Conformance :=
  let c1 := match c.cmd with
    | some .waitrdy => { c with ivOpen := false, waited := c.waited || c.inited }
    | some (.setiv _ len) => { c with iv := some ⟨len, false⟩, ivOpen := true }
    | some (.setkey _) => { c with ivOpen := false, key := if r = Result.ok then some ⟨c.iv, false⟩ else c.key }
    | _ => c
  { c1 with cmd := none }

/-- One event. -/
def Conformance.event (p : Params) (c : Conformance) : Event → Conformance
  | .accept ws => match Sys2Proof.decode ws with
    | .ok (i, _) => c.accept p i
    | .error _ => { c with cmd := none }
  | .busWr .cr w => c.crWrite p w
  | .done r => c.complete r
  | .reset => { Conformance.initial with ever := c.ever }
  | _ => c

/-- 70 R245: the run with this trace (newest event first) is conformant. -/
def conformant (p : Params) (tr : List Event) : Bool :=
  let c := tr.reverse.foldl (Conformance.event p) .initial
  c.sinceReset && c.ever

/-! ### Named datapath properties (40 R109; log 19) -/

/-- One completed ENCODE or DECODE, with the configuration and loads before it, the words it gave and the words it read.
`fresh`: its key, and in CBC and CTR mode its IV, were loaded for it, with no other ENCODE or DECODE since that load. -/
structure StreamCall where
  decrypt : Bool
  algo : Word
  mode : Word
  key : List Word
  iv : List Word
  fresh : Bool
  ins : List Word
  outs : List Word
  deriving DecidableEq, Repr

/-- What collecting the calls of a trace remembers: the loads' words, whether a SETKEY and a SETIV have completed since the
last ENCODE or DECODE that completed with OK, and the words the active command gave DATA and read from it. -/
structure CallScan where
  conf : Conformance
  key : List Word
  iv : List Word
  keyFresh : Bool
  ivFresh : Bool
  ins : List Word
  outs : List Word
  calls : List StreamCall
  deriving DecidableEq, Repr

/-- Before any event, and after a Reset: nothing is loaded. -/
def CallScan.unloaded (conf : Conformance) (calls : List StreamCall) : CallScan where
  conf := conf
  key := []
  iv := []
  keyFresh := false
  ivFresh := false
  ins := []
  outs := []
  calls := calls

/-- The active command completes with OK: a load is fresh, and an ENCODE or DECODE is a call that leaves no load fresh. -/
def CallScan.complete (p : Params) (c : CallScan) : CallScan :=
  let call (decrypt : Bool) : CallScan :=
    let fresh := c.keyFresh && (c.ivFresh || decide (c.conf.modeM ≠ p.codeCbc ∧ c.conf.modeM ≠ p.codeCtr))
    { c with
      keyFresh := false, ivFresh := false
      calls := c.calls ++ [⟨decrypt, c.conf.algoM, c.conf.modeM, c.key, c.iv, fresh, c.ins, c.outs⟩] }
  match c.conf.cmd with
  | some (.setkey _) => { c with keyFresh := true }
  | some (.setiv _ _) => { c with ivFresh := true }
  | some (.encode _ _ _) => call false
  | some (.decode _ _ _) => call true
  | _ => c

/-- One event of the collection. -/
def CallScan.event (p : Params) (c : CallScan) (e : Event) : CallScan :=
  let c1 : CallScan := match e with
    | .accept ws => match Sys2Proof.decode ws with
      | .ok (.setkey _, _) => { c with key := [], keyFresh := false }
      | .ok (.setiv _ _, _) => { c with iv := [], ivFresh := false }
      | _ => { c with ins := [], outs := [] }
    | .busWr .key w => { c with key := c.key ++ [w] }
    | .busWr .iv w => { c with iv := c.iv ++ [w] }
    | .busWr .data w => { c with ins := c.ins ++ [w] }
    | .busRd .data w => { c with outs := c.outs ++ [w] }
    | .done .ok => c.complete p
    | .reset => .unloaded c.conf c.calls
    | _ => c
  { c1 with conf := c.conf.event p e }

/-- The completed streaming calls of a trace (newest event first), in the order they ran. -/
def streamCalls (p : Params) (tr : List Event) : List StreamCall :=
  (tr.reverse.foldl (CallScan.event p) (.unloaded .initial [])).calls

/-- `d` decodes what `e` encoded, under the same algorithm, mode, key and IV, the key and the IV loaded anew before each of the
two (44 R183, 95 E1). DEDUCED: how a load counts as before a call is log 19's. -/
def StreamCall.inverts (e d : StreamCall) : Bool :=
  !e.decrypt && d.decrypt && e.fresh && d.fresh && decide (e.algo = d.algo) && decide (e.mode = d.mode) &&
    decide (e.key = d.key) && decide (e.iv = d.iv) && decide (d.ins = e.outs)

/-- ROUNDTRIP (40 R109): in a conformant run, a DECODE of an earlier ENCODE's output reads the ENCODE's source words. -/
def Roundtrip (p : Params) (tr : List Event) : Prop :=
  conformant p tr = true → (streamCalls p tr).Pairwise fun e d => StreamCall.inverts e d = true → d.outs = e.ins

/-- What checking TD_XOR remembers: the words of the latest run of DATA writes, how many DATA reads have followed it, and
whether every read so far was right. -/
structure XorScan where
  run : List Word
  taken : Nat
  good : Bool
  deriving DecidableEq, Repr

/-- One event of the check: a run of DATA writes is the DATA writes with no DATA read between them. DESIGN CHOICE: a Reset ends
a run too, so the words of a chunk that a Reset aborts belong to no later run (95 section 1.2 is silent; log 25). -/
def XorScan.event (k : Word) (x : XorScan) : Event → XorScan
  | .busWr .data w => if x.taken = 0 then { x with run := x.run ++ [w] } else { x with run := [w], taken := 0 }
  | .busRd .data w => { x with taken := x.taken + 1, good := x.good && decide (x.run[x.taken]? = some (w ^^^ k)) }
  | .reset => { x with run := [], taken := 0 }
  | _ => x

/-- Every DATA read of the trace is the word at its index in the latest run of DATA writes, XOR K (95 section 1.2). -/
def xorAnswers (k : Word) (tr : List Event) : Bool := (tr.reverse.foldl (XorScan.event k) ⟨[], 0, true⟩).good

/-- TD_XOR(K) (40 R109): in a conformant run, the DATA answers are those of the test double. -/
def TdXor (p : Params) (k : Word) (tr : List Event) : Prop := conformant p tr = true → xorAnswers k tr = true

/-! ### The end of a run, and liveness (40 R110, R117) -/

/-- The move presents words at the command port. DESIGN CHOICE (log 26): it counts whatever words it holds, so words that never
make up a whole command, or none at all, are still a command to come. -/
def HostMove.presents : HostMove → Bool
  | .command _ => true
  | .store _ _ => false

/-- The last command accepted has its Done in the trace (newest event first): one that a fault or a Reset ended has none. -/
def lastCommandDone : List Event → Bool
  | [] => false
  | .done _ :: _ => true
  | .accept _ :: _ => false
  | _ :: tr => lastCommandDone tr

/-- The run has ended (40 R117): the host has no command left to present, the last command's Done has been recorded, and PHASE
is IDLE. Stores of the host's, and a Reset after that Done, do not undo it (log 19); words left that never make up a whole command
do (log 26). -/
def State.RunEnded (s : State) : Prop :=
  s.phase = .idle ∧ lastCommandDone s.trace = true ∧ s.host.any HostMove.presents = false

/-- The CCD is in a readiness gate, its last CR read just made. -/
def State.inGate (s : State) : Prop := s.phase = .active .gate

/-- COPRO_LIVE (40 R110): in the run from `s`, every readiness gate entered is followed, after finitely many CR reads, by a
CR read with BUSY = 0. -/
def CoproLive (s : State) : Prop :=
  ∀ k t, core.run k s = .next t → t.inGate →
    ∃ m u, core.run m t = .next u ∧ u.inGate ∧ u.cfg.busy u.tmp = false

end Machine

end Sys2Proof
end

