-- ==== Sys2Proof/WellFormed.lean ====
section
/-! DEFINITION. Well-formedness. A command as the host presents it is well formed when RSV is 0, OPC is one of the eleven and
exactly the operand words of its format follow (30 R80, R82, R84, R86). An `Instr` is always well formed: no operand VALUE
is illegal (30 R87). The condition on the parameters is `Params.WF` (Config.lean, 00 R9). -/

namespace Sys2Proof

/-- A command as presented: a command word and the words that follow it (30 R80). -/
structure Command where
  cw : Word
  ops : List Word
  deriving DecidableEq, Repr

/-- RSV must be 0 (30 R86). -/
abbrev Command.RsvZero (c : Command) : Prop := rsvOf c.cw = 0#24

/-- OPC is one of 0x01..0x0B (30 R84, R86). -/
abbrev Command.OpcodeDefined (c : Command) : Prop := 0x01#8 ≤ opcOf c.cw ∧ opcOf c.cw ≤ 0x0B#8

/-- The operand words are those of the opcode's format (30 R82). -/
abbrev Command.CountRight (c : Command) : Prop := c.ops.length = operandCount (opcOf c.cw)

/-- A well-formed command. -/
abbrev Command.WF (c : Command) : Prop := c.RsvZero ∧ c.OpcodeDefined ∧ c.CountRight

/-- The command an instruction is presented as. -/
def Instr.command (i : Instr) : Command := ⟨i.opcode.setWidth 32, i.operands⟩

/-- A well-formed instruction: its words are a well-formed command. Every instruction is one, whatever its operands hold
(30 R87). -/
abbrev Instr.WF (i : Instr) : Prop := i.command.WF

end Sys2Proof
end

