-- ==== Sys2Proof/Certificates/Slice0/Obligations.lean ====
section
/-! DEFINITION. The statements for the provers, from the spec's numbered rules. `exec i s` is one step of command `i` from the
position in PHASE (40 R103); `core.run k s` is k steps. A next state written as `s` with some fields replaced states the whole
frame: every register, every mirror, FAULT, CLKEN, every byte of memory and every input not named is unchanged. -/

open Sys2Proof Sys2Proof.Machine

/-! ### Encoding (30) -/

/-- Words written out from 30 R84 and R90 decode to the commands they stand for, and the illegal ones are rejected by name. -/
def Obligations.SpecWordsDecode : Prop :=
  decode [0x00000001#32] = .ok (.waitrdy, []) ∧
  decode [0x00000002#32, 0#32, 1#32, 1#32, 2#32] = .ok (.init 0#32 1#32 1#32 2#32, []) ∧
  decode [0x00000003#32, 5#32] = .ok (.setalgo 5#32, []) ∧
  decode [0x00000007#32, 0x20000000#32] = .ok (.setkey 0x20000000#32, []) ∧
  decode [0x00000008#32, 0x20000040#32, 2#32] = .ok (.setiv 0x20000040#32 2#32, []) ∧
  decode [0x00000009#32, 0x20000100#32, 0x20000200#32, 12#32] =
    .ok (.encode 0x20000100#32 0x20000200#32 12#32, []) ∧
  decode [0x0000000A#32, 0x20000200#32, 0x20000300#32, 12#32] =
    .ok (.decode 0x20000200#32 0x20000300#32 12#32, []) ∧
  decode [0x0000000B#32] = .ok (.rstcnt, []) ∧
  decode [0x0000000C#32] = .error (.reservedOpcode 0x0C#8) ∧
  decode [0x00000103#32, 0#32] = .error (.reservedBits 1#24)

/-- Decode and encode agree both ways: a word stream decodes to a command and a rest exactly when it is that command's words
followed by that rest. Every operand takes every 32-bit value, and each word stream has one meaning (30 R80 to R85). -/
def Obligations.DecodesExactlyItsEncoding : Prop :=
  ∀ (ws : List Word) (i : Instr) (rest : List Word), decode ws = .ok (i, rest) ↔ ws = encode i ++ rest

/-- A command whose words are all there is rejected exactly when OPC is 0x00 or in 0x0C..0xFF or RSV is not 0 (30 R86). -/
def Obligations.IllegalWordsAreRejected : Prop :=
  ∀ (cw : Word) (rest : List Word), operandCount (opcOf cw) ≤ rest.length →
    ((∃ e, decode (cw :: rest) = .error e) ↔ (rsvOf cw ≠ 0#24 ∨ opcOf cw = 0x00#8 ∨ 0x0C#8 ≤ opcOf cw))

/-- The number of operand words is fixed by OPC alone, whatever RSV holds, and the next word after them is the next command
word; a reserved OPC takes none (30 R82). -/
def Obligations.LengthIsFixedByOpcode : Prop :=
  (∀ (cw : Word) (ops rest : List Word), ops.length = operandCount (opcOf cw) →
    takeCommand (cw :: (ops ++ rest)) = some (cw, ops, rest)) ∧
  (∀ opc : BitVec 8, opc = 0x00#8 ∨ 0x0C#8 ≤ opc → operandCount opc = 0) ∧
  operandCount 0x01#8 = 0 ∧ operandCount 0x02#8 = 4 ∧ operandCount 0x03#8 = 1 ∧ operandCount 0x04#8 = 1 ∧
  operandCount 0x05#8 = 1 ∧ operandCount 0x06#8 = 1 ∧ operandCount 0x07#8 = 1 ∧ operandCount 0x08#8 = 2 ∧
  operandCount 0x09#8 = 3 ∧ operandCount 0x0A#8 = 3 ∧ operandCount 0x0B#8 = 0

/-- No operand value is illegal: with RSV = 0 and one of the eleven opcodes every operand word is accepted (30 R87). -/
def Obligations.EveryOperandValueIsAccepted : Prop :=
  ∀ (opc : BitVec 8) (o0 o1 o2 o3 : Word), 0x01#8 ≤ opc → opc ≤ 0x0B#8 →
    ∃ i, decodeFields opc 0#24 o0 o1 o2 o3 = .ok i ∧ i.opcode = opc ∧
      i.operands = [o0, o1, o2, o3].take (operandCount opc)

/-! ### The port, reset, the run of a step (40 R100 to R103, 70) -/

/-- A step of an active command with no Reset to come is exec of the command in the latch; with a Reset k + 1 steps away it
is the same with the Reset one step nearer, where a stop is a wait for that Reset (40 R102, R103; the wait is log 14's). -/
def Obligations.StepRunsTheLatchedCommand : Prop :=
  ∀ (s : State) (p : Pos) (i : Instr), s.phase = .active p → decodeLatch s = .ok i →
    (s.resets = [] → step s = exec i s) ∧
    (∀ k later, s.resets = (k + 1) :: later →
      step s = awaitReset { s with resets := k :: later } (exec i { s with resets := k :: later }))

/-- Accept: the host presents a command's words, with or without further words behind them, while IDLE; the latch then holds
that command and PHASE is ACTIVE(start); operand slots the format does not have keep what they held; the further words are the
next command's; no other register, no memory and no other input changes (40 R101, 10 R28, 30 R82). That the latch holds RSV as
well as OPC and OP is log 10's reading; that further words stay as the host's next move is log 6's form. -/
def Obligations.AcceptLoadsTheLatch : Prop :=
  ∀ (s : State) (i : Instr) (rest : List Word) (moves : List HostMove),
    s.resets = [] → s.phase = .idle → s.host = .command (encode i ++ rest) :: moves →
    ∃ t, step s = .next t ∧ decodeLatch t = .ok i ∧
      t.opc = i.opcode ∧ t.rsv = 0#24 ∧
      (i.operands.length < 1 → t.op0 = s.op0) ∧ (i.operands.length < 2 → t.op1 = s.op1) ∧
      (i.operands.length < 3 → t.op2 = s.op2) ∧ (i.operands.length < 4 → t.op3 = s.op3) ∧
      t.host = (if rest = [] then moves else .command rest :: moves) ∧
      t = { s with
            opc := t.opc, rsv := t.rsv, op0 := t.op0, op1 := t.op1, op2 := t.op2, op3 := t.op3,
            host := t.host, phase := .active .start, trace := .accept (encode i) :: s.trace }

/-- Accept of ANY command word, legal or not: it takes as many operand words as OPC alone says, whatever RSV holds, loads them
in order, keeps the other slots, and leaves the words after them for the next Accept (40 R101; 30 R82, R86). The register RSV
is log 10's, the form of the moves log 6's. -/
def Obligations.AcceptTakesTheWordsOfItsOpcode : Prop :=
  ∀ (s : State) (cw : Word) (ops rest : List Word) (moves : List HostMove),
    s.resets = [] → s.phase = .idle → s.host = .command (cw :: (ops ++ rest)) :: moves →
    ops.length = operandCount (opcOf cw) →
    step s = .next
      { s with
        opc := cw.extractLsb' 0 8, rsv := cw.extractLsb' 8 24,
        op0 := ops.getD 0 s.op0, op1 := ops.getD 1 s.op1, op2 := ops.getD 2 s.op2, op3 := ops.getD 3 s.op3,
        host := if rest = [] then moves else .command rest :: moves,
        phase := .active .start, trace := .accept (cw :: ops) :: s.trace }

/-- The host's other moves while IDLE: a store writes its one byte of host memory, leaves every other byte and changes nothing
else, with no event; words that lack some of their command's are not accepted yet, and the CCD waits (20 R62, R72; 30 R82).
The form of the moves is log 6's, the wait as a step log 14's. -/
def Obligations.HostStoresAndWaitsWhileIdle : Prop :=
  (∀ (s : State) (addr : Word) (b : Byte) (moves : List HostMove),
    s.resets = [] → s.phase = .idle → s.host = .store addr b :: moves →
    ∃ t, step s = .next t ∧ t = { s with mem := t.mem, host := moves } ∧
      (∀ a : Nat, a ≠ addr.toNat → Memory.read a t.mem = Memory.read a s.mem) ∧
      (Memory.wf s.mem = true → Memory.read addr.toNat t.mem = b)) ∧
  (∀ (s : State) (words : List Word) (moves : List HostMove),
    s.resets = [] → s.phase = .idle → s.host = .command words :: moves →
    (∀ cw ops, words = cw :: ops → ops.length < operandCount (opcOf cw)) → step s = .next s)

/-- A command word with a reserved OPC or RSV not 0 completes with ILLEGAL at its first step, with no other event, whatever
CLKEN is, and changes no register but RES (60 R203). -/
def Obligations.IllegalCompletesAtOnce : Prop :=
  ∀ s : State, s.resets = [] → s.phase = .active .start →
    (s.rsv ≠ 0#24 ∨ s.opc = 0x00#8 ∨ 0x0C#8 ≤ s.opc) →
    step s = .next { s with res := 3#32, phase := .idle, trace := .done .illegal :: s.trace }

/-- While PHASE is not IDLE no command is presented, queued or cancelled (40 R101). The Lean says more: none of the host's moves
is taken, its stores included, which is log 6's choice. -/
def Obligations.NoHostMoveUnlessIdle : Prop :=
  ∀ s t : State, step s = .next t → s.phase ≠ .idle →
    t.host = s.host ∧ ∀ ws, t.trace ≠ .accept ws :: s.trace

/-- Reset wins over any step and from any state gives IDLE, CLKEN 0, RES 0, FAULT none, CR at CR_RESET; host memory is not
changed, and the event is recorded (70 R230, 60 R213). What the unwritten registers then hold is not said. That the parameters
and the inputs (the host's moves, the draws, the later Resets, the coming hook calls but one that INIT is held in) are kept is
the model's choice: log 1, 4, 6, 7 and 8. -/
def Obligations.ResetWinsAndClears : Prop :=
  ∀ (s : State) (later : List Nat), s.resets = 0 :: later →
    ∃ t, step s = .next t ∧ t.phase = .idle ∧ t.clken = false ∧ t.res = 0#32 ∧ t.fault = none ∧
      t.crLast = s.cfg.crReset ∧ t.mem = s.mem ∧ t.cfg = s.cfg ∧ t.host = s.host ∧ t.answers = s.answers ∧
      t.draws = s.draws ∧ t.resets = later ∧
      t.hookHolds = (if hookStuck s then s.hookHolds.tail else s.hookHolds) ∧ t.trace = .reset :: s.trace

/-- The state after reset, as far as the spec gives it: idle with READY = 1, CLKEN 0, RES 0, FAULT none, CR at CR_RESET
(70 R230, R232). -/
def Obligations.ResetStateIsIdle : Prop :=
  State.reset.ready = true ∧ State.reset.clken = false ∧ State.reset.res = 0#32 ∧ State.reset.fault = none ∧
    State.reset.crLast = State.reset.cfg.crReset ∧ State.reset.cfg.WF

/-- A faulted machine stays faulted: with no Reset to come it has no step, and with one to come only the Reset changes it
(60 R205; the model's two answers are log 14's). -/
def Obligations.FaultedUntilReset : Prop :=
  ∀ s : State, s.phase = .faulted →
    (s.resets = [] → step s = .fault .halted) ∧
    (∀ k later, s.resets = (k + 1) :: later → step s = .next { s with resets := k :: later })

/-- An idle CCD to which the host presents nothing waits (70 R232; that a wait is a step that changes nothing is log 14's). -/
def Obligations.IdleWaitsForACommand : Prop :=
  ∀ s : State, s.resets = [] → s.phase = .idle → s.host = [] → step s = .next s

/-! ### Dispatch faults and the checks before any event (60) -/

/-- Every command but INIT raises NotInitialised at its start while CLKEN = 0: FAULT and PHASE are written and nothing else
(60 R205, R206; 40 R102). -/
def Obligations.NotInitialisedFault : Prop :=
  ∀ (i : Instr) (s : State), i.isInit = false → s.phase = .active .start → s.clken = false →
    exec i s = .next { s with fault := some .notInitialised, phase := .faulted }

/-- What ENCODE and DECODE decide before their first event, in the priority of 60 R204: UNSUPPORTED_ALGO, ALIGN, then the
source buffer and the destination buffer, Misaligned before AddressWrap; else, and always for length 0, the direction's CR
read (44 R170, R171, R177, R179; 40 R113). That SZ and N hold their new values on each of these paths is log 12's. -/
def Obligations.StreamChecksInOrder : Prop :=
  ∀ (d : Bool) (src dst len bw : Word) (s : State),
    s.phase = .active .start → s.clken = true → bw = s.cfg.blockWords s.algoM →
    (bw = 0#32 → exec (streamOf d src dst len) s = .next
      { s with sz := bw, n := len, res := 2#32, phase := .idle, trace := .done .unsupportedAlgo :: s.trace }) ∧
    (bw ≠ 0#32 → len.toNat % bw.toNat ≠ 0 → exec (streamOf d src dst len) s = .next
      { s with sz := bw, n := len, res := 1#32, phase := .idle, trace := .done .align :: s.trace }) ∧
    (bw ≠ 0#32 → len.toNat % bw.toNat = 0 → len ≠ 0#32 → src.toNat % 4 ≠ 0 → exec (streamOf d src dst len) s = .next
      { s with sz := bw, n := len, fault := some .misaligned, phase := .faulted }) ∧
    (bw ≠ 0#32 → len.toNat % bw.toNat = 0 → src.toNat % 4 = 0 → src.toNat + 4 * len.toNat > 2 ^ 32 → len ≠ 0#32 →
      exec (streamOf d src dst len) s = .next
        { s with sz := bw, n := len, fault := some .addressWrap, phase := .faulted }) ∧
    (bw ≠ 0#32 → len.toNat % bw.toNat = 0 → len ≠ 0#32 → src.toNat % 4 = 0 → src.toNat + 4 * len.toNat ≤ 2 ^ 32 →
      dst.toNat % 4 ≠ 0 → exec (streamOf d src dst len) s = .next
        { s with sz := bw, n := len, fault := some .misaligned, phase := .faulted }) ∧
    (bw ≠ 0#32 → len.toNat % bw.toNat = 0 → len ≠ 0#32 → src.toNat % 4 = 0 → src.toNat + 4 * len.toNat ≤ 2 ^ 32 →
      dst.toNat % 4 = 0 → dst.toNat + 4 * len.toNat > 2 ^ 32 → exec (streamOf d src dst len) s = .next
        { s with sz := bw, n := len, fault := some .addressWrap, phase := .faulted }) ∧
    (bw ≠ 0#32 → len.toNat % bw.toNat = 0 →
      (len = 0#32 ∨ (src.toNat % 4 = 0 ∧ src.toNat + 4 * len.toNat ≤ 2 ^ 32 ∧
        dst.toNat % 4 = 0 ∧ dst.toNat + 4 * len.toNat ≤ 2 ^ 32)) →
      exec (streamOf d src dst len) s = .next
        { s with
          sz := bw, n := len, tmp := s.crAnswer, answers := s.answers.tail, draws := s.draws + 1,
          trace := .busRd .cr s.crAnswer :: s.trace, phase := .active .rmwWrite })

/-! ### Each command at each of its positions: results and frames (41, 42, 43, 44) -/

/-- WAITRDY reads CR, and again while BUSY reads 1, and completes with OK when BUSY reads 0 (41 R120, R122). -/
def Obligations.WaitrdyPollsThenCompletes : Prop :=
  ∀ s : State,
    (s.phase = .active .start → s.clken = true → exec .waitrdy s = .next
      { s with
        tmp := s.crAnswer, answers := s.answers.tail, draws := s.draws + 1,
        trace := .busRd .cr s.crAnswer :: s.trace, phase := .active .gate }) ∧
    (s.phase = .active .gate → s.tmp.getLsbD s.cfg.busyBit = true → exec .waitrdy s = .next
      { s with
        tmp := s.crAnswer, answers := s.answers.tail, draws := s.draws + 1,
        trace := .busRd .cr s.crAnswer :: s.trace, phase := .active .gate }) ∧
    (s.phase = .active .gate → s.tmp.getLsbD s.cfg.busyBit = false → exec .waitrdy s = .next
      { s with res := 0#32, phase := .idle, trace := .done .ok :: s.trace })

/-- SETALGO, SETMODE, SETSWAP and SETORDER: a CR read; then, in one step, the mirror takes the whole operand and CR is
written with `(TMP & ~F_MASK) | ((v << F_SHIFT) & F_MASK)`; then OK (42 R133, R134, R135 to R138). -/
def Obligations.SettersWriteFieldAndMirror : Prop :=
  ∀ (f : Field) (v : Word) (s : State),
    (s.phase = .active .start → s.clken = true → exec (setterOf f v) s = .next
      { s with
        tmp := s.crAnswer, answers := s.answers.tail, draws := s.draws + 1,
        trace := .busRd .cr s.crAnswer :: s.trace, phase := .active (.fieldWrite f) }) ∧
    (∀ w : Word, w = (s.tmp &&& ~~~(s.cfg.fieldMask f)) ||| ((v <<< (s.cfg.field f).shift) &&& s.cfg.fieldMask f) →
      s.phase = .active (.fieldWrite f) → exec (setterOf f v) s = .next
      { s with
        algoM := if f = .algo then v else s.algoM
        modeM := if f = .mode then v else s.modeM
        swapM := if f = .swap then v else s.swapM
        orderM := if f = .order then v else s.orderM
        crLast := w, trace := .busWr .cr w :: s.trace, phase := .active .finish }) ∧
    (s.phase = .active .finish → exec (setterOf f v) s = .next
      { s with res := 0#32, phase := .idle, trace := .done .ok :: s.trace })

/-- INIT: the hook, whatever CLKEN is and once the platform returns from this call (one entry of the coming calls each, log 8);
then CLKEN with the first CR read; then the four field writes in the order ALGO, MODE,
SWAP, ORDER, each a CR read and a CR write with its mirror; then OK (42 R130 to R133). -/
def Obligations.InitEnablesAndPushesAllFour : Prop :=
  ∀ (a m w o : Word) (s : State),
    (s.phase = .active .start → s.hookHeld = false → exec (.init a m w o) s = .next
      { s with hookHolds := s.hookHolds.tail, trace := .hook :: s.trace, phase := .active .clockOn }) ∧
    (s.phase = .active .clockOn → exec (.init a m w o) s = .next
      { s with
        clken := true, tmp := s.crAnswer, answers := s.answers.tail, draws := s.draws + 1,
        trace := .busRd .cr s.crAnswer :: s.trace, phase := .active (.fieldWrite .algo) }) ∧
    (∀ f : Field, f ≠ .algo → s.phase = .active (.fieldRead f) → exec (.init a m w o) s = .next
      { s with
        tmp := s.crAnswer, answers := s.answers.tail, draws := s.draws + 1,
        trace := .busRd .cr s.crAnswer :: s.trace, phase := .active (.fieldWrite f) }) ∧
    (∀ c : Word, c = (s.tmp &&& ~~~(s.cfg.fieldMask .algo)) ||| ((a <<< s.cfg.algo.shift) &&& s.cfg.fieldMask .algo) →
      s.phase = .active (.fieldWrite .algo) → exec (.init a m w o) s = .next
      { s with algoM := a, crLast := c, trace := .busWr .cr c :: s.trace, phase := .active (.fieldRead .mode) }) ∧
    (∀ c : Word, c = (s.tmp &&& ~~~(s.cfg.fieldMask .mode)) ||| ((m <<< s.cfg.mode.shift) &&& s.cfg.fieldMask .mode) →
      s.phase = .active (.fieldWrite .mode) → exec (.init a m w o) s = .next
      { s with modeM := m, crLast := c, trace := .busWr .cr c :: s.trace, phase := .active (.fieldRead .swap) }) ∧
    (∀ c : Word, c = (s.tmp &&& ~~~(s.cfg.fieldMask .swap)) ||| ((w <<< s.cfg.swap.shift) &&& s.cfg.fieldMask .swap) →
      s.phase = .active (.fieldWrite .swap) → exec (.init a m w o) s = .next
      { s with swapM := w, crLast := c, trace := .busWr .cr c :: s.trace, phase := .active (.fieldRead .order) }) ∧
    (∀ c : Word, c = (s.tmp &&& ~~~(s.cfg.fieldMask .order)) ||| ((o <<< s.cfg.order.shift) &&& s.cfg.fieldMask .order) →
      s.phase = .active (.fieldWrite .order) → exec (.init a m w o) s = .next
      { s with orderM := o, crLast := c, trace := .busWr .cr c :: s.trace, phase := .active .finish }) ∧
    (s.phase = .active .finish → exec (.init a m w o) s = .next
      { s with res := 0#32, phase := .idle, trace := .done .ok :: s.trace })

/-- RSTCNT: a CR read, a CR write of what was read with CNTRST set, OK (42 R140). -/
def Obligations.RstcntSetsTheCounterResetBit : Prop :=
  ∀ s : State,
    (s.phase = .active .start → s.clken = true → exec .rstcnt s = .next
      { s with
        tmp := s.crAnswer, answers := s.answers.tail, draws := s.draws + 1,
        trace := .busRd .cr s.crAnswer :: s.trace, phase := .active .rmwWrite }) ∧
    (∀ w : Word, w = s.tmp ||| (1#32 <<< s.cfg.cntrstBit) →
      s.phase = .active .rmwWrite → exec .rstcnt s = .next
      { s with crLast := w, trace := .busWr .cr w :: s.trace, phase := .active .finish }) ∧
    (s.phase = .active .finish → exec .rstcnt s = .next
      { s with res := 0#32, phase := .idle, trace := .done .ok :: s.trace })

/-- SETKEY at each of its positions: SZ and the buffer check before any event; the direction read and write (DECODE 0, the
rest as read); each key word read from memory and then written to KEY, in order; the gate; UNSUPPORTED_ALGO for SZ = 0, else
OK (43 R150 to R154). `a + 4j` is where key word j is read. That SZ is written before a fault is raised, and where J is left, are
log 12's. -/
def Obligations.SetkeyAtEachPosition : Prop :=
  ∀ (a : Word) (s : State),
    (∀ sz : Word, sz = s.cfg.keyWords s.algoM → s.phase = .active .start → s.clken = true →
      (sz ≠ 0#32 → a.toNat % 4 ≠ 0 → exec (.setkey a) s = .next
        { s with sz := sz, fault := some .misaligned, phase := .faulted }) ∧
      (sz ≠ 0#32 → a.toNat % 4 = 0 → a.toNat + 4 * sz.toNat > 2 ^ 32 → exec (.setkey a) s = .next
        { s with sz := sz, fault := some .addressWrap, phase := .faulted }) ∧
      (sz = 0#32 ∨ (a.toNat % 4 = 0 ∧ a.toNat + 4 * sz.toNat ≤ 2 ^ 32) → exec (.setkey a) s = .next
        { s with
          sz := sz, tmp := s.crAnswer, answers := s.answers.tail, draws := s.draws + 1,
          trace := .busRd .cr s.crAnswer :: s.trace, phase := .active .rmwWrite })) ∧
    (∀ w : Word, w = s.tmp &&& ~~~(1#32 <<< s.cfg.decodeBit) →
      s.phase = .active .rmwWrite → exec (.setkey a) s = .next
      { s with crLast := w, trace := .busWr .cr w :: s.trace, phase := .active .directionSet }) ∧
    (∀ j : Word, (s.phase = .active .directionSet ∧ j = 0#32 ∨ s.phase = .active .keyWritten ∧ j = s.j + 1#32) →
      (j < s.sz → s.cfg.admits .load a s.sz j = true → exec (.setkey a) s = .next
        { s with
          j := j, v := s.readMem (a + 4#32 * j),
          trace := .memRd (a + 4#32 * j) (s.readMem (a + 4#32 * j)) :: s.trace, phase := .active .keyWrite }) ∧
      (¬ j < s.sz → exec (.setkey a) s = .next
        { s with
          j := j, tmp := s.crAnswer, answers := s.answers.tail, draws := s.draws + 1,
          trace := .busRd .cr s.crAnswer :: s.trace, phase := .active .gate })) ∧
    (s.phase = .active .keyWrite → exec (.setkey a) s = .next
      { s with trace := .busWr .key s.v :: s.trace, phase := .active .keyWritten }) ∧
    (s.phase = .active .gate →
      (s.tmp.getLsbD s.cfg.busyBit = true → exec (.setkey a) s = .next
        { s with
          tmp := s.crAnswer, answers := s.answers.tail, draws := s.draws + 1,
          trace := .busRd .cr s.crAnswer :: s.trace, phase := .active .gate }) ∧
      (s.tmp.getLsbD s.cfg.busyBit = false → s.sz = 0#32 → exec (.setkey a) s = .next
        { s with res := 2#32, phase := .idle, trace := .done .unsupportedAlgo :: s.trace }) ∧
      (s.tmp.getLsbD s.cfg.busyBit = false → s.sz ≠ 0#32 → exec (.setkey a) s = .next
        { s with res := 0#32, phase := .idle, trace := .done .ok :: s.trace }))

/-- SETIV at each of its positions: N and the buffer check before any event; each IV word read from memory and then written
to IV, in order; with MODE_M = CODE_CTR as many zero words; OK. No CR access (43 R155 to R159). A length of 0 completes at
once. That N is written before a fault is raised, and where J is left, are log 12's. -/
def Obligations.SetivAtEachPosition : Prop :=
  ∀ (a n : Word) (s : State),
    (s.phase = .active .start → s.clken = true →
      (n ≠ 0#32 → a.toNat % 4 ≠ 0 → exec (.setiv a n) s = .next
        { s with n := n, fault := some .misaligned, phase := .faulted }) ∧
      (n ≠ 0#32 → a.toNat % 4 = 0 → a.toNat + 4 * n.toNat > 2 ^ 32 → exec (.setiv a n) s = .next
        { s with n := n, fault := some .addressWrap, phase := .faulted }) ∧
      (n ≠ 0#32 → a.toNat % 4 = 0 → a.toNat + 4 * n.toNat ≤ 2 ^ 32 → s.cfg.admits .load a n 0#32 = true →
        exec (.setiv a n) s = .next
        { s with
          n := n, j := 0#32, v := s.readMem a, trace := .memRd a (s.readMem a) :: s.trace, phase := .active .ivWrite }) ∧
      (n = 0#32 → exec (.setiv a n) s = .next
        { s with n := n, j := 0#32, res := 0#32, phase := .idle, trace := .done .ok :: s.trace })) ∧
    (s.phase = .active .ivWrite → exec (.setiv a n) s = .next
      { s with trace := .busWr .iv s.v :: s.trace, phase := .active .ivWritten }) ∧
    (∀ j : Word, j = s.j + 1#32 → s.phase = .active .ivWritten →
      (j < s.n → s.cfg.admits .load a s.n j = true → exec (.setiv a n) s = .next
        { s with
          j := j, v := s.readMem (a + 4#32 * j),
          trace := .memRd (a + 4#32 * j) (s.readMem (a + 4#32 * j)) :: s.trace, phase := .active .ivWrite }) ∧
      (¬ j < s.n → s.modeM = s.cfg.codeCtr → 0#32 < s.n → exec (.setiv a n) s = .next
        { s with j := 0#32, trace := .busWr .iv 0#32 :: s.trace, phase := .active .zeroWritten }) ∧
      (¬ j < s.n → s.modeM ≠ s.cfg.codeCtr → exec (.setiv a n) s = .next
        { s with j := j, res := 0#32, phase := .idle, trace := .done .ok :: s.trace })) ∧
    (∀ j : Word, j = s.j + 1#32 → s.phase = .active .zeroWritten →
      (j < s.n → exec (.setiv a n) s = .next
        { s with j := j, trace := .busWr .iv 0#32 :: s.trace, phase := .active .zeroWritten }) ∧
      (¬ j < s.n → exec (.setiv a n) s = .next
        { s with j := j, res := 0#32, phase := .idle, trace := .done .ok :: s.trace }))

/-- ENCODE and DECODE past their checks: the direction write (DECODE 0 for ENCODE, 1 for DECODE, the rest as read); a chunk
begins (OFF < N) with END = min(OFF + SZ, N) and its first source word, or the command completes; each word read from memory
is written to DATA; the chunk's last write is followed by the gate's first CR read (44 R170, R172, R173; where J is left: log
12). -/
def Obligations.StreamWritesItsChunks : Prop :=
  ∀ (d : Bool) (src dst len : Word) (s : State),
    (∀ w : Word,
      w = (if d then s.tmp ||| (1#32 <<< s.cfg.decodeBit) else s.tmp &&& ~~~(1#32 <<< s.cfg.decodeBit)) →
      s.phase = .active .rmwWrite → exec (streamOf d src dst len) s = .next
      { s with crLast := w, trace := .busWr .cr w :: s.trace, phase := .active .directionSet }) ∧
    (s.phase = .active .directionSet →
      (s.n = 0#32 → exec (streamOf d src dst len) s = .next
        { s with off := 0#32, res := 0#32, phase := .idle, trace := .done .ok :: s.trace }) ∧
      (∀ e : Word, 0#32 < s.n → e.toNat = min s.sz.toNat s.n.toNat → 0#32 < e →
        s.cfg.admits .load src s.n 0#32 = true → exec (streamOf d src dst len) s = .next
        { s with
          off := 0#32, endJ := e, j := 0#32, v := s.readMem src,
          trace := .memRd src (s.readMem src) :: s.trace, phase := .active .chunkWrite })) ∧
    (s.phase = .active .chunkWrite → exec (streamOf d src dst len) s = .next
      { s with trace := .busWr .data s.v :: s.trace, phase := .active .chunkWritten }) ∧
    (∀ j : Word, j = s.j + 1#32 → s.phase = .active .chunkWritten →
      (j < s.endJ → s.cfg.admits .load src s.n j = true → exec (streamOf d src dst len) s = .next
        { s with
          j := j, v := s.readMem (src + 4#32 * j),
          trace := .memRd (src + 4#32 * j) (s.readMem (src + 4#32 * j)) :: s.trace, phase := .active .chunkWrite }) ∧
      (¬ j < s.endJ → exec (streamOf d src dst len) s = .next
        { s with
          j := j, tmp := s.crAnswer, answers := s.answers.tail, draws := s.draws + 1,
          trace := .busRd .cr s.crAnswer :: s.trace, phase := .active .gate }))

/-- ENCODE and DECODE after a chunk's writes: CR is read while BUSY; then DATA words are read and stored one by one, word J at
`dst + 4J`, and only those four bytes of memory change; after the chunk's last store OFF advances by SZ and the next chunk
begins, or the command completes with OK (44 R170, R172; 41 R120; where J is left: log 12). -/
def Obligations.StreamReadsItsChunksBack : Prop :=
  ∀ (d : Bool) (src dst len : Word) (s : State),
    (s.phase = .active .gate →
      (s.tmp.getLsbD s.cfg.busyBit = true → exec (streamOf d src dst len) s = .next
        { s with
          tmp := s.crAnswer, answers := s.answers.tail, draws := s.draws + 1,
          trace := .busRd .cr s.crAnswer :: s.trace, phase := .active .gate }) ∧
      (s.tmp.getLsbD s.cfg.busyBit = false → s.off < s.endJ → exec (streamOf d src dst len) s = .next
        { s with
          j := s.off, v := s.dataAnswer, answers := s.answers.tail, draws := s.draws + 1,
          trace := .busRd .data s.dataAnswer :: s.trace, phase := .active .chunkStore })) ∧
    (s.phase = .active .chunkStore → s.cfg.admits .store dst s.n s.j = true →
      ∃ t, exec (streamOf d src dst len) s = .next t ∧
        t = { s with
              mem := t.mem, trace := .memWr (dst + 4#32 * s.j) s.v :: s.trace, phase := .active .chunkStored } ∧
        (∀ a : Nat, (∀ i < 4, a ≠ (dst + 4#32 * s.j + BitVec.ofNat 32 i).toNat) →
          Memory.read a t.mem = Memory.read a s.mem) ∧
        (Memory.wf s.mem = true → t.readMem (dst + 4#32 * s.j) = s.v)) ∧
    (s.phase = .active .chunkStored → ∀ j : Word, j = s.j + 1#32 →
      (j < s.endJ → exec (streamOf d src dst len) s = .next
        { s with
          j := j, v := s.dataAnswer, answers := s.answers.tail, draws := s.draws + 1,
          trace := .busRd .data s.dataAnswer :: s.trace, phase := .active .chunkStore }) ∧
      (¬ j < s.endJ → ¬ s.off + s.sz < s.n → exec (streamOf d src dst len) s = .next
        { s with
          j := j, off := s.off + s.sz, res := 0#32, phase := .idle, trace := .done .ok :: s.trace }) ∧
      (∀ o e : Word, ¬ j < s.endJ → o.toNat = s.off.toNat + s.sz.toNat → o < s.n →
        e.toNat = min (o.toNat + s.sz.toNat) s.n.toNat → o.toNat + s.sz.toNat < 2 ^ 32 → o < e →
        s.cfg.admits .load src s.n o = true → exec (streamOf d src dst len) s = .next
        { s with
          off := o, endJ := e, j := o, v := s.readMem (src + 4#32 * o),
          trace := .memRd (src + 4#32 * o) (s.readMem (src + 4#32 * o)) :: s.trace, phase := .active .chunkWrite }))

/-! ### Whole commands -/

/-- A whole setter, from its start, in three steps: the trace is one CR read and one CR write and Done(OK); the mirror holds
the whole operand, CR the read value with only the field replaced; the rest of the machine is as before (42 R133 to R138). -/
def Obligations.SetterRunsToItsEnd : Prop :=
  ∀ (f : Field) (v : Word) (s : State), s.resets = [] → s.phase = .active .start → s.clken = true →
    decodeLatch s = .ok (setterOf f v) →
    ∃ t, core.run 3 s = .next t ∧ t.mirror f = v ∧ (∀ g, g ≠ f → t.mirror g = s.mirror g) ∧
      t.crLast = (s.crAnswer &&& ~~~(s.cfg.fieldMask f)) ||| ((v <<< (s.cfg.field f).shift) &&& s.cfg.fieldMask f) ∧
      t = { s with
            algoM := t.algoM, modeM := t.modeM, swapM := t.swapM, orderM := t.orderM, crLast := t.crLast,
            tmp := s.crAnswer, answers := s.answers.tail, draws := s.draws + 1, res := 0#32, phase := .idle,
            trace := [.done .ok, .busWr .cr t.crLast, .busRd .cr s.crAnswer] ++ s.trace }

/-- A whole INIT, from its start, in ten steps: CLKEN is 1, each mirror holds its operand, CR was written four times and now
holds all four operands' low bits in their fields, DECODE is as it was, and the result is OK (42 R130, R132). -/
def Obligations.InitRunsToItsEnd : Prop :=
  ∀ (a m w o : Word) (s : State), s.cfg.WF → s.resets = [] → s.phase = .active .start → s.hookHeld = false →
    decodeLatch s = .ok (.init a m w o) →
    ∃ t, core.run 10 s = .next t ∧ t.phase = .idle ∧ t.res = 0#32 ∧ t.clken = true ∧
      t.algoM = a ∧ t.modeM = m ∧ t.swapM = w ∧ t.orderM = o ∧ (∀ f, t.MirrorAgrees f) ∧
      t.crLast &&& s.cfg.decodeMask = s.crLast &&& s.cfg.decodeMask ∧
      t.mem = s.mem ∧ t.fault = s.fault ∧
      ∃ r1 r2 r3 r4 w1 w2 w3 w4, t.trace =
        [.done .ok, .busWr .cr w4, .busRd .cr r4, .busWr .cr w3, .busRd .cr r3, .busWr .cr w2, .busRd .cr r2,
         .busWr .cr w1, .busRd .cr r1, .hook] ++ s.trace ∧
        w1 &&& ~~~(s.cfg.fieldMask .algo) = r1 &&& ~~~(s.cfg.fieldMask .algo) ∧
        w2 &&& ~~~(s.cfg.fieldMask .mode) = r2 &&& ~~~(s.cfg.fieldMask .mode) ∧
        w3 &&& ~~~(s.cfg.fieldMask .swap) = r3 &&& ~~~(s.cfg.fieldMask .swap) ∧
        w4 &&& ~~~(s.cfg.fieldMask .order) = r4 &&& ~~~(s.cfg.fieldMask .order)

/-- The gate has no timeout: while the coprocessor's answers say BUSY, WAITRDY is in its gate after any number k of steps,
has made k CR reads and no other event, and has changed no register but TMP and no memory (41 R120, R121; 60 R209). -/
def Obligations.GateHangsWhileBusy : Prop :=
  ∀ (k : Nat) (s : State), s.cfg.WF → s.resets = [] → s.phase = .active .gate → decodeLatch s = .ok .waitrdy →
    s.tmp.getLsbD s.cfg.busyBit = true → k ≤ s.answers.length →
    (∀ w ∈ s.answers.take k, w.getLsbD s.cfg.busyBit = true) →
    ∃ t reads, core.run k s = .next t ∧ t.tmp.getLsbD s.cfg.busyBit = true ∧
      t.trace = reads ++ s.trace ∧ reads.length = k ∧ (∀ e ∈ reads, ∃ x, e = .busRd .cr x) ∧
      t = { s with
            tmp := t.tmp, phase := .active .gate, answers := s.answers.drop k, draws := s.draws + k, trace := t.trace }

/-- The gate ends at the first answer with BUSY = 0: WAITRDY whose coming answers are BUSY k times and then ready makes
exactly k + 1 CR reads, then Done(OK), and changes no register but TMP, RES and PHASE (41 R120, R123). -/
def Obligations.GateEndsAtFirstReadyAnswer : Prop :=
  ∀ (ws : List Word) (w : Word) (rest : List Word) (s : State), s.cfg.WF → s.resets = [] → s.phase = .active .start →
    s.clken = true → decodeLatch s = .ok .waitrdy → s.answers = ws ++ w :: rest →
    (∀ x ∈ ws, x.getLsbD s.cfg.busyBit = true) → w.getLsbD s.cfg.busyBit = false →
    ∃ t reads, core.run (ws.length + 2) s = .next t ∧ t.trace = .done .ok :: (reads ++ s.trace) ∧
      reads.length = ws.length + 1 ∧ (∀ e ∈ reads, ∃ x, e = .busRd .cr x) ∧
      t = { s with
            tmp := t.tmp, res := 0#32, phase := .idle, answers := rest, draws := s.draws + ws.length + 1,
            trace := t.trace }

/-- A whole SETIV: each of the buffer's N words is read and written to IV, in order; in counter mode N zero words follow with
no other event between (exactly 2N words to IV, the upper N zero), in any other mode none; then Done(OK); nothing else is
written: CR, memory and the rest are as before (43 R155, R156). -/
def Obligations.SetivGivesTheIvAndZeroFill : Prop :=
  ∀ (a n : Word) (s : State), s.resets = [] → s.phase = .active .start → s.clken = true →
    decodeLatch s = .ok (.setiv a n) →
    (n ≠ 0#32 → a.toNat % 4 = 0 ∧ a.toNat + 4 * n.toNat ≤ 2 ^ 32) →
    (∀ i : Nat, i < n.toNat → s.cfg.admits .load a n (BitVec.ofNat 32 i) = true) →
    ∃ t, core.run (if s.modeM = s.cfg.codeCtr then 3 * n.toNat + 1 else 2 * n.toNat + 1) s = .next t ∧
      given .iv t.trace = given .iv s.trace ++ s.buffer a n.toNat ++
        (if s.modeM = s.cfg.codeCtr then List.replicate n.toNat 0#32 else []) ∧
      t.trace = .done .ok :: ((if s.modeM = s.cfg.codeCtr then List.replicate n.toNat (.busWr .iv 0#32) else []) ++
        (s.copyEvents .iv a n.toNat).reverse ++ s.trace) ∧
      t = { s with n := n, j := t.j, v := t.v, res := 0#32, phase := .idle, trace := t.trace }

/-- A whole SETKEY whose gate's first CR read says ready: KEY is given exactly KEY_WORDS(ALGO_M) words, the buffer's, in
order, after one CR write that clears DECODE and keeps the other bits as read; then OK, or UNSUPPORTED_ALGO for an
unrecognised algorithm, which still has the direction write and the gate; memory is as before (43 R150 to R154). -/
def Obligations.SetkeyGivesTheWholeKey : Prop :=
  ∀ (a k w0 w1 : Word) (rest : List Word) (s : State), s.cfg.WF → s.resets = [] → s.phase = .active .start →
    s.clken = true → decodeLatch s = .ok (.setkey a) → k = s.cfg.keyWords s.algoM →
    (k ≠ 0#32 → a.toNat % 4 = 0 ∧ a.toNat + 4 * k.toNat ≤ 2 ^ 32) →
    (∀ i : Nat, i < k.toNat → s.cfg.admits .load a k (BitVec.ofNat 32 i) = true) →
    s.answers = w0 :: w1 :: rest → w1.getLsbD s.cfg.busyBit = false →
    ∃ t, core.run (2 * k.toNat + 4) s = .next t ∧
      given .key t.trace = given .key s.trace ++ s.buffer a k.toNat ∧
      t.trace = .done (if k = 0#32 then .unsupportedAlgo else .ok) :: .busRd .cr t.tmp ::
        ((s.copyEvents .key a k.toNat).reverse ++ [.busWr .cr t.crLast, .busRd .cr s.crAnswer] ++ s.trace) ∧
      t.crLast = s.crAnswer &&& ~~~(1#32 <<< s.cfg.decodeBit) ∧ t.crLast.getLsbD s.cfg.decodeBit = false ∧
      t.res = (if k = 0#32 then 2#32 else 0#32) ∧
      t = { s with
            sz := k, j := t.j, v := t.v, tmp := t.tmp, crLast := t.crLast, res := t.res, phase := .idle,
            answers := rest, draws := s.draws + 2, trace := t.trace }

/-- Zero length with SZ at least 1 passes the precondition: no buffer is checked, the direction read-modify-write makes two
events, no chunk runs, and the command completes with OK (44 R177). -/
def Obligations.ZeroLengthSetsTheDirectionOnly : Prop :=
  ∀ (d : Bool) (src dst : Word) (s : State), s.cfg.WF → s.resets = [] → s.phase = .active .start → s.clken = true →
    decodeLatch s = .ok (streamOf d src dst 0#32) → s.cfg.blockWords s.algoM ≠ 0#32 →
    ∃ t w, core.run 3 s = .next t ∧
      t.trace = [.done .ok, .busWr .cr w, .busRd .cr s.crAnswer] ++ s.trace ∧
      w = (if d then s.crAnswer ||| (1#32 <<< s.cfg.decodeBit) else s.crAnswer &&& ~~~(1#32 <<< s.cfg.decodeBit)) ∧
      t.phase = .idle ∧ t.res = 0#32 ∧ t.crLast = w ∧ t.mem = s.mem

/-- A whole ENCODE or DECODE of ONE block whose gate's first CR read says ready, in place or not: after the direction write the
block's words go from memory to DATA in order, one CR read follows, then the coprocessor's k output words go to the
destination in order; memory holds them there and is as before everywhere else; DECODE is d, every other bit as read
(44 R170, R172, R174; 20 R69, R79). -/
def Obligations.StreamCarriesOneBlock : Prop :=
  ∀ (d : Bool) (src dst k w0 w1 : Word) (outs rest : List Word) (s : State), s.cfg.WF → Memory.wf s.mem = true →
    s.resets = [] → s.phase = .active .start → s.clken = true → decodeLatch s = .ok (streamOf d src dst k) →
    k = s.cfg.blockWords s.algoM → k ≠ 0#32 →
    src.toNat % 4 = 0 → src.toNat + 4 * k.toNat ≤ 2 ^ 32 → dst.toNat % 4 = 0 → dst.toNat + 4 * k.toNat ≤ 2 ^ 32 →
    (∀ i : Nat, i < k.toNat → s.cfg.admits .load src k (BitVec.ofNat 32 i) = true ∧
      s.cfg.admits .store dst k (BitVec.ofNat 32 i) = true) →
    s.answers = w0 :: w1 :: outs ++ rest → outs.length = k.toNat → w1.getLsbD s.cfg.busyBit = false →
    ∃ t, core.run (4 * k.toNat + 4) s = .next t ∧
      t.trace = .done .ok :: ((drainEvents dst outs).reverse ++ .busRd .cr t.tmp ::
        ((s.copyEvents .data src k.toNat).reverse ++ [.busWr .cr t.crLast, .busRd .cr s.crAnswer] ++ s.trace)) ∧
      t.buffer dst k.toNat = outs ∧
      (∀ a : Nat, a < dst.toNat ∨ dst.toNat + 4 * k.toNat ≤ a → Memory.read a t.mem = Memory.read a s.mem) ∧
      t.crLast.getLsbD s.cfg.decodeBit = d ∧
      (∀ b, b ≠ s.cfg.decodeBit → t.crLast.getLsbD b = s.crAnswer.getLsbD b) ∧
      t = { s with
            sz := k, n := k, off := t.off, j := t.j, endJ := t.endJ, v := t.v, tmp := t.tmp, crLast := t.crLast,
            mem := t.mem, res := 0#32, phase := .idle, answers := rest, draws := s.draws + k.toNat + 2, trace := t.trace }

/-- A whole ENCODE or DECODE of m blocks, block c's gate finding the coprocessor busy at its first k_c - 1 reads and ready at the
k_c-th, whatever the DATA words are: it completes with OK after 2 + (the sum over the blocks of 4*SZ + k_c) events: m*SZ DATA
writes, DATA reads, memory reads and memory writes each, one CR write, and 1 + (the sum of the k_c) CR reads; DECODE holds the
direction (44 R172, R174, R181). -/
def Obligations.StreamEventCount : Prop :=
  ∀ (d : Bool) (src dst len w0 : Word) (blocks : List GateBlock) (rest : List Word) (s : State), s.cfg.WF →
    s.resets = [] → s.phase = .active .start → s.clken = true → decodeLatch s = .ok (streamOf d src dst len) →
    s.cfg.blockWords s.algoM ≠ 0#32 → len.toNat = blocks.length * (s.cfg.blockWords s.algoM).toNat →
    (len ≠ 0#32 → src.toNat % 4 = 0 ∧ src.toNat + 4 * len.toNat ≤ 2 ^ 32 ∧
      dst.toNat % 4 = 0 ∧ dst.toNat + 4 * len.toNat ≤ 2 ^ 32) →
    (∀ i : Nat, i < len.toNat → s.cfg.admits .load src len (BitVec.ofNat 32 i) = true ∧
      s.cfg.admits .store dst len (BitVec.ofNat 32 i) = true) →
    s.answers = w0 :: blocks.flatMap GateBlock.draws ++ rest →
    (∀ b ∈ blocks, (∀ x ∈ b.busy, x.getLsbD s.cfg.busyBit = true) ∧ b.ready.getLsbD s.cfg.busyBit = false ∧
      b.outs.length = (s.cfg.blockWords s.algoM).toNat) →
    ∃ t new,
      core.run (2 + (blocks.map fun b => 4 * (s.cfg.blockWords s.algoM).toNat + (b.busy.length + 1)).sum + 1) s = .next t ∧
      t.phase = .idle ∧ t.res = 0#32 ∧ t.trace = .done .ok :: (new ++ s.trace) ∧ t.answers = rest ∧
      new.length = 2 + (blocks.map fun b => 4 * (s.cfg.blockWords s.algoM).toNat + (b.busy.length + 1)).sum ∧
      (given .data new).length = len.toNat ∧ (given .cr new).length = 1 ∧
      (new.countP fun | .busRd .data _ => true | _ => false) = len.toNat ∧
      (new.countP fun | .busRd .cr _ => true | _ => false) = 1 + (blocks.map fun b => b.busy.length + 1).sum ∧
      (new.countP fun | .memRd _ _ => true | _ => false) = len.toNat ∧
      (new.countP fun | .memWr _ _ => true | _ => false) = len.toNat ∧
      t.crLast.getLsbD s.cfg.decodeBit = d

/-! ### Invariants that every step keeps -/

/-- The state after reset meets the invariants of the sequencer, the mirrors, alignment and the chunks, and its memory has the
canonical form (the form, and that no byte is listed at reset, are log 3's choice). -/
def Obligations.ResetMeetsTheInvariants : Prop :=
  State.reset.SequencerInv ∧ State.reset.MirrorInv ∧ State.reset.AlignmentInv ∧ State.reset.ChunkInside ∧
    Memory.wf State.reset.mem = true

/-- Every step keeps the sequencer's invariant: FAULT agrees with PHASE, RES is one of the four codes, an active command is at
one of its own positions, and past its dispatch CLKEN is 1 (10 R25, R26, R27, R30; 40 R102, R103). -/
def Obligations.StepKeepsTheSequencer : Prop :=
  ∀ s t : State, s.SequencerInv → step s = .next t → t.SequencerInv

/-- The mirror invariant of 10 R24, kept by every step: from the first INIT on, what is programmed in CR's ALGO, MODE, SWAP
and ORDER is the mirror's value shifted and masked, for every field the running INIT does not still owe. -/
def Obligations.StepKeepsTheMirrors : Prop :=
  ∀ s t : State, s.MirrorInv → step s = .next t → t.MirrorInv

/-- No command makes a misaligned access: every memory access of the trace is at a multiple of 4, and every step keeps it so
(20 R64). -/
def Obligations.StepKeepsAccessesAligned : Prop :=
  ∀ s t : State, s.AlignmentInv → step s = .next t → t.AlignmentInv

/-- Every step keeps ENCODE and DECODE inside their buffers: within a chunk END is at most N, and a word about to be stored lies
before END (44 R170, R172, R173). -/
def Obligations.StepKeepsChunksInside : Prop :=
  ∀ s t : State, s.ChunkInside → step s = .next t → t.ChunkInside

/-- Every step keeps host memory in its canonical form (the model's representation, log 3). -/
def Obligations.StepKeepsMemoryCanonical : Prop :=
  ∀ s t : State, Memory.wf s.mem = true → step s = .next t → Memory.wf t.mem = true

/-- Once a sticky CNTRST has been written 1, every step but a Reset keeps it 1 in CR, so every later CR write carries it again:
the CNTRST write-back hazard (70 R244, 10 R37). -/
def Obligations.StickyCounterResetPersists : Prop :=
  ∀ s t : State, s.CounterResetSticks → s.resets.head? ≠ some 0 → step s = .next t → t.CounterResetSticks

/-- CLKEN is cleared by Reset only, and set only by INIT in the step after its hook (10 R25, 42 R130). -/
def Obligations.ClkenSetByInitClearedByReset : Prop :=
  (∀ s t : State, step s = .next t → s.clken = true → t.clken = false → s.resets.head? = some 0) ∧
  (∀ (i : Instr) (s t : State), exec i s = .next t → s.clken = false → t.clken = true →
    i.isInit = true ∧ s.phase = .active .clockOn)

/-- FAULT, once raised, is cleared by no command: only Reset returns it to none (10 R30, 60 R205). -/
def Obligations.FaultClearedByResetOnly : Prop :=
  ∀ s t : State, s.FaultAgrees → s.fault ≠ none → step s = .next t →
    s.resets.head? = some 0 ∨ (t.fault = s.fault ∧ t.phase = .faulted ∧ t.res = s.res ∧ t.mem = s.mem ∧ t.trace = s.trace)

/-- No step changes the parameters (00 R8; that the State carries them is log 1's). -/
def Obligations.StepKeepsTheParameters : Prop :=
  ∀ s t : State, step s = .next t → t.cfg = s.cfg

/-! ### Rules over all commands -/

/-- Every step of a command makes exactly one event, or none and raises a fault (40 R103). -/
def Obligations.OneEventOrOneFault : Prop :=
  ∀ (i : Instr) (s t : State), exec i s = .next t →
    (∃ e, t.trace = e :: s.trace ∧ t.fault = s.fault ∧ t.phase ≠ .faulted) ∨
    (t.trace = s.trace ∧ t.phase = .faulted ∧ t.fault ≠ none)

/-- Which command reaches which space: no command makes an event outside its row of the table of 20 R61, and each memory
access is to a word of the buffer the table names: a read is of word J of the key, IV or source buffer, with J below SZ
(SETKEY), below N (SETIV), or below END (ENCODE, DECODE), a store is to word J of the destination; under the chunk invariant
that J lies below N for ENCODE and DECODE too (20 R65). -/
def Obligations.CommandsReachOnlyTheirSpaces : Prop :=
  ∀ (i : Instr) (s t : State) (e : Event), exec i s = .next t → t.trace = e :: s.trace →
    i.mayMake e = true ∧
      (∀ a w, e = .memRd a w → ∃ buf, (.load, buf) ∈ i.buffers ∧ a = wordAddr buf t.j ∧
        (match i with
          | .setkey _ => t.j < t.sz
          | .setiv _ _ => t.j < t.n
          | _ => t.j < t.endJ) ∧
        (i.isStream = true → decodeLatch s = .ok i → s.ChunkInside → t.j < t.n)) ∧
      (∀ a w, e = .memWr a w → ∃ buf, (.store, buf) ∈ i.buffers ∧ a = wordAddr buf s.j ∧
        (decodeLatch s = .ok i → s.ChunkInside → s.j < s.n))

/-- A fault is raised before any event of its command and has no effect: at the command's start, leaving RES, CR, memory, the
mirrors, CLKEN and the trace as they were; only FAULT, PHASE and the working registers SZ and N differ (60 R205, R211; SZ and
N: log 12). -/
def Obligations.FaultsComeBeforeAnyEvent : Prop :=
  ∀ (i : Instr) (s t : State), exec i s = .next t → t.phase = .faulted →
    s.phase = .active .start ∧
      t = { s with sz := t.sz, n := t.n, fault := t.fault, phase := .faulted }

/-- The only places a command stops: a hook that does not return (INIT's start), the very memory access that is its next event
where the platform does not admit that access, or a position that is none of its own; and no command is refused (60 R208,
42 R131, 20 R67; what is admitted is log 9's, the foreign position log 13's). -/
def Obligations.CommandsStopOnlyWhenStuck : Prop :=
  ∀ (i : Instr) (s : State),
    (∀ r, exec i s ≠ .refused r) ∧
    (∀ f, exec i s = .fault f →
      (f = .hookHeld ∧ i.isInit = true ∧ s.phase = .active .start ∧ s.hookHeld = true) ∨
      (f = .notAdmitted ∧ ∃ x, s.attempt i = some x ∧ s.cfg.admits x.kind x.buf x.count x.index = false) ∨
      (f = .foreignPosition ∧ ∀ p ∈ i.positions, s.phase ≠ .active p))

/-- A command whose next event is a host memory access makes that access, to that word of that buffer, where the platform
admits it, and stops by the name notAdmitted where it does not (20 R62, R65, R67; 60 R208; what is admitted is log 9's). -/
def Obligations.AccessesAreMadeExactlyWhenAdmitted : Prop :=
  ∀ (i : Instr) (s : State) (x : Attempt), s.attempt i = some x →
    (s.cfg.admits x.kind x.buf x.count x.index = false → exec i s = .fault .notAdmitted) ∧
    (s.cfg.admits x.kind x.buf x.count x.index = true → ∃ t, exec i s = .next t ∧
      (x.kind = .load → t.trace = .memRd (wordAddr x.buf x.index) (s.readMem (wordAddr x.buf x.index)) :: s.trace ∧
        t.v = s.readMem (wordAddr x.buf x.index) ∧ t.mem = s.mem) ∧
      (x.kind = .store → t.trace = .memWr (wordAddr x.buf x.index) s.v :: s.trace ∧
        t.mem = Memory.writeWord s.cfg.byteOrder (wordAddr x.buf x.index) s.v s.mem))

/-- INIT held in its hook stops by the name hookHeld; a step of a stuck command stops with no Reset to come and else only waits
for it; and each hook call is a call of its own: after a Reset has taken INIT out of a held call, and after a call that
returned, the next call is held or not by the platform's next answer (60 R208; 42 R130, R131; 70 R231). That the coming calls
are a list is log 8's, the two answers to being stuck are log 14's. -/
def Obligations.StuckCommandsWaitForReset : Prop :=
  (∀ (i : Instr) (s : State), i.isInit = true → s.phase = .active .start → s.hookHeld = true →
    exec i s = .fault .hookHeld) ∧
  (∀ (i : Instr) (s : State) (p : Pos) (f : Fault), s.phase = .active p → decodeLatch s = .ok i →
    (f = .notAdmitted ∨ f = .hookHeld) → exec i s = .fault f →
    (s.resets = [] → step s = .fault f) ∧
    (∀ k later, s.resets = (k + 1) :: later → step s = .next { s with resets := k :: later })) ∧
  (∀ (s : State) (later : List Nat) (a m w o : Word) (x : Bool) (xs : List Bool), s.resets = 0 :: later →
    s.phase = .active .start → decodeLatch s = .ok (.init a m w o) → s.hookHolds = true :: x :: xs →
    ∃ t, step s = .next t ∧ t.phase = .idle ∧ t.hookHolds = x :: xs ∧ t.hookHeld = x) ∧
  (∀ (s : State) (a m w o : Word) (x : Bool) (xs : List Bool), s.phase = .active .start →
    s.hookHolds = false :: x :: xs → ∃ t, exec (.init a m w o) s = .next t ∧ t.hookHeld = x)

/-- What the platform admits: the four bytes of the access lie in one region that allows it, and no byte of the buffer is a byte
of one of the four coprocessor registers (20 R67). That admission is a list of regions and the register block its four words is
log 9's choice. A buffer of no word is never accessed and is left out. -/
def Obligations.AdmissionRule : Prop :=
  ∀ (p : Params) (k : Access) (buf n i : Word), n ≠ 0#32 →
    (p.admits k buf n i = true ↔
      (∃ r ∈ p.regions, permits r k = true ∧
        ∀ b : Nat, b < 4 → r.base ≤ (wordAddr buf i).toNat + b ∧ (wordAddr buf i).toNat + b < r.base + r.size) ∧
      (∀ q ∈ [Reg.cr, .key, .iv, .data], ∀ b : Nat, b < 4 * n.toNat →
        ¬ ((p.regAddr q).toNat ≤ buf.toNat + b ∧ buf.toNat + b < (p.regAddr q).toNat + 4)))

/-- A state that meets the sequencer's invariant never answers the foreign-position fault (log 13). -/
def Obligations.NoForeignPositionIsReached : Prop :=
  ∀ s : State, s.SequencerInv → step s ≠ .fault .foreignPosition

/-- What a CR read answers, bit by bit, for well-formed parameters: the last written bit in DECODE and the four fields; the
draw at BUSY and at every unnamed bit; CNTRST 0, last written, or the draw, by CNTRST_READBACK (40 R107). -/
def Obligations.CrReadBack : Prop :=
  ∀ (p : Params) (last draw : Word), p.WF →
    (∀ i, i = p.decodeBit ∨ (∃ f, i ∈ (p.field f).bits) → (p.crAnswer last draw).getLsbD i = last.getLsbD i) ∧
    (p.crAnswer last draw).getLsbD p.busyBit = draw.getLsbD p.busyBit ∧
    (p.crAnswer last draw).getLsbD p.cntrstBit =
      (match p.cntrstReadback with
        | .selfClearing => false
        | .sticky => last.getLsbD p.cntrstBit
        | .unconstrained => draw.getLsbD p.cntrstBit) ∧
    (∀ i, i < 32 → i ∉ p.namedBits → (p.crAnswer last draw).getLsbD i = draw.getLsbD i)

/-- The derived masks: each of the four fields' masks has exactly the field's bits, the masks of BUSY, DECODE and CNTRST have
exactly that one bit, the seven masks are pairwise disjoint, and NAMED_MASK has exactly the named bits (00 R9, R10). -/
def Obligations.MasksAreExactAndDisjoint : Prop :=
  ∀ p : Params, p.WF →
    (∀ f i, i < 32 → ((p.fieldMask f).getLsbD i = true ↔ (p.field f).shift ≤ i ∧ i < (p.field f).shift + (p.field f).width)) ∧
    (∀ i, i < 32 → (p.busyMask.getLsbD i = true ↔ i = p.busyBit) ∧ (p.decodeMask.getLsbD i = true ↔ i = p.decodeBit) ∧
      (p.cntrstMask.getLsbD i = true ↔ i = p.cntrstBit)) ∧
    (∀ f g, f ≠ g → p.fieldMask f &&& p.fieldMask g = 0#32) ∧
    (∀ f, p.fieldMask f &&& (p.busyMask ||| p.decodeMask ||| p.cntrstMask) = 0#32) ∧
    p.busyMask &&& p.decodeMask = 0#32 ∧ p.busyMask &&& p.cntrstMask = 0#32 ∧ p.decodeMask &&& p.cntrstMask = 0#32 ∧
    (∀ i, i < 32 → (p.namedMask.getLsbD i = true ↔ i ∈ p.namedBits))

/-- Field isolation: the CR value a setter writes equals the value it read at every bit outside its field's mask; and under
the read-back contract CR before and after are equal outside the mask in DECODE and the other fields (42 R139). -/
def Obligations.FieldIsolation : Prop :=
  ∀ (f : Field) (v : Word) (s : State), s.cfg.WF → s.resets = [] → s.phase = .active .start → s.clken = true →
    decodeLatch s = .ok (setterOf f v) →
    ∃ t r w, core.run 3 s = .next t ∧ t.trace = [.done .ok, .busWr .cr w, .busRd .cr r] ++ s.trace ∧
      w &&& ~~~(s.cfg.fieldMask f) = r &&& ~~~(s.cfg.fieldMask f) ∧
      t.crLast &&& (s.cfg.storedMask &&& ~~~(s.cfg.fieldMask f)) =
        s.crLast &&& (s.cfg.storedMask &&& ~~~(s.cfg.fieldMask f))

/-- The direction write of SETKEY, ENCODE and DECODE: DECODE becomes 0, 0, 1; every other bit is written back as read
(40 R112, 43 R151, 44 R174). -/
def Obligations.DirectionWriteTouchesDecodeOnly : Prop :=
  ∀ (i : Instr) (d : Bool) (s : State), s.cfg.WF → s.phase = .active .rmwWrite →
    ((∃ a, i = .setkey a) ∧ d = false ∨ (∃ src dst len, i = streamOf d src dst len)) →
    ∃ t, exec i s = .next t ∧ t.crLast.getLsbD s.cfg.decodeBit = d ∧
      ∀ b, b ≠ s.cfg.decodeBit → t.crLast.getLsbD b = s.tmp.getLsbD b

/-- A word written to canonical memory reads back whole, in either byte order, and every byte outside its four is left alone
(20 R62, R63). -/
def Obligations.MemoryReadsWhatWasWritten : Prop :=
  ∀ (o : ByteOrder) (a w : Word) (m : List Host.Cell),
    (Memory.wf m = true → Memory.readWord o a (Memory.writeWord o a w m) = w) ∧
    (∀ b : Nat, (∀ i < 4, b ≠ (a + BitVec.ofNat 32 i).toNat) →
      Memory.read b (Memory.writeWord o a w m) = Memory.read b m)

/-- The memory frame of every command: only the store of ENCODE's and DECODE's ReadChunk changes host memory, and only the
four bytes at `dst + 4J` (20 R61, 44 R170). -/
def Obligations.OnlyReadChunkStores : Prop :=
  ∀ (i : Instr) (s t : State), exec i s = .next t →
    ((i.isStream = false ∨ s.phase ≠ .active .chunkStore) → t.mem = s.mem) ∧
    (∀ d src dst len, i = streamOf d src dst len → ∀ a : Nat,
      (∀ b < 4, a ≠ (dst + 4#32 * s.j + BitVec.ofNat 32 b).toNat) → Memory.read a t.mem = Memory.read a s.mem)

/-- The size table, by equality of the whole 32-bit mirror value: AlgoA 4 and 8 words, the OPEN sizes for AlgoB and AlgoC, 0
for any other value (10 R42, R43). -/
def Obligations.SizeTable : Prop :=
  ∀ p : Params, p.WF →
    (p.blockWords p.codeAlgoA = 4#32 ∧ p.keyWords p.codeAlgoA = 8#32) ∧
    (p.blockWords p.codeAlgoB = p.blockWordsB ∧ p.keyWords p.codeAlgoB = p.keyWordsB) ∧
    (p.blockWords p.codeAlgoC = p.blockWordsC ∧ p.keyWords p.codeAlgoC = p.keyWordsC) ∧
    (∀ a, a ≠ p.codeAlgoA → a ≠ p.codeAlgoB → a ≠ p.codeAlgoC → p.blockWords a = 0#32 ∧ p.keyWords a = 0#32) ∧
    (∀ a, p.blockWords a = 0#32 ↔ p.keyWords a = 0#32)

/-- A field write whose operand is not one of its field's legal values, or that leaves an illegal value in its field, makes the
run non-conformant (70 R245 item 1, 42 R134, 93 U1; how the conformance predicate reads a trace is log 18's). -/
def Obligations.IllegalFieldValueIsNonConformant : Prop :=
  ∀ (p : Params) (tr : List Event) (f : Field) (v w : Word),
    (tr.reverse.foldl (Conformance.event p) .initial).writing = some (f, v) →
    (v ∉ legalValues p f ∨ p.fieldOf f w ∉ legalValues p f) → conformant p (.busWr .cr w :: tr) = false
end

