-- ==== Sys2Proof/Laws/State.lean ====
section
/-! SUPPORT. One lemma per field per state update (Machine/Ops.lean), each true by rfl, so that a proof never unfolds a
record update; and the same of the mirror write, by cases on the field. -/

namespace Sys2Proof.Machine

/-! ### busReadCr -/

@[simp] theorem busReadCr_algoM (p : Pos) (s : State) : (busReadCr p s).algoM = s.algoM := rfl
@[simp] theorem busReadCr_modeM (p : Pos) (s : State) : (busReadCr p s).modeM = s.modeM := rfl
@[simp] theorem busReadCr_swapM (p : Pos) (s : State) : (busReadCr p s).swapM = s.swapM := rfl
@[simp] theorem busReadCr_orderM (p : Pos) (s : State) : (busReadCr p s).orderM = s.orderM := rfl
@[simp] theorem busReadCr_clken (p : Pos) (s : State) : (busReadCr p s).clken = s.clken := rfl
@[simp] theorem busReadCr_res (p : Pos) (s : State) : (busReadCr p s).res = s.res := rfl
@[simp] theorem busReadCr_phase (p : Pos) (s : State) : (busReadCr p s).phase = .active p := rfl
@[simp] theorem busReadCr_opc (p : Pos) (s : State) : (busReadCr p s).opc = s.opc := rfl
@[simp] theorem busReadCr_rsv (p : Pos) (s : State) : (busReadCr p s).rsv = s.rsv := rfl
@[simp] theorem busReadCr_op0 (p : Pos) (s : State) : (busReadCr p s).op0 = s.op0 := rfl
@[simp] theorem busReadCr_op1 (p : Pos) (s : State) : (busReadCr p s).op1 = s.op1 := rfl
@[simp] theorem busReadCr_op2 (p : Pos) (s : State) : (busReadCr p s).op2 = s.op2 := rfl
@[simp] theorem busReadCr_op3 (p : Pos) (s : State) : (busReadCr p s).op3 = s.op3 := rfl
@[simp] theorem busReadCr_sz (p : Pos) (s : State) : (busReadCr p s).sz = s.sz := rfl
@[simp] theorem busReadCr_off (p : Pos) (s : State) : (busReadCr p s).off = s.off := rfl
@[simp] theorem busReadCr_j (p : Pos) (s : State) : (busReadCr p s).j = s.j := rfl
@[simp] theorem busReadCr_endJ (p : Pos) (s : State) : (busReadCr p s).endJ = s.endJ := rfl
@[simp] theorem busReadCr_n (p : Pos) (s : State) : (busReadCr p s).n = s.n := rfl
@[simp] theorem busReadCr_tmp (p : Pos) (s : State) : (busReadCr p s).tmp = s.crAnswer := rfl
@[simp] theorem busReadCr_v (p : Pos) (s : State) : (busReadCr p s).v = s.v := rfl
@[simp] theorem busReadCr_fault (p : Pos) (s : State) : (busReadCr p s).fault = s.fault := rfl
@[simp] theorem busReadCr_crLast (p : Pos) (s : State) : (busReadCr p s).crLast = s.crLast := rfl
@[simp] theorem busReadCr_mem (p : Pos) (s : State) : (busReadCr p s).mem = s.mem := rfl
@[simp] theorem busReadCr_cfg (p : Pos) (s : State) : (busReadCr p s).cfg = s.cfg := rfl
@[simp] theorem busReadCr_host (p : Pos) (s : State) : (busReadCr p s).host = s.host := rfl
@[simp] theorem busReadCr_resets (p : Pos) (s : State) : (busReadCr p s).resets = s.resets := rfl
@[simp] theorem busReadCr_hookHolds (p : Pos) (s : State) : (busReadCr p s).hookHolds = s.hookHolds := rfl
@[simp] theorem busReadCr_answers (p : Pos) (s : State) : (busReadCr p s).answers = s.answers.tail := rfl
@[simp] theorem busReadCr_draws (p : Pos) (s : State) : (busReadCr p s).draws = s.draws + 1 := rfl
@[simp] theorem busReadCr_trace (p : Pos) (s : State) : (busReadCr p s).trace = .busRd .cr s.crAnswer :: s.trace := rfl

/-! ### busReadData -/

@[simp] theorem busReadData_algoM (p : Pos) (s : State) : (busReadData p s).algoM = s.algoM := rfl
@[simp] theorem busReadData_modeM (p : Pos) (s : State) : (busReadData p s).modeM = s.modeM := rfl
@[simp] theorem busReadData_swapM (p : Pos) (s : State) : (busReadData p s).swapM = s.swapM := rfl
@[simp] theorem busReadData_orderM (p : Pos) (s : State) : (busReadData p s).orderM = s.orderM := rfl
@[simp] theorem busReadData_clken (p : Pos) (s : State) : (busReadData p s).clken = s.clken := rfl
@[simp] theorem busReadData_res (p : Pos) (s : State) : (busReadData p s).res = s.res := rfl
@[simp] theorem busReadData_phase (p : Pos) (s : State) : (busReadData p s).phase = .active p := rfl
@[simp] theorem busReadData_opc (p : Pos) (s : State) : (busReadData p s).opc = s.opc := rfl
@[simp] theorem busReadData_rsv (p : Pos) (s : State) : (busReadData p s).rsv = s.rsv := rfl
@[simp] theorem busReadData_op0 (p : Pos) (s : State) : (busReadData p s).op0 = s.op0 := rfl
@[simp] theorem busReadData_op1 (p : Pos) (s : State) : (busReadData p s).op1 = s.op1 := rfl
@[simp] theorem busReadData_op2 (p : Pos) (s : State) : (busReadData p s).op2 = s.op2 := rfl
@[simp] theorem busReadData_op3 (p : Pos) (s : State) : (busReadData p s).op3 = s.op3 := rfl
@[simp] theorem busReadData_sz (p : Pos) (s : State) : (busReadData p s).sz = s.sz := rfl
@[simp] theorem busReadData_off (p : Pos) (s : State) : (busReadData p s).off = s.off := rfl
@[simp] theorem busReadData_j (p : Pos) (s : State) : (busReadData p s).j = s.j := rfl
@[simp] theorem busReadData_endJ (p : Pos) (s : State) : (busReadData p s).endJ = s.endJ := rfl
@[simp] theorem busReadData_n (p : Pos) (s : State) : (busReadData p s).n = s.n := rfl
@[simp] theorem busReadData_tmp (p : Pos) (s : State) : (busReadData p s).tmp = s.tmp := rfl
@[simp] theorem busReadData_v (p : Pos) (s : State) : (busReadData p s).v = s.dataAnswer := rfl
@[simp] theorem busReadData_fault (p : Pos) (s : State) : (busReadData p s).fault = s.fault := rfl
@[simp] theorem busReadData_crLast (p : Pos) (s : State) : (busReadData p s).crLast = s.crLast := rfl
@[simp] theorem busReadData_mem (p : Pos) (s : State) : (busReadData p s).mem = s.mem := rfl
@[simp] theorem busReadData_cfg (p : Pos) (s : State) : (busReadData p s).cfg = s.cfg := rfl
@[simp] theorem busReadData_host (p : Pos) (s : State) : (busReadData p s).host = s.host := rfl
@[simp] theorem busReadData_resets (p : Pos) (s : State) : (busReadData p s).resets = s.resets := rfl
@[simp] theorem busReadData_hookHolds (p : Pos) (s : State) : (busReadData p s).hookHolds = s.hookHolds := rfl
@[simp] theorem busReadData_answers (p : Pos) (s : State) : (busReadData p s).answers = s.answers.tail := rfl
@[simp] theorem busReadData_draws (p : Pos) (s : State) : (busReadData p s).draws = s.draws + 1 := rfl
@[simp] theorem busReadData_trace (p : Pos) (s : State) : (busReadData p s).trace = .busRd .data s.dataAnswer :: s.trace := rfl

/-! ### busWriteCr -/

@[simp] theorem busWriteCr_algoM (w : Word) (p : Pos) (s : State) : (busWriteCr w p s).algoM = s.algoM := rfl
@[simp] theorem busWriteCr_modeM (w : Word) (p : Pos) (s : State) : (busWriteCr w p s).modeM = s.modeM := rfl
@[simp] theorem busWriteCr_swapM (w : Word) (p : Pos) (s : State) : (busWriteCr w p s).swapM = s.swapM := rfl
@[simp] theorem busWriteCr_orderM (w : Word) (p : Pos) (s : State) : (busWriteCr w p s).orderM = s.orderM := rfl
@[simp] theorem busWriteCr_clken (w : Word) (p : Pos) (s : State) : (busWriteCr w p s).clken = s.clken := rfl
@[simp] theorem busWriteCr_res (w : Word) (p : Pos) (s : State) : (busWriteCr w p s).res = s.res := rfl
@[simp] theorem busWriteCr_phase (w : Word) (p : Pos) (s : State) : (busWriteCr w p s).phase = .active p := rfl
@[simp] theorem busWriteCr_opc (w : Word) (p : Pos) (s : State) : (busWriteCr w p s).opc = s.opc := rfl
@[simp] theorem busWriteCr_rsv (w : Word) (p : Pos) (s : State) : (busWriteCr w p s).rsv = s.rsv := rfl
@[simp] theorem busWriteCr_op0 (w : Word) (p : Pos) (s : State) : (busWriteCr w p s).op0 = s.op0 := rfl
@[simp] theorem busWriteCr_op1 (w : Word) (p : Pos) (s : State) : (busWriteCr w p s).op1 = s.op1 := rfl
@[simp] theorem busWriteCr_op2 (w : Word) (p : Pos) (s : State) : (busWriteCr w p s).op2 = s.op2 := rfl
@[simp] theorem busWriteCr_op3 (w : Word) (p : Pos) (s : State) : (busWriteCr w p s).op3 = s.op3 := rfl
@[simp] theorem busWriteCr_sz (w : Word) (p : Pos) (s : State) : (busWriteCr w p s).sz = s.sz := rfl
@[simp] theorem busWriteCr_off (w : Word) (p : Pos) (s : State) : (busWriteCr w p s).off = s.off := rfl
@[simp] theorem busWriteCr_j (w : Word) (p : Pos) (s : State) : (busWriteCr w p s).j = s.j := rfl
@[simp] theorem busWriteCr_endJ (w : Word) (p : Pos) (s : State) : (busWriteCr w p s).endJ = s.endJ := rfl
@[simp] theorem busWriteCr_n (w : Word) (p : Pos) (s : State) : (busWriteCr w p s).n = s.n := rfl
@[simp] theorem busWriteCr_tmp (w : Word) (p : Pos) (s : State) : (busWriteCr w p s).tmp = s.tmp := rfl
@[simp] theorem busWriteCr_v (w : Word) (p : Pos) (s : State) : (busWriteCr w p s).v = s.v := rfl
@[simp] theorem busWriteCr_fault (w : Word) (p : Pos) (s : State) : (busWriteCr w p s).fault = s.fault := rfl
@[simp] theorem busWriteCr_crLast (w : Word) (p : Pos) (s : State) : (busWriteCr w p s).crLast = w := rfl
@[simp] theorem busWriteCr_mem (w : Word) (p : Pos) (s : State) : (busWriteCr w p s).mem = s.mem := rfl
@[simp] theorem busWriteCr_cfg (w : Word) (p : Pos) (s : State) : (busWriteCr w p s).cfg = s.cfg := rfl
@[simp] theorem busWriteCr_host (w : Word) (p : Pos) (s : State) : (busWriteCr w p s).host = s.host := rfl
@[simp] theorem busWriteCr_resets (w : Word) (p : Pos) (s : State) : (busWriteCr w p s).resets = s.resets := rfl
@[simp] theorem busWriteCr_hookHolds (w : Word) (p : Pos) (s : State) : (busWriteCr w p s).hookHolds = s.hookHolds := rfl
@[simp] theorem busWriteCr_answers (w : Word) (p : Pos) (s : State) : (busWriteCr w p s).answers = s.answers := rfl
@[simp] theorem busWriteCr_draws (w : Word) (p : Pos) (s : State) : (busWriteCr w p s).draws = s.draws := rfl
@[simp] theorem busWriteCr_trace (w : Word) (p : Pos) (s : State) : (busWriteCr w p s).trace = .busWr .cr w :: s.trace := rfl

/-! ### busWritePort -/

@[simp] theorem busWritePort_algoM (r : Reg) (w : Word) (p : Pos) (s : State) : (busWritePort r w p s).algoM = s.algoM := rfl
@[simp] theorem busWritePort_modeM (r : Reg) (w : Word) (p : Pos) (s : State) : (busWritePort r w p s).modeM = s.modeM := rfl
@[simp] theorem busWritePort_swapM (r : Reg) (w : Word) (p : Pos) (s : State) : (busWritePort r w p s).swapM = s.swapM := rfl
@[simp] theorem busWritePort_orderM (r : Reg) (w : Word) (p : Pos) (s : State) : (busWritePort r w p s).orderM = s.orderM := rfl
@[simp] theorem busWritePort_clken (r : Reg) (w : Word) (p : Pos) (s : State) : (busWritePort r w p s).clken = s.clken := rfl
@[simp] theorem busWritePort_res (r : Reg) (w : Word) (p : Pos) (s : State) : (busWritePort r w p s).res = s.res := rfl
@[simp] theorem busWritePort_phase (r : Reg) (w : Word) (p : Pos) (s : State) : (busWritePort r w p s).phase = .active p := rfl
@[simp] theorem busWritePort_opc (r : Reg) (w : Word) (p : Pos) (s : State) : (busWritePort r w p s).opc = s.opc := rfl
@[simp] theorem busWritePort_rsv (r : Reg) (w : Word) (p : Pos) (s : State) : (busWritePort r w p s).rsv = s.rsv := rfl
@[simp] theorem busWritePort_op0 (r : Reg) (w : Word) (p : Pos) (s : State) : (busWritePort r w p s).op0 = s.op0 := rfl
@[simp] theorem busWritePort_op1 (r : Reg) (w : Word) (p : Pos) (s : State) : (busWritePort r w p s).op1 = s.op1 := rfl
@[simp] theorem busWritePort_op2 (r : Reg) (w : Word) (p : Pos) (s : State) : (busWritePort r w p s).op2 = s.op2 := rfl
@[simp] theorem busWritePort_op3 (r : Reg) (w : Word) (p : Pos) (s : State) : (busWritePort r w p s).op3 = s.op3 := rfl
@[simp] theorem busWritePort_sz (r : Reg) (w : Word) (p : Pos) (s : State) : (busWritePort r w p s).sz = s.sz := rfl
@[simp] theorem busWritePort_off (r : Reg) (w : Word) (p : Pos) (s : State) : (busWritePort r w p s).off = s.off := rfl
@[simp] theorem busWritePort_j (r : Reg) (w : Word) (p : Pos) (s : State) : (busWritePort r w p s).j = s.j := rfl
@[simp] theorem busWritePort_endJ (r : Reg) (w : Word) (p : Pos) (s : State) : (busWritePort r w p s).endJ = s.endJ := rfl
@[simp] theorem busWritePort_n (r : Reg) (w : Word) (p : Pos) (s : State) : (busWritePort r w p s).n = s.n := rfl
@[simp] theorem busWritePort_tmp (r : Reg) (w : Word) (p : Pos) (s : State) : (busWritePort r w p s).tmp = s.tmp := rfl
@[simp] theorem busWritePort_v (r : Reg) (w : Word) (p : Pos) (s : State) : (busWritePort r w p s).v = s.v := rfl
@[simp] theorem busWritePort_fault (r : Reg) (w : Word) (p : Pos) (s : State) : (busWritePort r w p s).fault = s.fault := rfl
@[simp] theorem busWritePort_crLast (r : Reg) (w : Word) (p : Pos) (s : State) : (busWritePort r w p s).crLast = s.crLast := rfl
@[simp] theorem busWritePort_mem (r : Reg) (w : Word) (p : Pos) (s : State) : (busWritePort r w p s).mem = s.mem := rfl
@[simp] theorem busWritePort_cfg (r : Reg) (w : Word) (p : Pos) (s : State) : (busWritePort r w p s).cfg = s.cfg := rfl
@[simp] theorem busWritePort_host (r : Reg) (w : Word) (p : Pos) (s : State) : (busWritePort r w p s).host = s.host := rfl
@[simp] theorem busWritePort_resets (r : Reg) (w : Word) (p : Pos) (s : State) : (busWritePort r w p s).resets = s.resets := rfl
@[simp] theorem busWritePort_hookHolds (r : Reg) (w : Word) (p : Pos) (s : State) : (busWritePort r w p s).hookHolds = s.hookHolds := rfl
@[simp] theorem busWritePort_answers (r : Reg) (w : Word) (p : Pos) (s : State) : (busWritePort r w p s).answers = s.answers := rfl
@[simp] theorem busWritePort_draws (r : Reg) (w : Word) (p : Pos) (s : State) : (busWritePort r w p s).draws = s.draws := rfl
@[simp] theorem busWritePort_trace (r : Reg) (w : Word) (p : Pos) (s : State) : (busWritePort r w p s).trace = .busWr r w :: s.trace := rfl

/-! ### memRead -/

@[simp] theorem memRead_algoM (a : Word) (p : Pos) (s : State) : (memRead a p s).algoM = s.algoM := rfl
@[simp] theorem memRead_modeM (a : Word) (p : Pos) (s : State) : (memRead a p s).modeM = s.modeM := rfl
@[simp] theorem memRead_swapM (a : Word) (p : Pos) (s : State) : (memRead a p s).swapM = s.swapM := rfl
@[simp] theorem memRead_orderM (a : Word) (p : Pos) (s : State) : (memRead a p s).orderM = s.orderM := rfl
@[simp] theorem memRead_clken (a : Word) (p : Pos) (s : State) : (memRead a p s).clken = s.clken := rfl
@[simp] theorem memRead_res (a : Word) (p : Pos) (s : State) : (memRead a p s).res = s.res := rfl
@[simp] theorem memRead_phase (a : Word) (p : Pos) (s : State) : (memRead a p s).phase = .active p := rfl
@[simp] theorem memRead_opc (a : Word) (p : Pos) (s : State) : (memRead a p s).opc = s.opc := rfl
@[simp] theorem memRead_rsv (a : Word) (p : Pos) (s : State) : (memRead a p s).rsv = s.rsv := rfl
@[simp] theorem memRead_op0 (a : Word) (p : Pos) (s : State) : (memRead a p s).op0 = s.op0 := rfl
@[simp] theorem memRead_op1 (a : Word) (p : Pos) (s : State) : (memRead a p s).op1 = s.op1 := rfl
@[simp] theorem memRead_op2 (a : Word) (p : Pos) (s : State) : (memRead a p s).op2 = s.op2 := rfl
@[simp] theorem memRead_op3 (a : Word) (p : Pos) (s : State) : (memRead a p s).op3 = s.op3 := rfl
@[simp] theorem memRead_sz (a : Word) (p : Pos) (s : State) : (memRead a p s).sz = s.sz := rfl
@[simp] theorem memRead_off (a : Word) (p : Pos) (s : State) : (memRead a p s).off = s.off := rfl
@[simp] theorem memRead_j (a : Word) (p : Pos) (s : State) : (memRead a p s).j = s.j := rfl
@[simp] theorem memRead_endJ (a : Word) (p : Pos) (s : State) : (memRead a p s).endJ = s.endJ := rfl
@[simp] theorem memRead_n (a : Word) (p : Pos) (s : State) : (memRead a p s).n = s.n := rfl
@[simp] theorem memRead_tmp (a : Word) (p : Pos) (s : State) : (memRead a p s).tmp = s.tmp := rfl
@[simp] theorem memRead_v (a : Word) (p : Pos) (s : State) : (memRead a p s).v = s.readMem a := rfl
@[simp] theorem memRead_fault (a : Word) (p : Pos) (s : State) : (memRead a p s).fault = s.fault := rfl
@[simp] theorem memRead_crLast (a : Word) (p : Pos) (s : State) : (memRead a p s).crLast = s.crLast := rfl
@[simp] theorem memRead_mem (a : Word) (p : Pos) (s : State) : (memRead a p s).mem = s.mem := rfl
@[simp] theorem memRead_cfg (a : Word) (p : Pos) (s : State) : (memRead a p s).cfg = s.cfg := rfl
@[simp] theorem memRead_host (a : Word) (p : Pos) (s : State) : (memRead a p s).host = s.host := rfl
@[simp] theorem memRead_resets (a : Word) (p : Pos) (s : State) : (memRead a p s).resets = s.resets := rfl
@[simp] theorem memRead_hookHolds (a : Word) (p : Pos) (s : State) : (memRead a p s).hookHolds = s.hookHolds := rfl
@[simp] theorem memRead_answers (a : Word) (p : Pos) (s : State) : (memRead a p s).answers = s.answers := rfl
@[simp] theorem memRead_draws (a : Word) (p : Pos) (s : State) : (memRead a p s).draws = s.draws := rfl
@[simp] theorem memRead_trace (a : Word) (p : Pos) (s : State) : (memRead a p s).trace = .memRd a (s.readMem a) :: s.trace := rfl

/-! ### memWrite -/

@[simp] theorem memWrite_algoM (a w : Word) (p : Pos) (s : State) : (memWrite a w p s).algoM = s.algoM := rfl
@[simp] theorem memWrite_modeM (a w : Word) (p : Pos) (s : State) : (memWrite a w p s).modeM = s.modeM := rfl
@[simp] theorem memWrite_swapM (a w : Word) (p : Pos) (s : State) : (memWrite a w p s).swapM = s.swapM := rfl
@[simp] theorem memWrite_orderM (a w : Word) (p : Pos) (s : State) : (memWrite a w p s).orderM = s.orderM := rfl
@[simp] theorem memWrite_clken (a w : Word) (p : Pos) (s : State) : (memWrite a w p s).clken = s.clken := rfl
@[simp] theorem memWrite_res (a w : Word) (p : Pos) (s : State) : (memWrite a w p s).res = s.res := rfl
@[simp] theorem memWrite_phase (a w : Word) (p : Pos) (s : State) : (memWrite a w p s).phase = .active p := rfl
@[simp] theorem memWrite_opc (a w : Word) (p : Pos) (s : State) : (memWrite a w p s).opc = s.opc := rfl
@[simp] theorem memWrite_rsv (a w : Word) (p : Pos) (s : State) : (memWrite a w p s).rsv = s.rsv := rfl
@[simp] theorem memWrite_op0 (a w : Word) (p : Pos) (s : State) : (memWrite a w p s).op0 = s.op0 := rfl
@[simp] theorem memWrite_op1 (a w : Word) (p : Pos) (s : State) : (memWrite a w p s).op1 = s.op1 := rfl
@[simp] theorem memWrite_op2 (a w : Word) (p : Pos) (s : State) : (memWrite a w p s).op2 = s.op2 := rfl
@[simp] theorem memWrite_op3 (a w : Word) (p : Pos) (s : State) : (memWrite a w p s).op3 = s.op3 := rfl
@[simp] theorem memWrite_sz (a w : Word) (p : Pos) (s : State) : (memWrite a w p s).sz = s.sz := rfl
@[simp] theorem memWrite_off (a w : Word) (p : Pos) (s : State) : (memWrite a w p s).off = s.off := rfl
@[simp] theorem memWrite_j (a w : Word) (p : Pos) (s : State) : (memWrite a w p s).j = s.j := rfl
@[simp] theorem memWrite_endJ (a w : Word) (p : Pos) (s : State) : (memWrite a w p s).endJ = s.endJ := rfl
@[simp] theorem memWrite_n (a w : Word) (p : Pos) (s : State) : (memWrite a w p s).n = s.n := rfl
@[simp] theorem memWrite_tmp (a w : Word) (p : Pos) (s : State) : (memWrite a w p s).tmp = s.tmp := rfl
@[simp] theorem memWrite_v (a w : Word) (p : Pos) (s : State) : (memWrite a w p s).v = s.v := rfl
@[simp] theorem memWrite_fault (a w : Word) (p : Pos) (s : State) : (memWrite a w p s).fault = s.fault := rfl
@[simp] theorem memWrite_crLast (a w : Word) (p : Pos) (s : State) : (memWrite a w p s).crLast = s.crLast := rfl
@[simp] theorem memWrite_mem (a w : Word) (p : Pos) (s : State) : (memWrite a w p s).mem = Memory.writeWord s.cfg.byteOrder a w s.mem := rfl
@[simp] theorem memWrite_cfg (a w : Word) (p : Pos) (s : State) : (memWrite a w p s).cfg = s.cfg := rfl
@[simp] theorem memWrite_host (a w : Word) (p : Pos) (s : State) : (memWrite a w p s).host = s.host := rfl
@[simp] theorem memWrite_resets (a w : Word) (p : Pos) (s : State) : (memWrite a w p s).resets = s.resets := rfl
@[simp] theorem memWrite_hookHolds (a w : Word) (p : Pos) (s : State) : (memWrite a w p s).hookHolds = s.hookHolds := rfl
@[simp] theorem memWrite_answers (a w : Word) (p : Pos) (s : State) : (memWrite a w p s).answers = s.answers := rfl
@[simp] theorem memWrite_draws (a w : Word) (p : Pos) (s : State) : (memWrite a w p s).draws = s.draws := rfl
@[simp] theorem memWrite_trace (a w : Word) (p : Pos) (s : State) : (memWrite a w p s).trace = .memWr a w :: s.trace := rfl

/-! ### hookCall -/

@[simp] theorem hookCall_algoM (p : Pos) (s : State) : (hookCall p s).algoM = s.algoM := rfl
@[simp] theorem hookCall_modeM (p : Pos) (s : State) : (hookCall p s).modeM = s.modeM := rfl
@[simp] theorem hookCall_swapM (p : Pos) (s : State) : (hookCall p s).swapM = s.swapM := rfl
@[simp] theorem hookCall_orderM (p : Pos) (s : State) : (hookCall p s).orderM = s.orderM := rfl
@[simp] theorem hookCall_clken (p : Pos) (s : State) : (hookCall p s).clken = s.clken := rfl
@[simp] theorem hookCall_res (p : Pos) (s : State) : (hookCall p s).res = s.res := rfl
@[simp] theorem hookCall_phase (p : Pos) (s : State) : (hookCall p s).phase = .active p := rfl
@[simp] theorem hookCall_opc (p : Pos) (s : State) : (hookCall p s).opc = s.opc := rfl
@[simp] theorem hookCall_rsv (p : Pos) (s : State) : (hookCall p s).rsv = s.rsv := rfl
@[simp] theorem hookCall_op0 (p : Pos) (s : State) : (hookCall p s).op0 = s.op0 := rfl
@[simp] theorem hookCall_op1 (p : Pos) (s : State) : (hookCall p s).op1 = s.op1 := rfl
@[simp] theorem hookCall_op2 (p : Pos) (s : State) : (hookCall p s).op2 = s.op2 := rfl
@[simp] theorem hookCall_op3 (p : Pos) (s : State) : (hookCall p s).op3 = s.op3 := rfl
@[simp] theorem hookCall_sz (p : Pos) (s : State) : (hookCall p s).sz = s.sz := rfl
@[simp] theorem hookCall_off (p : Pos) (s : State) : (hookCall p s).off = s.off := rfl
@[simp] theorem hookCall_j (p : Pos) (s : State) : (hookCall p s).j = s.j := rfl
@[simp] theorem hookCall_endJ (p : Pos) (s : State) : (hookCall p s).endJ = s.endJ := rfl
@[simp] theorem hookCall_n (p : Pos) (s : State) : (hookCall p s).n = s.n := rfl
@[simp] theorem hookCall_tmp (p : Pos) (s : State) : (hookCall p s).tmp = s.tmp := rfl
@[simp] theorem hookCall_v (p : Pos) (s : State) : (hookCall p s).v = s.v := rfl
@[simp] theorem hookCall_fault (p : Pos) (s : State) : (hookCall p s).fault = s.fault := rfl
@[simp] theorem hookCall_crLast (p : Pos) (s : State) : (hookCall p s).crLast = s.crLast := rfl
@[simp] theorem hookCall_mem (p : Pos) (s : State) : (hookCall p s).mem = s.mem := rfl
@[simp] theorem hookCall_cfg (p : Pos) (s : State) : (hookCall p s).cfg = s.cfg := rfl
@[simp] theorem hookCall_host (p : Pos) (s : State) : (hookCall p s).host = s.host := rfl
@[simp] theorem hookCall_resets (p : Pos) (s : State) : (hookCall p s).resets = s.resets := rfl
@[simp] theorem hookCall_hookHolds (p : Pos) (s : State) : (hookCall p s).hookHolds = s.hookHolds.tail := rfl
@[simp] theorem hookCall_answers (p : Pos) (s : State) : (hookCall p s).answers = s.answers := rfl
@[simp] theorem hookCall_draws (p : Pos) (s : State) : (hookCall p s).draws = s.draws := rfl
@[simp] theorem hookCall_trace (p : Pos) (s : State) : (hookCall p s).trace = .hook :: s.trace := rfl

/-! ### complete -/

@[simp] theorem complete_algoM (r : Result) (s : State) : (complete r s).algoM = s.algoM := rfl
@[simp] theorem complete_modeM (r : Result) (s : State) : (complete r s).modeM = s.modeM := rfl
@[simp] theorem complete_swapM (r : Result) (s : State) : (complete r s).swapM = s.swapM := rfl
@[simp] theorem complete_orderM (r : Result) (s : State) : (complete r s).orderM = s.orderM := rfl
@[simp] theorem complete_clken (r : Result) (s : State) : (complete r s).clken = s.clken := rfl
@[simp] theorem complete_res (r : Result) (s : State) : (complete r s).res = r.code := rfl
@[simp] theorem complete_phase (r : Result) (s : State) : (complete r s).phase = .idle := rfl
@[simp] theorem complete_opc (r : Result) (s : State) : (complete r s).opc = s.opc := rfl
@[simp] theorem complete_rsv (r : Result) (s : State) : (complete r s).rsv = s.rsv := rfl
@[simp] theorem complete_op0 (r : Result) (s : State) : (complete r s).op0 = s.op0 := rfl
@[simp] theorem complete_op1 (r : Result) (s : State) : (complete r s).op1 = s.op1 := rfl
@[simp] theorem complete_op2 (r : Result) (s : State) : (complete r s).op2 = s.op2 := rfl
@[simp] theorem complete_op3 (r : Result) (s : State) : (complete r s).op3 = s.op3 := rfl
@[simp] theorem complete_sz (r : Result) (s : State) : (complete r s).sz = s.sz := rfl
@[simp] theorem complete_off (r : Result) (s : State) : (complete r s).off = s.off := rfl
@[simp] theorem complete_j (r : Result) (s : State) : (complete r s).j = s.j := rfl
@[simp] theorem complete_endJ (r : Result) (s : State) : (complete r s).endJ = s.endJ := rfl
@[simp] theorem complete_n (r : Result) (s : State) : (complete r s).n = s.n := rfl
@[simp] theorem complete_tmp (r : Result) (s : State) : (complete r s).tmp = s.tmp := rfl
@[simp] theorem complete_v (r : Result) (s : State) : (complete r s).v = s.v := rfl
@[simp] theorem complete_fault (r : Result) (s : State) : (complete r s).fault = s.fault := rfl
@[simp] theorem complete_crLast (r : Result) (s : State) : (complete r s).crLast = s.crLast := rfl
@[simp] theorem complete_mem (r : Result) (s : State) : (complete r s).mem = s.mem := rfl
@[simp] theorem complete_cfg (r : Result) (s : State) : (complete r s).cfg = s.cfg := rfl
@[simp] theorem complete_host (r : Result) (s : State) : (complete r s).host = s.host := rfl
@[simp] theorem complete_resets (r : Result) (s : State) : (complete r s).resets = s.resets := rfl
@[simp] theorem complete_hookHolds (r : Result) (s : State) : (complete r s).hookHolds = s.hookHolds := rfl
@[simp] theorem complete_answers (r : Result) (s : State) : (complete r s).answers = s.answers := rfl
@[simp] theorem complete_draws (r : Result) (s : State) : (complete r s).draws = s.draws := rfl
@[simp] theorem complete_trace (r : Result) (s : State) : (complete r s).trace = .done r :: s.trace := rfl

/-! ### raise -/

@[simp] theorem raise_algoM (k : FaultKind) (s : State) : (raise k s).algoM = s.algoM := rfl
@[simp] theorem raise_modeM (k : FaultKind) (s : State) : (raise k s).modeM = s.modeM := rfl
@[simp] theorem raise_swapM (k : FaultKind) (s : State) : (raise k s).swapM = s.swapM := rfl
@[simp] theorem raise_orderM (k : FaultKind) (s : State) : (raise k s).orderM = s.orderM := rfl
@[simp] theorem raise_clken (k : FaultKind) (s : State) : (raise k s).clken = s.clken := rfl
@[simp] theorem raise_res (k : FaultKind) (s : State) : (raise k s).res = s.res := rfl
@[simp] theorem raise_phase (k : FaultKind) (s : State) : (raise k s).phase = .faulted := rfl
@[simp] theorem raise_opc (k : FaultKind) (s : State) : (raise k s).opc = s.opc := rfl
@[simp] theorem raise_rsv (k : FaultKind) (s : State) : (raise k s).rsv = s.rsv := rfl
@[simp] theorem raise_op0 (k : FaultKind) (s : State) : (raise k s).op0 = s.op0 := rfl
@[simp] theorem raise_op1 (k : FaultKind) (s : State) : (raise k s).op1 = s.op1 := rfl
@[simp] theorem raise_op2 (k : FaultKind) (s : State) : (raise k s).op2 = s.op2 := rfl
@[simp] theorem raise_op3 (k : FaultKind) (s : State) : (raise k s).op3 = s.op3 := rfl
@[simp] theorem raise_sz (k : FaultKind) (s : State) : (raise k s).sz = s.sz := rfl
@[simp] theorem raise_off (k : FaultKind) (s : State) : (raise k s).off = s.off := rfl
@[simp] theorem raise_j (k : FaultKind) (s : State) : (raise k s).j = s.j := rfl
@[simp] theorem raise_endJ (k : FaultKind) (s : State) : (raise k s).endJ = s.endJ := rfl
@[simp] theorem raise_n (k : FaultKind) (s : State) : (raise k s).n = s.n := rfl
@[simp] theorem raise_tmp (k : FaultKind) (s : State) : (raise k s).tmp = s.tmp := rfl
@[simp] theorem raise_v (k : FaultKind) (s : State) : (raise k s).v = s.v := rfl
@[simp] theorem raise_fault (k : FaultKind) (s : State) : (raise k s).fault = some k := rfl
@[simp] theorem raise_crLast (k : FaultKind) (s : State) : (raise k s).crLast = s.crLast := rfl
@[simp] theorem raise_mem (k : FaultKind) (s : State) : (raise k s).mem = s.mem := rfl
@[simp] theorem raise_cfg (k : FaultKind) (s : State) : (raise k s).cfg = s.cfg := rfl
@[simp] theorem raise_host (k : FaultKind) (s : State) : (raise k s).host = s.host := rfl
@[simp] theorem raise_resets (k : FaultKind) (s : State) : (raise k s).resets = s.resets := rfl
@[simp] theorem raise_hookHolds (k : FaultKind) (s : State) : (raise k s).hookHolds = s.hookHolds := rfl
@[simp] theorem raise_answers (k : FaultKind) (s : State) : (raise k s).answers = s.answers := rfl
@[simp] theorem raise_draws (k : FaultKind) (s : State) : (raise k s).draws = s.draws := rfl
@[simp] theorem raise_trace (k : FaultKind) (s : State) : (raise k s).trace = s.trace := rfl

/-! ### writeMirror -/

@[simp] theorem writeMirror_clken (f : Field) (w : Word) (s : State) : (writeMirror f w s).clken = s.clken := by cases f <;> rfl
@[simp] theorem writeMirror_res (f : Field) (w : Word) (s : State) : (writeMirror f w s).res = s.res := by cases f <;> rfl
@[simp] theorem writeMirror_phase (f : Field) (w : Word) (s : State) : (writeMirror f w s).phase = s.phase := by cases f <;> rfl
@[simp] theorem writeMirror_opc (f : Field) (w : Word) (s : State) : (writeMirror f w s).opc = s.opc := by cases f <;> rfl
@[simp] theorem writeMirror_rsv (f : Field) (w : Word) (s : State) : (writeMirror f w s).rsv = s.rsv := by cases f <;> rfl
@[simp] theorem writeMirror_op0 (f : Field) (w : Word) (s : State) : (writeMirror f w s).op0 = s.op0 := by cases f <;> rfl
@[simp] theorem writeMirror_op1 (f : Field) (w : Word) (s : State) : (writeMirror f w s).op1 = s.op1 := by cases f <;> rfl
@[simp] theorem writeMirror_op2 (f : Field) (w : Word) (s : State) : (writeMirror f w s).op2 = s.op2 := by cases f <;> rfl
@[simp] theorem writeMirror_op3 (f : Field) (w : Word) (s : State) : (writeMirror f w s).op3 = s.op3 := by cases f <;> rfl
@[simp] theorem writeMirror_sz (f : Field) (w : Word) (s : State) : (writeMirror f w s).sz = s.sz := by cases f <;> rfl
@[simp] theorem writeMirror_off (f : Field) (w : Word) (s : State) : (writeMirror f w s).off = s.off := by cases f <;> rfl
@[simp] theorem writeMirror_j (f : Field) (w : Word) (s : State) : (writeMirror f w s).j = s.j := by cases f <;> rfl
@[simp] theorem writeMirror_endJ (f : Field) (w : Word) (s : State) : (writeMirror f w s).endJ = s.endJ := by cases f <;> rfl
@[simp] theorem writeMirror_n (f : Field) (w : Word) (s : State) : (writeMirror f w s).n = s.n := by cases f <;> rfl
@[simp] theorem writeMirror_tmp (f : Field) (w : Word) (s : State) : (writeMirror f w s).tmp = s.tmp := by cases f <;> rfl
@[simp] theorem writeMirror_v (f : Field) (w : Word) (s : State) : (writeMirror f w s).v = s.v := by cases f <;> rfl
@[simp] theorem writeMirror_fault (f : Field) (w : Word) (s : State) : (writeMirror f w s).fault = s.fault := by cases f <;> rfl
@[simp] theorem writeMirror_crLast (f : Field) (w : Word) (s : State) : (writeMirror f w s).crLast = s.crLast := by cases f <;> rfl
@[simp] theorem writeMirror_mem (f : Field) (w : Word) (s : State) : (writeMirror f w s).mem = s.mem := by cases f <;> rfl
@[simp] theorem writeMirror_cfg (f : Field) (w : Word) (s : State) : (writeMirror f w s).cfg = s.cfg := by cases f <;> rfl
@[simp] theorem writeMirror_host (f : Field) (w : Word) (s : State) : (writeMirror f w s).host = s.host := by cases f <;> rfl
@[simp] theorem writeMirror_resets (f : Field) (w : Word) (s : State) : (writeMirror f w s).resets = s.resets := by cases f <;> rfl
@[simp] theorem writeMirror_hookHolds (f : Field) (w : Word) (s : State) : (writeMirror f w s).hookHolds = s.hookHolds := by cases f <;> rfl
@[simp] theorem writeMirror_answers (f : Field) (w : Word) (s : State) : (writeMirror f w s).answers = s.answers := by cases f <;> rfl
@[simp] theorem writeMirror_draws (f : Field) (w : Word) (s : State) : (writeMirror f w s).draws = s.draws := by cases f <;> rfl
@[simp] theorem writeMirror_trace (f : Field) (w : Word) (s : State) : (writeMirror f w s).trace = s.trace := by cases f <;> rfl

end Sys2Proof.Machine
end

