-- ==== Sys2Proof/Laws/Ops.lean ====
section
/-! SUPPORT. One lemma for each shared operation that says everything it can do when it answers a next state (and when it
faults), and one for a step: cited instead of unfolding the operation. -/

namespace Sys2Proof.Machine

/-- Everything `whenClocked` can do. -/
theorem whenClocked_next {s t : State} {k : Out} :
    whenClocked s k = .next t ↔ (s.clken = true ∧ k = .next t) ∨ (s.clken = false ∧ t = raise .notInitialised s) := by
  unfold whenClocked
  cases s.clken <;> simp [eq_comm]

/-- Everything `loadWord` can do. -/
theorem loadWord_next {buf n i : Word} {p : Pos} {s t : State} :
    loadWord buf n i p s = .next t ↔ s.cfg.admits .load buf n i = true ∧ t = memRead (wordAddr buf i) p s := by
  unfold loadWord
  split <;> simp [*, eq_comm]

/-- Everything `storeWord` can do. -/
theorem storeWord_next {buf n i : Word} {p : Pos} {s t : State} :
    storeWord buf n i p s = .next t ↔
      s.cfg.admits .store buf n i = true ∧ t = memWrite (wordAddr buf i) s.v p s := by
  unfold storeWord
  split <;> simp [*, eq_comm]

/-- Everything the gate's test can do. -/
theorem gateTest_next {exit : State → Out} {s t : State} :
    gateTest exit s = .next t ↔
      (s.cfg.busy s.tmp = true ∧ t = busReadCr .gate s) ∨ (s.cfg.busy s.tmp = false ∧ exit s = .next t) := by
  unfold gateTest
  cases s.cfg.busy s.tmp <;> simp [eq_comm]

/-- A command in a foreign position never goes on. -/
@[simp] theorem foreign_next {t : State} : (foreign = .next t) ↔ False := by simp [foreign]

/-- The mirror a field write writes. -/
theorem writeMirror_fields (f : Field) (w : Word) (s : State) :
    writeMirror f w s =
      { s with
        algoM := if f = .algo then w else s.algoM
        modeM := if f = .mode then w else s.modeM
        swapM := if f = .swap then w else s.swapM
        orderM := if f = .order then w else s.orderM } := by
  cases f <;> rfl

/-- With no Reset to come, nothing waits for one. -/
theorem tickReset_nil {s : State} (h : s.resets = []) : tickReset s = s := by
  cases s
  simp only at h
  subst h
  rfl

/-- Everything `awaitReset` can do. -/
theorem awaitReset_next {s t : State} {o : Out} :
    awaitReset s o = .next t ↔ o = .next t ∨ (s.resets ≠ [] ∧ t = s ∧ ∃ f, o = .fault f) := by
  cases o with
  | next u => simp [awaitReset]
  | fault f =>
    simp only [awaitReset]
    split
    · simp [*]
    · simp [*, eq_comm]
  | refused r => simp [awaitReset]

/-- A step with no Reset to come. -/
theorem step_no_reset {s : State} (h : s.resets = []) : step s = advance s := by
  have hs : step s = awaitReset (tickReset s) (advance (tickReset s)) := by
    unfold step
    split
    · rename_i later hr
      rw [h] at hr
      cases hr
    · rfl
  rw [hs, tickReset_nil h]
  cases advance s <;> simp [awaitReset, h]

/-- One step of an active command. -/
theorem advance_active {s : State} {p : Pos} {i : Instr} (hp : s.phase = .active p) (hi : decodeLatch s = .ok i) :
    advance s = exec i s := by
  simp only [advance, hp, hi]

/-- A step of an active command with no Reset to come, in a run. -/
theorem run_step {s t : State} {p : Pos} {i : Instr} (k : Nat) (hr : s.resets = []) (hp : s.phase = .active p)
    (hi : decodeLatch s = .ok i) (h : exec i s = .next t) : core.run (k + 1) s = core.run k t := by
  have hs : core.step s = .next t := by
    show step s = .next t
    rw [step_no_reset hr, advance_active hp hi, h]
  simp only [Host.Core.run, hs]

/-- No step at all. -/
theorem run_zero (s : State) : core.run 0 s = .next s := rfl

/-- Everything the host's move can do. -/
theorem hostStep_next {s t : State} (h : hostStep s = .next t) :
    t = s ∨
    (∃ addr b moves, s.host = .store addr b :: moves ∧
      t = { s with mem := Memory.write addr.toNat b s.mem, host := moves }) ∨
    (∃ words moves cw ops rest, s.host = .command words :: moves ∧ takeCommand words = some (cw, ops, rest) ∧
      t = accept cw ops { s with host := hostAfter rest moves }) := by
  unfold hostStep at h
  split at h
  · exact .inl (by simpa using h.symm)
  · rename_i addr b moves hh
    exact .inr (.inl ⟨addr, b, moves, hh, by simpa using h.symm⟩)
  · rename_i words moves hh
    split at h
    · rename_i cw ops rest ht
      exact .inr (.inr ⟨words, moves, cw, ops, rest, hh, ht, by simpa using h.symm⟩)
    · exact .inl (by simpa using h.symm)

/-- Everything a step can do (u is the state with the Reset one step nearer): Reset; a wait for a Reset to come; the host's
move while IDLE; an illegal command's completion; or one step of the active command. -/
theorem step_next {s t : State} (h : step s = .next t) :
    (∃ later, s.resets = 0 :: later ∧ t = deviceReset later s) ∨
    (s.resets.head? ≠ some 0 ∧ ((s.resets ≠ [] ∧ t = tickReset s) ∨
      ((tickReset s).phase = .idle ∧ hostStep (tickReset s) = .next t) ∨
      (∃ e, (tickReset s).phase = .active .start ∧ decodeLatch (tickReset s) = .error e ∧
        t = complete .illegal (tickReset s)) ∨
      (∃ p i, (tickReset s).phase = .active p ∧ decodeLatch (tickReset s) = .ok i ∧ exec i (tickReset s) = .next t))) := by
  unfold step at h
  split at h
  · rename_i later hr
    exact .inl ⟨later, hr, by simpa using h.symm⟩
  · rename_i hr
    refine .inr ⟨?_, ?_⟩
    · intro h0
      cases hs : s.resets with
      | nil => simp [hs] at h0
      | cons k later =>
        rw [hs] at h0
        simp only [List.head?_cons, Option.some.injEq] at h0
        exact hr later (by rw [hs, h0])
    · rcases awaitReset_next.mp h with h | ⟨hne, rfl, -⟩
      · unfold advance at h
        split at h
        · exact .inr (.inl ⟨by assumption, h⟩)
        · cases h
        · rename_i p hp
          split at h
          · rename_i i hi
            exact .inr (.inr (.inr ⟨p, i, hp, hi, h⟩))
          · rename_i e he
            unfold illegalStep at h
            split at h
            · rename_i hstart
              exact .inr (.inr (.inl ⟨e, hstart, he, by simpa using h.symm⟩))
            · simp at h
      · refine .inl ⟨?_, rfl⟩
        intro h0
        apply hne
        simp [tickReset, h0]

end Sys2Proof.Machine
end

