-- ==== Sys2Proof/Laws/Exec.lean ====
section
/-! SUPPORT. What one step of ANY command does: internal computation, which touches only working registers and CLKEN, and
then one event primitive, a completion or a raised fault (40 R103). An invariant over all commands needs only these cases. -/

namespace Sys2Proof.Machine

/-- `u` is `s` after internal computation: only SZ, OFF, J, END, N, the mirrors and CLKEN may differ, and CLKEN is never
cleared (10 R25, R29). -/
structure Prepared (s u : State) : Prop where
  clken : s.clken = true → u.clken = true
  res : u.res = s.res
  phase : u.phase = s.phase
  opc : u.opc = s.opc
  rsv : u.rsv = s.rsv
  op0 : u.op0 = s.op0
  op1 : u.op1 = s.op1
  op2 : u.op2 = s.op2
  op3 : u.op3 = s.op3
  tmp : u.tmp = s.tmp
  v : u.v = s.v
  fault : u.fault = s.fault
  crLast : u.crLast = s.crLast
  mem : u.mem = s.mem
  cfg : u.cfg = s.cfg
  host : u.host = s.host
  resets : u.resets = s.resets
  hookHolds : u.hookHolds = s.hookHolds
  answers : u.answers = s.answers
  draws : u.draws = s.draws
  trace : u.trace = s.trace

/-- No internal computation. -/
theorem Prepared.refl (s : State) : Prepared s s := by constructor <;> simp

/-- Internal computation in two parts. -/
theorem Prepared.trans {s u w : State} (h : Prepared s u) (k : Prepared u w) : Prepared s w := by
  constructor
  · exact fun hc => k.clken (h.clken hc)
  all_goals first
    | exact k.res.trans h.res
    | exact k.phase.trans h.phase
    | exact k.opc.trans h.opc
    | exact k.rsv.trans h.rsv
    | exact k.op0.trans h.op0
    | exact k.op1.trans h.op1
    | exact k.op2.trans h.op2
    | exact k.op3.trans h.op3
    | exact k.tmp.trans h.tmp
    | exact k.v.trans h.v
    | exact k.fault.trans h.fault
    | exact k.crLast.trans h.crLast
    | exact k.mem.trans h.mem
    | exact k.cfg.trans h.cfg
    | exact k.host.trans h.host
    | exact k.resets.trans h.resets
    | exact k.hookHolds.trans h.hookHolds
    | exact k.answers.trans h.answers
    | exact k.draws.trans h.draws
    | exact k.trace.trans h.trace

/-- The mirror write is internal computation. -/
theorem Prepared.writeMirror (f : Field) (w : Word) (s : State) : Prepared s (writeMirror f w s) := by
  cases f <;> constructor <;> simp [Machine.writeMirror]

/-- What a step of a command does to `s`: internal computation and then one of these. -/
inductive Effect (s : State) : State → Prop where
  | readCr (p : Pos) {u : State} (h : Prepared s u) : Effect s (busReadCr p u)
  | readData (p : Pos) {u : State} (h : Prepared s u) : Effect s (busReadData p u)
  | writeCr (w : Word) (p : Pos) {u : State} (h : Prepared s u) : Effect s (busWriteCr w p u)
  | writePort (r : Reg) (w : Word) (p : Pos) (hr : r ≠ .cr) {u : State} (h : Prepared s u) : Effect s (busWritePort r w p u)
  | load (a : Word) (p : Pos) {u : State} (h : Prepared s u) : Effect s (memRead a p u)
  | store (a w : Word) (p : Pos) {u : State} (h : Prepared s u) : Effect s (memWrite a w p u)
  | hook (p : Pos) {u : State} (h : Prepared s u) : Effect s (hookCall p u)
  | done (r : Result) {u : State} (h : Prepared s u) : Effect s (complete r u)
  | fault (k : FaultKind) {u : State} (h : Prepared s u) : Effect s (raise k u)

/-- Internal computation before a step's effect. -/
theorem Effect.after {s u t : State} (h : Prepared s u) (e : Effect u t) : Effect s t := by
  cases e with
  | readCr p k => exact .readCr p (h.trans k)
  | readData p k => exact .readData p (h.trans k)
  | writeCr w p k => exact .writeCr w p (h.trans k)
  | writePort r w p hr k => exact .writePort r w p hr (h.trans k)
  | load a p k => exact .load a p (h.trans k)
  | store a w p k => exact .store a w p (h.trans k)
  | hook p k => exact .hook p (h.trans k)
  | done r k => exact .done r (h.trans k)
  | fault k hk => exact .fault k (h.trans hk)

variable {s t : State}

theorem whenClocked_effect {k : Out} (hk : k = .next t → Effect s t) (h : whenClocked s k = .next t) : Effect s t := by
  rcases whenClocked_next.mp h with ⟨-, h⟩ | ⟨-, rfl⟩
  · exact hk h
  · exact .fault _ (.refl s)

theorem loadWord_effect {buf n i : Word} {p : Pos} (h : loadWord buf n i p s = .next t) : Effect s t := by
  obtain ⟨-, rfl⟩ := loadWord_next.mp h
  exact .load _ p (.refl s)

theorem gateTest_effect {exit : State → Out} (hx : exit s = .next t → Effect s t) (h : gateTest exit s = .next t) :
    Effect s t := by
  rcases gateTest_next.mp h with ⟨-, rfl⟩ | ⟨-, h⟩
  · exact .readCr _ (.refl s)
  · exact hx h

theorem fieldWrite_effect (f : Field) (w : Word) (p : Pos) (s : State) : Effect s (fieldWrite f w p s) :=
  .writeCr _ p (.writeMirror f w s)

theorem directionWrite_effect (d : Bool) (p : Pos) (s : State) : Effect s (directionWrite d p s) :=
  .writeCr _ p (.refl s)

theorem keyLoop_effect {a : Word} (h : keyLoop a s = .next t) : Effect s t := by
  unfold keyLoop at h
  split at h
  · exact loadWord_effect h
  · cases h; exact .readCr _ (.refl s)

theorem zeroLoop_effect (h : zeroLoop s = .next t) : Effect s t := by
  unfold zeroLoop at h
  split at h <;> cases h
  · exact .writePort _ _ _ (by decide) (.refl s)
  · exact .done _ (.refl s)

theorem ivLoop_effect {a : Word} (h : ivLoop a s = .next t) : Effect s t := by
  unfold ivLoop at h
  split at h
  · exact loadWord_effect h
  · split at h
    · exact .after (by constructor <;> simp) (zeroLoop_effect h)
    · cases h; exact .done _ (.refl s)

theorem writeLoop_effect {a : Word} (h : writeLoop a s = .next t) : Effect s t := by
  unfold writeLoop at h
  split at h
  · exact loadWord_effect h
  · cases h; exact .readCr _ (.refl s)

theorem chunkLoop_effect {a : Word} (h : chunkLoop a s = .next t) : Effect s t := by
  unfold chunkLoop at h
  split at h
  · exact .after (by constructor <;> simp) (writeLoop_effect h)
  · cases h; exact .done _ (.refl s)

theorem readLoop_effect {a : Word} (h : readLoop a s = .next t) : Effect s t := by
  unfold readLoop at h
  split at h
  · cases h; exact .readData _ (.refl s)
  · exact .after (by constructor <;> simp) (chunkLoop_effect h)

theorem readStart_effect {a : Word} (h : readStart a s = .next t) : Effect s t :=
  .after (by constructor <;> simp) (readLoop_effect h)

theorem streamStart_effect {a b n : Word} (h : streamStart a b n s = .next t) : Effect s t := by
  have hp : Prepared s { s with sz := s.cfg.blockWords s.algoM, n := n } := by constructor <;> simp
  unfold streamStart at h
  simp only at h
  split at h
  · cases h; exact .done _ hp
  · split at h
    · cases h; exact .done _ hp
    · split at h
      · cases h; exact .fault _ hp
      · split at h
        · cases h; exact .fault _ hp
        · cases h; exact .readCr _ hp

theorem setterStep_effect {f : Field} {w : Word} (h : setterStep f w s = .next t) : Effect s t := by
  unfold setterStep at h
  split at h
  · exact whenClocked_effect (fun h => by cases h; exact .readCr _ (.refl s)) h
  · split at h
    · cases h; exact fieldWrite_effect _ _ _ s
    · simp at h
  · cases h; exact .done _ (.refl s)
  · simp at h

theorem streamStep_effect {d : Bool} {a b n : Word} (h : streamStep d a b n s = .next t) : Effect s t := by
  unfold streamStep at h
  split at h
  · exact whenClocked_effect streamStart_effect h
  · cases h; exact directionWrite_effect _ _ s
  · exact .after (by constructor <;> simp) (chunkLoop_effect h)
  · cases h; exact .writePort _ _ _ (by decide) (.refl s)
  · exact .after (by constructor <;> simp) (writeLoop_effect h)
  · exact gateTest_effect readStart_effect h
  · obtain ⟨-, rfl⟩ := storeWord_next.mp h
    exact .store _ _ _ (.refl s)
  · exact .after (by constructor <;> simp) (readLoop_effect h)
  · simp at h

theorem execWaitrdy_effect (h : execWaitrdy s = .next t) : Effect s t := by
  unfold execWaitrdy at h
  split at h
  · exact whenClocked_effect (fun h => by cases h; exact .readCr _ (.refl s)) h
  · exact gateTest_effect (fun h => by cases h; exact .done _ (.refl s)) h
  · simp at h

theorem execInit_effect {a m w o : Word} (h : execInit a m w o s = .next t) : Effect s t := by
  unfold execInit at h
  split at h
  · split at h
    · cases h
    · cases h; exact .hook _ (.refl s)
  · cases h; exact .readCr _ (by constructor <;> simp)
  · cases h; exact fieldWrite_effect _ _ _ s
  · cases h; exact .readCr _ (.refl s)
  · cases h; exact fieldWrite_effect _ _ _ s
  · cases h; exact .readCr _ (.refl s)
  · cases h; exact fieldWrite_effect _ _ _ s
  · cases h; exact .readCr _ (.refl s)
  · cases h; exact fieldWrite_effect _ _ _ s
  · cases h; exact .done _ (.refl s)
  · simp at h

theorem execRstcnt_effect (h : execRstcnt s = .next t) : Effect s t := by
  unfold execRstcnt at h
  split at h
  · exact whenClocked_effect (fun h => by cases h; exact .readCr _ (.refl s)) h
  · cases h; exact .writeCr _ _ (.refl s)
  · cases h; exact .done _ (.refl s)
  · simp at h

theorem execSetkey_effect {a : Word} (h : execSetkey a s = .next t) : Effect s t := by
  unfold execSetkey at h
  split at h
  · refine whenClocked_effect (fun h => ?_) h
    split at h <;> cases h
    · exact .fault _ (by constructor <;> simp)
    · exact .readCr _ (by constructor <;> simp)
  · cases h; exact directionWrite_effect _ _ s
  · exact .after (by constructor <;> simp) (keyLoop_effect h)
  · cases h; exact .writePort _ _ _ (by decide) (.refl s)
  · exact .after (by constructor <;> simp) (keyLoop_effect h)
  · exact gateTest_effect (fun h => by cases h; exact .done _ (.refl s)) h
  · simp at h

theorem execSetiv_effect {a n : Word} (h : execSetiv a n s = .next t) : Effect s t := by
  unfold execSetiv at h
  split at h
  · refine whenClocked_effect (fun h => ?_) h
    split at h
    · cases h; exact .fault _ (by constructor <;> simp)
    · exact .after (by constructor <;> simp) (ivLoop_effect h)
  · cases h; exact .writePort _ _ _ (by decide) (.refl s)
  · exact .after (by constructor <;> simp) (ivLoop_effect h)
  · exact .after (by constructor <;> simp) (zeroLoop_effect h)
  · simp at h

/-- A step of any command is internal computation and one effect (40 R103). -/
theorem exec_effect {i : Instr} (h : exec i s = .next t) : Effect s t := by
  cases i with
  | waitrdy => exact execWaitrdy_effect h
  | init a m w o => exact execInit_effect h
  | setalgo v => exact setterStep_effect h
  | setmode v => exact setterStep_effect h
  | setswap v => exact setterStep_effect h
  | setorder v => exact setterStep_effect h
  | setkey a => exact execSetkey_effect h
  | setiv a n => exact execSetiv_effect h
  | encode a b n => exact streamStep_effect h
  | decode a b n => exact streamStep_effect h
  | rstcnt => exact execRstcnt_effect h

/-- No step of a command changes the parameters, the latch, the host's moves or the Resets to come, and none clears CLKEN. -/
theorem Effect.common (e : Effect s t) :
    t.cfg = s.cfg ∧ t.opc = s.opc ∧ t.rsv = s.rsv ∧ t.op0 = s.op0 ∧ t.op1 = s.op1 ∧ t.op2 = s.op2 ∧ t.op3 = s.op3 ∧
      t.host = s.host ∧ t.resets = s.resets ∧ (s.clken = true → t.clken = true) := by
  cases e <;> rename_i h <;>
    exact ⟨h.cfg, h.opc, h.rsv, h.op0, h.op1, h.op2, h.op3, h.host, h.resets, h.clken⟩

/-- The command in the latch is the same after a step of it. -/
theorem Effect.latch (e : Effect s t) : decodeLatch t = decodeLatch s := by
  obtain ⟨-, h1, h2, h3, h4, h5, h6, -⟩ := e.common
  simp only [decodeLatch, h1, h2, h3, h4, h5, h6]

end Sys2Proof.Machine
end

