-- ==== Sys2Proof/Laws/Flags.lean ====
section
/-! SUPPORT. The masks of 00 R10 bit by bit, the disjointness that 00 R9 gives, and the bits a read-modify-write and a field
write put into CR. -/

namespace Sys2Proof

/-- Bit `i` of a single-bit mask. -/
theorem bitMask_getLsbD (b i : Nat) : (bitMask b).getLsbD i = (decide (i < 32) && decide (i = b)) := by
  simp only [bitMask, BitVec.getLsbD_shiftLeft]
  by_cases h : i < 32 <;> by_cases h1 : i < b <;> simp [h, h1] <;> omega

/-- Bit `i` of a field's mask. -/
theorem FieldPos.mask_getLsbD (f : FieldPos) (i : Nat) :
    f.mask.getLsbD i = (decide (i < 32) && decide (f.shift ≤ i) && decide (i < f.shift + f.width)) := by
  simp only [FieldPos.mask, BitVec.getLsbD_shiftLeft, BitVec.getLsbD_ofNat, Nat.testBit_two_pow_sub_one]
  by_cases h : i < 32 <;> by_cases h1 : i < f.shift <;> simp [h, h1]
  rw [← Bool.decide_and, ← Bool.decide_and, decide_eq_decide]
  omega

/-- A bit number is in a field's list of bits exactly when it lies between the field's ends. -/
theorem FieldPos.mem_bits (f : FieldPos) (i : Nat) : i ∈ f.bits ↔ f.shift ≤ i ∧ i < f.shift + f.width := by
  simp only [FieldPos.bits, List.mem_map, List.mem_range]
  constructor
  · rintro ⟨a, ha, rfl⟩; omega
  · rintro ⟨h1, h2⟩; exact ⟨i - f.shift, by omega, by omega⟩

/-- Bit `i` of F_MASK. -/
theorem Params.fieldMask_getLsbD (p : Params) (f : Field) (i : Nat) :
    (p.fieldMask f).getLsbD i = (decide (i < 32) && decide (i ∈ (p.field f).bits)) := by
  simp only [Params.fieldMask, FieldPos.mask_getLsbD, FieldPos.mem_bits]
  by_cases h : i < 32 <;> simp [h]

/-- The seven fields share no bit (00 R9), said of the list of the named bits. -/
theorem Params.WF.nodup {p : Params} (h : p.WF) : p.namedBits.Nodup := h.2.2.1

/-- BUSY's bit is a bit of the word (00 R9). -/
theorem Params.WF.busy_lt {p : Params} (h : p.WF) : p.busyBit < 32 := h.1.1

/-- DECODE's bit is a bit of the word (00 R9). -/
theorem Params.WF.decode_lt {p : Params} (h : p.WF) : p.decodeBit < 32 := h.1.2.1

/-- CNTRST's bit is a bit of the word (00 R9). -/
theorem Params.WF.cntrst_lt {p : Params} (h : p.WF) : p.cntrstBit < 32 := h.1.2.2

/-- The disjointness of 00 R9, pair by pair. -/
theorem Params.WF.disjoint {p : Params} (h : p.WF) :
    p.busyBit ≠ p.decodeBit ∧ p.busyBit ≠ p.cntrstBit ∧ p.decodeBit ≠ p.cntrstBit ∧
    (∀ f, p.busyBit ∉ (p.field f).bits ∧ p.decodeBit ∉ (p.field f).bits ∧ p.cntrstBit ∉ (p.field f).bits) ∧
    (∀ f g i, f ≠ g → i ∈ (p.field f).bits → i ∉ (p.field g).bits) := by
  have hn := h.nodup
  simp only [Params.namedBits, List.append_assoc, List.cons_append, List.nil_append, List.nodup_cons, List.mem_cons,
    List.mem_append, List.nodup_append, not_or] at hn
  obtain ⟨⟨h1, h2, h3⟩, ⟨h4, h5⟩, h6, -, ⟨-, ⟨-, -, h9⟩, h8⟩, h7⟩ := hn
  refine ⟨h1, h2, h4, ?_, ?_⟩
  · intro f
    cases f <;> simp only [Params.field] <;> tauto
  · intro f g i hfg hf hg
    cases f <;> cases g <;> simp only [Params.field] at hf hg <;>
      first
      | exact hfg rfl
      | exact h7 _ hf _ (by simp [hg]) rfl
      | exact h7 _ hg _ (by simp [hf]) rfl
      | exact h8 _ hf _ (by simp [hg]) rfl
      | exact h8 _ hg _ (by simp [hf]) rfl
      | exact h9 _ hf _ hg rfl
      | exact h9 _ hg _ hf rfl

/-- Bit `i` of what RmwCR writes. -/
theorem rmwValue_getLsbD (tmp clear set : Word) (i : Nat) :
    (rmwValue tmp clear set).getLsbD i = ((tmp.getLsbD i && (decide (i < 32) && !clear.getLsbD i)) || set.getLsbD i) := by
  simp [rmwValue]

/-- A field value has no bit outside its field (42 R134). -/
theorem Params.fieldValue_outside (p : Params) (f : Field) (v : Word) : p.fieldValue f v &&& ~~~p.fieldMask f = 0#32 := by
  ext i
  simp [Params.fieldValue]

/-- The stored mask, bit by bit (40 R107). -/
theorem Params.storedMask_getLsbD (p : Params) (i : Nat) :
    p.storedMask.getLsbD i =
      (decide (i < 32) && (decide (i = p.decodeBit) || decide (i ∈ p.algo.bits) || decide (i ∈ p.mode.bits) ||
        decide (i ∈ p.swap.bits) || decide (i ∈ p.order.bits))) := by
  simp only [Params.storedMask, BitVec.getLsbD_or, Params.decodeMask, bitMask_getLsbD, Params.fieldMask_getLsbD, Params.field]
  by_cases h : i < 32
  · simp only [h]; congr
  · simp [h]

end Sys2Proof
end

