-- ==== Sys2Proof/Laws/Memory.lean ====
section
/-! SUPPORT. The laws of host memory (20 R62): a byte reads as last written, other bytes are left alone, and every write
keeps the canonical form. -/

namespace Sys2Proof.Machine

/-- A byte written to a canonical memory reads back. -/
theorem Memory.read_write_same (a : Nat) (b : Byte) (lo : Nat) (m : List Host.Cell) (h : Memory.wfFrom lo m = true) :
    Memory.read a (Memory.write a b m) = b := by
  induction m generalizing lo with
  | nil => by_cases hb : b = 0#8 <;> simp [Memory.write, Memory.read, hb]
  | cons c m ih =>
    obtain ⟨k, c⟩ := c
    simp only [Memory.wfFrom, Bool.and_eq_true] at h
    have rest := read_unlisted (lo := k + 1) (m := m) h.2
    simp only [Memory.write]
    split
    · split
      · rename_i hlt hb
        rw [Memory.read, if_neg (by omega), rest a (by omega), hb]
      · simp [Memory.read]
    · split
      · split
        · rename_i hk hb
          rw [rest a (by omega), hb]
        · simp [Memory.read]
      · rename_i hk
        rw [Memory.read, if_neg hk]
        exact ih (k + 1) h.2
where
  /-- An address below every listed one reads 0. -/
  read_unlisted {lo : Nat} {m : List Host.Cell} (h : Memory.wfFrom lo m = true) (a : Nat) (ha : a < lo) :
      Memory.read a m = 0#8 := by
    induction m generalizing lo with
    | nil => rfl
    | cons c m ih =>
      obtain ⟨k, c⟩ := c
      simp only [Memory.wfFrom, Bool.and_eq_true, decide_eq_true_eq] at h
      rw [Memory.read, if_neg (by omega)]
      exact ih h.2 (by omega)

/-- A write of one byte leaves every other byte alone, in canonical form or not. -/
theorem Memory.read_write_other (a a' : Nat) (b : Byte) (m : List Host.Cell) (h : a' ≠ a) :
    Memory.read a' (Memory.write a b m) = Memory.read a' m := by
  induction m with
  | nil => by_cases hb : b = 0#8 <;> simp [Memory.write, Memory.read, hb, h]
  | cons c m ih =>
    obtain ⟨k, c⟩ := c
    simp only [Memory.write]
    split
    · split
      · rfl
      · simp [Memory.read, h]
    · split
      · rename_i hk
        subst hk
        split <;> simp [Memory.read, h]
      · simp only [Memory.read]
        split
        · rfl
        · exact ih

/-- A write keeps the canonical form, from any lower bound on the addresses. -/
theorem Memory.write_wfFrom (a : Nat) (b : Byte) (lo : Nat) (m : List Host.Cell) (hlo : lo ≤ a) (ha : a < 2 ^ 32)
    (h : Memory.wfFrom lo m = true) : Memory.wfFrom lo (Memory.write a b m) = true := by
  induction m generalizing lo with
  | nil => by_cases hb : b = 0#8 <;> simp [Memory.write, Memory.wfFrom, hb, hlo]; omega
  | cons c m ih =>
    obtain ⟨k, c⟩ := c
    simp only [Memory.wfFrom, Bool.and_eq_true, decide_eq_true_eq] at h
    obtain ⟨⟨⟨h1, h2⟩, h3⟩, h4⟩ := h
    simp only [Memory.write]
    split
    · rename_i hlt
      split
      · simp [Memory.wfFrom, h1, h3, h4]; omega
      · rename_i hb
        simp [Memory.wfFrom, hlo, hb, h3, h4]; omega
    · split
      · rename_i hk
        subst hk
        split
        · exact weaken (lo := a + 1) h4 (by omega)
        · rename_i hb
          simp [Memory.wfFrom, hlo, hb, h4]; omega
      · simp only [Memory.wfFrom, Bool.and_eq_true, decide_eq_true_eq]
        exact ⟨⟨⟨h1, h2⟩, h3⟩, ih (k + 1) (by omega) h4⟩
where
  /-- A lower bound may be lowered. -/
  weaken {lo lo' : Nat} {m : List Host.Cell} (h : Memory.wfFrom lo m = true) (hl : lo' ≤ lo) :
      Memory.wfFrom lo' m = true := by
    cases m with
    | nil => rfl
    | cons c m =>
      obtain ⟨k, c⟩ := c
      simp only [Memory.wfFrom, Bool.and_eq_true, decide_eq_true_eq] at h ⊢
      exact ⟨⟨⟨by omega, h.1.1.2⟩, h.1.2⟩, h.2⟩

/-- A write keeps the canonical form. -/
theorem Memory.write_wf (a : Nat) (b : Byte) (m : List Host.Cell) (ha : a < 2 ^ 32) (h : Memory.wf m = true) :
    Memory.wf (Memory.write a b m) = true := Memory.write_wfFrom a b 0 m (Nat.zero_le a) ha h

/-- A byte's address is in the 32-bit space. -/
theorem Memory.lane_lt (addr : Word) (i : Nat) : Memory.lane addr i < 2 ^ 32 := (addr + BitVec.ofNat 32 i).isLt

/-- The four bytes of a word lie at four addresses. -/
theorem Memory.lane_ne (addr : Word) (i k : Nat) (hi : i < 4) (hk : k < 4) (h : i ≠ k) :
    Memory.lane addr i ≠ Memory.lane addr k := by
  have := addr.isLt
  simp only [Memory.lane, BitVec.toNat_add, BitVec.toNat_ofNat]
  omega

/-- A word write, as its four byte writes. -/
theorem Memory.writeWord_eq (o : ByteOrder) (addr w : Word) (m : List Host.Cell) :
    Memory.writeWord o addr w m =
      Memory.write (Memory.lane addr 3) (Memory.laneByte o w 3)
        (Memory.write (Memory.lane addr 2) (Memory.laneByte o w 2)
          (Memory.write (Memory.lane addr 1) (Memory.laneByte o w 1)
            (Memory.write (Memory.lane addr 0) (Memory.laneByte o w 0) m))) := rfl

/-- A word write keeps the canonical form. -/
theorem Memory.writeWord_wf (o : ByteOrder) (addr w : Word) (m : List Host.Cell) (h : Memory.wf m = true) :
    Memory.wf (Memory.writeWord o addr w m) = true := by
  rw [Memory.writeWord_eq]
  exact Memory.write_wf _ _ _ (Memory.lane_lt addr 3) (Memory.write_wf _ _ _ (Memory.lane_lt addr 2)
    (Memory.write_wf _ _ _ (Memory.lane_lt addr 1) (Memory.write_wf _ _ _ (Memory.lane_lt addr 0) h)))

/-- Each byte of a written word reads back as that byte. -/
theorem Memory.read_writeWord_lane (o : ByteOrder) (addr w : Word) (m : List Host.Cell) (h : Memory.wf m = true)
    (i : Nat) (hi : i < 4) :
    Memory.read (Memory.lane addr i) (Memory.writeWord o addr w m) = Memory.laneByte o w i := by
  have w0 := Memory.write_wf _ (Memory.laneByte o w 0) m (Memory.lane_lt addr 0) h
  have w1 := Memory.write_wf _ (Memory.laneByte o w 1) _ (Memory.lane_lt addr 1) w0
  have w2 := Memory.write_wf _ (Memory.laneByte o w 2) _ (Memory.lane_lt addr 2) w1
  have other (k : Nat) (b : Byte) (m : List Host.Cell) (hk : k < 4) (hne : i ≠ k) :=
    Memory.read_write_other (Memory.lane addr k) (Memory.lane addr i) b m (Memory.lane_ne addr i k hi hk hne)
  rw [Memory.writeWord_eq]
  match i, hi with
  | 3, _ => exact Memory.read_write_same _ _ 0 _ w2
  | 2, _ => rw [other 3 _ _ (by omega) (by omega)]; exact Memory.read_write_same _ _ 0 _ w1
  | 1, _ =>
    rw [other 3 _ _ (by omega) (by omega), other 2 _ _ (by omega) (by omega)]; exact Memory.read_write_same _ _ 0 _ w0
  | 0, _ =>
    rw [other 3 _ _ (by omega) (by omega), other 2 _ _ (by omega) (by omega), other 1 _ _ (by omega) (by omega)]
    exact Memory.read_write_same _ _ 0 _ h

end Sys2Proof.Machine
end

