-- ==== Sys2Proof/Laws/PerInstr.lean ====
section
/-! SUPPORT. Statements for all instructions, one lemma per constructor: every instruction's words are a well-formed command,
whatever its operands hold (30 R82, R86, R87). -/

namespace Sys2Proof.Laws.AlwaysWellFormed

/-- The words of `i` are a well-formed command. -/
def Statement (i : Instr) : Prop := i.WF

/-- The command word of an opcode has that opcode and RSV = 0. -/
theorem header (opc : BitVec 8) : rsvOf (opc.setWidth 32) = 0#24 ∧ opcOf (opc.setWidth 32) = opc := by
  constructor
  · ext k hk
    simp [rsvOf]
  · ext k hk
    have : k < 32 := by omega
    simp [opcOf, hk, this]

/-- An instruction is well formed if its opcode is defined and takes its operands. -/
theorem of_opcode {i : Instr} (ho : 0x01#8 ≤ i.opcode ∧ i.opcode ≤ 0x0B#8)
    (hc : i.operands.length = operandCount i.opcode) : Statement i := by
  obtain ⟨h1, h2⟩ := header i.opcode
  refine ⟨h1, ?_, ?_⟩
  · show 0x01#8 ≤ opcOf (i.opcode.setWidth 32) ∧ opcOf (i.opcode.setWidth 32) ≤ 0x0B#8
    rwa [h2]
  · show i.operands.length = operandCount (opcOf (i.opcode.setWidth 32))
    rwa [h2]

theorem waitrdy : Statement .waitrdy := of_opcode (by simp only [Instr.opcode]; decide) rfl

theorem init (algo mode swap order : Word) : Statement (.init algo mode swap order) := of_opcode (by simp only [Instr.opcode]; decide) rfl

theorem setalgo (v : Word) : Statement (.setalgo v) := of_opcode (by simp only [Instr.opcode]; decide) rfl

theorem setmode (v : Word) : Statement (.setmode v) := of_opcode (by simp only [Instr.opcode]; decide) rfl

theorem setswap (v : Word) : Statement (.setswap v) := of_opcode (by simp only [Instr.opcode]; decide) rfl

theorem setorder (v : Word) : Statement (.setorder v) := of_opcode (by simp only [Instr.opcode]; decide) rfl

theorem setkey (keyAddr : Word) : Statement (.setkey keyAddr) := of_opcode (by simp only [Instr.opcode]; decide) rfl

theorem setiv (ivAddr ivLen : Word) : Statement (.setiv ivAddr ivLen) := of_opcode (by simp only [Instr.opcode]; decide) rfl

theorem encode (src dst len : Word) : Statement (.encode src dst len) := of_opcode (by simp only [Instr.opcode]; decide) rfl

theorem decode (src dst len : Word) : Statement (.decode src dst len) := of_opcode (by simp only [Instr.opcode]; decide) rfl

theorem rstcnt : Statement .rstcnt := of_opcode (by simp only [Instr.opcode]; decide) rfl

end Sys2Proof.Laws.AlwaysWellFormed
end

