-- ==== Sys2Proof/Tests/Slice0.lean ====
section
/-! SUPPORT. Tests, each with its source in the spec: words decode as 30 R84 and R90 write them; ill-formed commands and
parameter sets are refused; single steps answer what the vectors of spec/95 say under P_EX; and, for every statement of
Certificates/Slice0/Obligations.lean with hypotheses, a state that meets them (`witness_<statement>`). -/

namespace Sys2Proof.Tests

open Sys2Proof.Machine

/-! ### Small states -/

/-- An initialised, idle CCD under P_EX with CR 0x250 and the mirrors of V3.1 (spec 95 section 3). -/
def calm : State :=
  { State.reset with
    cfg := Params.pEx, clken := true, crLast := 0x250#32, tmp := 0x250#32,
    modeM := 1#32, swapM := 1#32, orderM := 2#32 }

/-- `calm` with command `i` in the latch, at position `p`. -/
def lab (p : Pos) (i : Instr) : State :=
  { calm with
    phase := .active p, opc := i.opcode,
    op0 := i.operands.getD 0 0#32, op1 := i.operands.getD 1 0#32, op2 := i.operands.getD 2 0#32,
    op3 := i.operands.getD 3 0#32 }

/-- The answer is a next state with the property. -/
def goesOn (o : Out) (f : State → Bool) : Bool :=
  match o with
  | .next t => f t
  | _ => false

/-! ### Decoding: words written out from 30 R84 and R90 -/

theorem test_decode_waitrdy : decode [0x00000001#32] = .ok (.waitrdy, []) := by decide

theorem test_decode_init :
    decode [0x00000002#32, 0#32, 1#32, 1#32, 2#32] = .ok (.init 0#32 1#32 1#32 2#32, []) := by decide

theorem test_decode_setalgo : decode [0x00000003#32, 5#32] = .ok (.setalgo 5#32, []) := by decide

theorem test_decode_setmode : decode [0x00000004#32, 0x12#32] = .ok (.setmode 0x12#32, []) := by decide

theorem test_decode_setswap : decode [0x00000005#32, 3#32] = .ok (.setswap 3#32, []) := by decide

theorem test_decode_setorder : decode [0x00000006#32, 0x80000000#32] = .ok (.setorder 0x80000000#32, []) := by decide

theorem test_decode_setkey : decode [0x00000007#32, 0x20000000#32] = .ok (.setkey 0x20000000#32, []) := by decide

theorem test_decode_setiv :
    decode [0x00000008#32, 0x20000040#32, 2#32] = .ok (.setiv 0x20000040#32 2#32, []) := by decide

theorem test_decode_encode :
    decode [0x00000009#32, 0x20000100#32, 0x20000200#32, 12#32] =
      .ok (.encode 0x20000100#32 0x20000200#32 12#32, []) := by decide

theorem test_decode_decode :
    decode [0x0000000A#32, 0x20000200#32, 0x20000300#32, 12#32] =
      .ok (.decode 0x20000200#32 0x20000300#32 12#32, []) := by decide

theorem test_decode_rstcnt : decode [0x0000000B#32] = .ok (.rstcnt, []) := by decide

/-- The zero word is never a command (30 R86). -/
theorem test_decode_zero : decode [0#32] = .error (.reservedOpcode 0#8) := by decide

/-- A reserved opcode takes no operand word; the last of them (95 section 7). -/
theorem test_decode_reserved : decode [0x000000FF#32] = .error (.reservedOpcode 0xFF#8) := by decide

/-- RSV not 0 is illegal, and still takes its operand words: with one missing the command is not all there (30 R82, R86). -/
theorem test_decode_rsv :
    decode [0x80000009#32, 0#32, 0#32, 0#32] = .error (.reservedBits 0x800000#24) ∧
      decode [0x80000009#32, 0#32, 0#32] = .error .truncated := by decide

/-- Two commands in a row: the word after the operand words is the next command word (30 R82). -/
theorem test_decode_rest : decode [0x00000003#32, 5#32, 0x00000001#32] = .ok (.setalgo 5#32, [0x00000001#32]) := by decide

/-- The assembler text of 30 R88 with numbers in decimal. -/
theorem test_asm : (Instr.setiv 64#32 2#32).asm = "SETIV 64, 2" := by decide

/-- The opcode table's bit numbering: the second word's bits count on from the first's. -/
theorem test_table_word : decodeTableWord 64 0x500000003 = some (.setalgo 5#32) ∧ decodeTableWord 32 3 = some (.setalgo 0#32) :=
  by decide

/-! ### Ill-formed terms are refused -/

/-- RSV = 1 on SETALGO (30 R90). -/
theorem test_wf_rsv : ¬ (⟨0x00000103#32, [0#32]⟩ : Command).WF := by decide

/-- A reserved opcode (30 R90). -/
theorem test_wf_opcode : ¬ (⟨0x0000000C#32, []⟩ : Command).WF ∧ ¬ (⟨0#32, []⟩ : Command).WF := by decide

/-- SETALGO without its operand, and with two (30 R82). -/
theorem test_wf_count : ¬ (⟨3#32, []⟩ : Command).WF ∧ ¬ (⟨3#32, [0#32, 0#32]⟩ : Command).WF := by decide

theorem test_wf_good : (⟨3#32, [5#32]⟩ : Command).WF := by decide

/-- A single bit outside the word (00 R9). -/
theorem test_params_bit : ¬ ({ Params.pEx with busyBit := 32 } : Params).WF := by decide

/-- A field of no width, and one that runs out of the word (00 R9). -/
theorem test_params_width :
    ¬ ({ Params.pEx with order := ⟨8, 0⟩ } : Params).WF ∧ ¬ ({ Params.pEx with order := ⟨31, 2⟩ } : Params).WF := by decide

/-- Two fields share bit 0 (00 R9). -/
theorem test_params_disjoint : ¬ ({ Params.pEx with decodeBit := 0 } : Params).WF := by decide

/-- A code too wide for its field, and two equal codes (00 R9). -/
theorem test_params_algo :
    ¬ ({ Params.pEx with codeAlgoC := 4#32 } : Params).WF ∧ ¬ ({ Params.pEx with codeAlgoC := 1#32 } : Params).WF := by decide

/-- The same of the mode codes (00 R9). -/
theorem test_params_mode :
    ¬ ({ Params.pEx with codeCtr := 4#32 } : Params).WF ∧ ¬ ({ Params.pEx with codeCtr := 1#32 } : Params).WF := by decide

/-- A legal swap or order value too wide for its field (00 R9). -/
theorem test_params_legal :
    ¬ ({ Params.pEx with swapLegal := [4#32] } : Params).WF ∧ ¬ ({ Params.pEx with orderLegal := [4#32] } : Params).WF := by
  decide

/-- Offsets and the base: multiples of 4, the offsets distinct (00 R8, R9). -/
theorem test_params_offsets :
    ¬ ({ Params.pEx with offKey := 2#32 } : Params).WF ∧ ¬ ({ Params.pEx with offKey := 0#32 } : Params).WF ∧
      ¬ ({ Params.pEx with regBase := 2#32 } : Params).WF := ⟨by decide, by decide, by decide⟩

/-- A size of 0 (00 R8). -/
theorem test_params_size : ¬ ({ Params.pEx with keyWordsC := 0#32 } : Params).WF := by decide

/-! ### One step of each command, from the vectors of spec/95 under P_EX -/

/-- V5.2: a gate that read 0x251 is busy and reads CR again. -/
theorem test_waitrdy_busy :
    goesOn (exec .waitrdy { lab .gate .waitrdy with tmp := 0x251#32, answers := [1#32] })
      (fun t => t.phase == .active .gate && t.trace == [.busRd .cr 0x251#32]) = true := by decide

/-- V5.3: 0xFFFFFFFE ends the gate: bit 0 alone counts. -/
theorem test_waitrdy_ready :
    goesOn (exec .waitrdy { lab .gate .waitrdy with tmp := 0xFFFFFFFE#32 })
      (fun t => t.phase == .idle && t.res == 0#32 && t.trace == [.done .ok]) = true := by decide

/-- V3.1, P4: INIT needs no CLKEN, and its first event is the hook. -/
theorem test_init_hook :
    goesOn (exec (.init 0#32 1#32 1#32 2#32) { lab .start (.init 0#32 1#32 1#32 2#32) with clken := false })
      (fun t => t.trace == [.hook] && t.clken == false) = true := by decide

/-- V3.1: the fourth CR write of INIT: 0x050 read, 0x250 written. -/
theorem test_init_order :
    goesOn (exec (.init 0#32 1#32 1#32 2#32)
        { lab (.fieldWrite .order) (.init 0#32 1#32 1#32 2#32) with tmp := 0x050#32, orderM := 0#32 })
      (fun t => t.crLast == 0x250#32 && t.orderM == 2#32 && t.phase == .active .finish) = true := by decide

/-- V3.3: SETALGO 5 from 0x250 writes 0x254, and the mirror holds 5. -/
theorem test_setalgo_five :
    goesOn (exec (.setalgo 5#32) (lab (.fieldWrite .algo) (.setalgo 5#32)))
      (fun t => t.crLast == 0x254#32 && t.algoM == 5#32) = true := by decide

/-- V3.4: SETALGO 4 writes 0x250: the field takes the low bits, the mirror the whole value. -/
theorem test_setalgo_four :
    goesOn (exec (.setalgo 4#32) (lab (.fieldWrite .algo) (.setalgo 4#32)))
      (fun t => t.crLast == 0x250#32 && t.algoM == 4#32) = true := by decide

/-- V3.6: SETMODE 0x12 from 0x250 writes 0x260. -/
theorem test_setmode_wide :
    goesOn (exec (.setmode 0x12#32) (lab (.fieldWrite .mode) (.setmode 0x12#32)))
      (fun t => t.crLast == 0x260#32 && t.modeM == 0x12#32) = true := by decide

/-- V3.9: an unnamed bit that read 1 is written back. -/
theorem test_setmode_unnamed :
    goesOn (exec (.setmode 2#32) { lab (.fieldWrite .mode) (.setmode 2#32) with tmp := 0x80000250#32 })
      (fun t => t.crLast == 0x80000260#32) = true := by decide

/-- V3.7: SETSWAP 3 from 0x250 writes 0x2D0. -/
theorem test_setswap :
    goesOn (exec (.setswap 3#32) (lab (.fieldWrite .swap) (.setswap 3#32)))
      (fun t => t.crLast == 0x2D0#32 && t.swapM == 3#32) = true := by decide

/-- V3.8: SETORDER 0x80000000 from 0x250 writes 0x050: the shift drops bit 31. -/
theorem test_setorder :
    goesOn (exec (.setorder 0x80000000#32) (lab (.fieldWrite .order) (.setorder 0x80000000#32)))
      (fun t => t.crLast == 0x050#32 && t.orderM == 0x80000000#32) = true := by decide

/-- V3.11: RSTCNT from 0x250 writes 0x650. -/
theorem test_rstcnt_write :
    goesOn (exec .rstcnt (lab .rmwWrite .rstcnt)) (fun t => t.crLast == 0x650#32) = true := by decide

/-- V3.12, V3.13: after 0x650 was written, a CR read gives CNTRST 1 where it is sticky, and 0 where it clears itself. -/
theorem test_rstcnt_readback :
    { calm with crLast := 0x650#32, answers := [0#32], cfg := { Params.pEx with cntrstReadback := .sticky } }.crAnswer = 0x650#32 ∧
      { calm with crLast := 0x650#32, answers := [0x400#32] }.crAnswer = 0x250#32 := by decide

/-- V4.1: SETKEY with CR 0x252 writes 0x250. -/
theorem test_setkey_direction :
    goesOn (exec (.setkey 0x20000000#32) { lab .rmwWrite (.setkey 0x20000000#32) with crLast := 0x252#32, tmp := 0x252#32 })
      (fun t => t.crLast == 0x250#32) = true := by decide

/-- V4.4: 0xFFFFFFE4 runs past the top; 0xFFFFFFE0 does not. -/
theorem test_setkey_wrap :
    goesOn (exec (.setkey 0xFFFFFFE4#32) { lab .start (.setkey 0xFFFFFFE4#32) with answers := [0#32] })
        (fun t => t.fault == some .addressWrap && t.trace == []) = true ∧
      goesOn (exec (.setkey 0xFFFFFFE0#32) { lab .start (.setkey 0xFFFFFFE0#32) with answers := [0#32] })
        (fun t => t.fault == none && t.trace == [.busRd .cr 0x250#32]) = true := by decide

/-- V4.5, V4.7: after the last IV word, counter mode adds zero words; mode value 0x12 does not. -/
theorem test_setiv_zero_fill :
    goesOn (exec (.setiv 0x20000040#32 2#32)
        { lab .ivWritten (.setiv 0x20000040#32 2#32) with modeM := 2#32, n := 2#32, j := 1#32 })
        (fun t => t.trace == [.busWr .iv 0#32] && t.j == 0#32) = true ∧
      goesOn (exec (.setiv 0x20000040#32 2#32)
        { lab .ivWritten (.setiv 0x20000040#32 2#32) with modeM := 0x12#32, n := 2#32, j := 1#32 })
        (fun t => t.trace == [.done .ok]) = true := by decide

/-- V4.8, V4.9: a length of 0 checks nothing; a length of 1 is misaligned. -/
theorem test_setiv_empty :
    goesOn (exec (.setiv 0x20000041#32 0#32) { lab .start (.setiv 0x20000041#32 0#32) with modeM := 2#32 })
        (fun t => t.trace == [.done .ok]) = true ∧
      goesOn (exec (.setiv 0x20000041#32 1#32) (lab .start (.setiv 0x20000041#32 1#32)))
        (fun t => t.fault == some .misaligned && t.trace == []) = true := by decide

/-- V6.9: the length is checked before the buffers, and the source before the destination. -/
theorem test_encode_priority :
    goesOn (exec (.encode 0x20000102#32 0x20000200#32 10#32) (lab .start (.encode 0x20000102#32 0x20000200#32 10#32)))
        (fun t => t.trace == [.done .align] && t.res == 1#32) = true ∧
      goesOn (exec (.encode 0xFFFFFFF0#32 0x103#32 8#32) (lab .start (.encode 0xFFFFFFF0#32 0x103#32 8#32)))
        (fun t => t.fault == some .addressWrap) = true := by decide

/-- V6.1: word J of the output is stored at dst + 4J, here little-endian. -/
theorem test_encode_store :
    goesOn (exec (.encode 0x20000100#32 0x20000200#32 4#32)
        { lab .chunkStore (.encode 0x20000100#32 0x20000200#32 4#32) with
          sz := 4#32, n := 4#32, endJ := 4#32, j := 1#32, v := 0x5A5A5A5B#32 })
      (fun t => t.trace == [.memWr 0x20000204#32 0x5A5A5A5B#32] &&
        t.mem == [(0x20000204, 0x5B#8), (0x20000205, 0x5A#8), (0x20000206, 0x5A#8), (0x20000207, 0x5A#8)]) = true := by decide

/-- V6.2: DECODE's direction write: 0x250 read, 0x252 written. -/
theorem test_decode_direction :
    goesOn (exec (.decode 0x20000200#32 0x20000300#32 4#32) (lab .rmwWrite (.decode 0x20000200#32 0x20000300#32 4#32)))
      (fun t => t.crLast == 0x252#32) = true := by decide

/-- V6.5: an unrecognised algorithm, any length: no event. -/
theorem test_decode_unsupported :
    goesOn (exec (.decode 0x101#32 0x103#32 10#32) { lab .start (.decode 0x101#32 0x103#32 10#32) with algoM := 5#32 })
      (fun t => t.trace == [.done .unsupportedAlgo] && t.res == 2#32) = true := by decide

/-- V8.1: ENCODE as the first command after reset: NotInitialised, no event, RES 0. -/
theorem test_first_command :
    goesOn (step (State.reset.withFetchWord 32 0x00000009))
      (fun t => t.fault == some .notInitialised && t.phase == .faulted && t.res == 0#32 &&
        t.trace == [.accept [9#32, 0#32, 0#32, 0#32]]) = true := by decide

/-- P4: INIT as the first command after reset: the hook. -/
theorem test_first_init :
    goesOn (step (State.reset.withFetchWord 32 0x00000002)) (fun t => t.trace.head? == some .hook) = true := by decide

/-- 95 section 7: 0x00000102 with CLKEN 0 is ILLEGAL and no fault. -/
theorem test_illegal_init :
    goesOn (step (State.reset.withFetchWord 160 0x00000102)) (fun t => t.res == 3#32 && t.fault == none && t.phase == .idle) =
      true := by decide

/-- 70 R245 item 1: SETALGO 1 is conformant; SETALGO 5 is not (95 P3, 93 U1), though it leaves AlgoB's code in the field. -/
theorem test_conformance_field_value :
    conformant Params.pEx [.busWr .cr 0x254#32, .busRd .cr 0x250#32, .accept [3#32, 1#32]] = true ∧
      conformant Params.pEx [.busWr .cr 0x254#32, .busRd .cr 0x250#32, .accept [3#32, 5#32]] = false := by decide

/-- 40 R117: a run ends with the last command's Done; a command that a Reset aborts has none. -/
theorem test_run_ended :
    lastCommandDone [.done .ok, .busRd .cr 0#32, .accept [1#32]] = true ∧
      lastCommandDone [.reset, .busRd .cr 1#32, .accept [1#32], .done .ok, .accept [11#32]] = false := by decide

/-- TD_XOR(K) after a Reset that aborts a chunk: the later reads answer the later writes (log 25). -/
theorem test_xor_after_reset :
    xorAnswers 0xF#32 [.busRd .data 0xD#32, .busWr .data 2#32, .reset, .busWr .data 1#32] = true ∧
      xorAnswers 0xF#32 [.busRd .data 0xE#32, .busWr .data 2#32, .reset, .busWr .data 1#32] = false := by decide

/-- 42 R131: a held hook call, a Reset, and the next INIT's call returns. -/
theorem test_hook_after_reset :
    goesOn (step { State.reset with hookHolds := [true, false], resets := [0], opc := 2#8, phase := .active .start })
      (fun t => t.hookHolds == [false] && t.phase == .idle) = true := by decide

/-! ### Witnesses: for each statement with hypotheses, a state and operands that meet them (each clause at a boundary) -/

/-- A command whose words are all there: an illegal one that takes one operand word. -/
theorem witness_IllegalWordsAreRejected : operandCount (opcOf 0x00000103#32) ≤ [0#32].length := by decide

theorem witness_LengthIsFixedByOpcode :
    [0#32].length = operandCount (opcOf 0x00000103#32) ∧ (0x0C#8 ≤ 0xFF#8) ∧ (0x0C#8 ≤ 0x0C#8) := by decide

theorem witness_EveryOperandValueIsAccepted_first : 0x01#8 ≤ 0x01#8 ∧ 0x01#8 ≤ 0x0B#8 := by decide

theorem witness_EveryOperandValueIsAccepted_last : 0x01#8 ≤ 0x0B#8 ∧ 0x0B#8 ≤ 0x0B#8 := by decide

theorem witness_StepRunsTheLatchedCommand :
    (lab .gate .waitrdy).phase = .active .gate ∧ decodeLatch (lab .gate .waitrdy) = .ok .waitrdy ∧
      (lab .gate .waitrdy).resets = [] := by decide

theorem witness_StepRunsTheLatchedCommand_reset_near :
    { lab .gate .waitrdy with resets := [1] }.phase = .active .gate ∧
      decodeLatch { lab .gate .waitrdy with resets := [1] } = .ok .waitrdy ∧
      { lab .gate .waitrdy with resets := [1] }.resets = (0 + 1) :: [] := by decide

/-- SETKEY with the word of a WAITRDY behind it in the same move. -/
theorem witness_AcceptLoadsTheLatch :
    { calm with host := [.command (encode (.setkey 8#32) ++ [1#32])] }.resets = [] ∧
      { calm with host := [.command (encode (.setkey 8#32) ++ [1#32])] }.phase = .idle ∧
      { calm with host := [.command (encode (.setkey 8#32) ++ [1#32])] }.host =
        .command (encode (.setkey 8#32) ++ [1#32]) :: [] ∧
      (Instr.setkey 8#32).operands.length < 2 := by decide

/-- An illegal word (RSV = 1 on SETALGO) with its one operand word, and a reserved opcode with none, each with a word behind. -/
theorem witness_AcceptTakesTheWordsOfItsOpcode :
    ({ calm with host := [.command [0x00000103#32, 7#32, 1#32]] }.resets = [] ∧
      { calm with host := [.command [0x00000103#32, 7#32, 1#32]] }.phase = .idle ∧
      { calm with host := [.command [0x00000103#32, 7#32, 1#32]] }.host = .command (0x00000103#32 :: ([7#32] ++ [1#32])) :: [] ∧
      [7#32].length = operandCount (opcOf 0x00000103#32)) ∧
      ([] : List Word).length = operandCount (opcOf 0x000000FF#32) := by decide

theorem witness_HostStoresAndWaitsWhileIdle :
    ({ calm with host := [.store 0xFFFFFFFF#32 1#8] }.resets = [] ∧ { calm with host := [.store 0xFFFFFFFF#32 1#8] }.phase = .idle ∧
      { calm with host := [.store 0xFFFFFFFF#32 1#8] }.host = .store 0xFFFFFFFF#32 1#8 :: [] ∧ Memory.wf calm.mem = true) ∧
      ({ calm with host := [.command [2#32, 0#32, 0#32, 0#32]] }.host = .command [2#32, 0#32, 0#32, 0#32] :: [] ∧
        [0#32, 0#32, 0#32].length < operandCount (opcOf 2#32)) := by decide

theorem witness_IllegalCompletesAtOnce_rsv :
    { lab .start .waitrdy with rsv := 1#24 }.resets = [] ∧ { lab .start .waitrdy with rsv := 1#24 }.phase = .active .start ∧
      { lab .start .waitrdy with rsv := 1#24 }.rsv ≠ 0#24 := by decide

theorem witness_IllegalCompletesAtOnce_opc :
    { lab .start .waitrdy with opc := 0x0C#8 }.resets = [] ∧
      { lab .start .waitrdy with opc := 0x0C#8 }.phase = .active .start ∧
      0x0C#8 ≤ { lab .start .waitrdy with opc := 0x0C#8 }.opc ∧ { lab .start .waitrdy with opc := 0x00#8 }.opc = 0x00#8 := by
  decide

theorem witness_NoHostMoveUnlessIdle :
    (∃ t, step { lab .finish .rstcnt with host := [.command [1#32]] } = .next t) ∧
      { lab .finish .rstcnt with host := [.command [1#32]] }.phase ≠ .idle := ⟨⟨_, rfl⟩, by decide⟩

theorem witness_ResetWinsAndClears : { lab .gate .waitrdy with resets := [0, 3] }.resets = 0 :: [3] := by decide

theorem witness_FaultedUntilReset :
    { calm with phase := .faulted, fault := some .misaligned }.phase = .faulted ∧
      { calm with phase := .faulted, fault := some .misaligned }.resets = [] ∧
      { calm with phase := .faulted, fault := some .misaligned, resets := [1] }.resets = (0 + 1) :: [] := by decide

theorem witness_IdleWaitsForACommand : calm.resets = [] ∧ calm.phase = .idle ∧ calm.host = [] := by decide

theorem witness_NotInitialisedFault :
    Instr.waitrdy.isInit = false ∧ { lab .start .waitrdy with clken := false }.phase = .active .start ∧
      { lab .start .waitrdy with clken := false }.clken = false := by decide

/-- `calm`'s algorithm is AlgoA: blocks of 4 words, keys of 8; ALGO_M 5 is no algorithm's code (V3.3). -/
theorem witness_sizes :
    4#32 = calm.cfg.blockWords calm.algoM ∧ 8#32 = calm.cfg.keyWords calm.algoM ∧
      0#32 = calm.cfg.blockWords 5#32 ∧ 0#32 = calm.cfg.keyWords 5#32 := by decide

theorem witness_StreamChecksInOrder_unsupported :
    { lab .start (.encode 1#32 2#32 10#32) with algoM := 5#32 }.phase = .active .start ∧
      { lab .start (.encode 1#32 2#32 10#32) with algoM := 5#32 }.clken = true ∧
      0#32 = { lab .start (.encode 1#32 2#32 10#32) with algoM := 5#32 }.cfg.blockWords
        { lab .start (.encode 1#32 2#32 10#32) with algoM := 5#32 }.algoM := by decide

/-- Length 5 = 4 + 1, the least above a block that is no multiple. -/
theorem witness_StreamChecksInOrder_align :
    (lab .start (.encode 1#32 2#32 5#32)).phase = .active .start ∧ (lab .start (.encode 1#32 2#32 5#32)).clken = true ∧
      4#32 = (lab .start (.encode 1#32 2#32 5#32)).cfg.blockWords (lab .start (.encode 1#32 2#32 5#32)).algoM ∧
      4#32 ≠ 0#32 ∧ (5#32).toNat % (4#32).toNat ≠ 0 := by decide

theorem witness_StreamChecksInOrder_source_misaligned :
    4#32 ≠ 0#32 ∧ (4#32).toNat % (4#32).toNat = 0 ∧ 4#32 ≠ 0#32 ∧ (0xFFFFFFF1#32).toNat % 4 ≠ 0 := by decide

/-- 0xFFFFFFF4 + 16 is the first aligned address past the top for one block. -/
theorem witness_StreamChecksInOrder_source_wraps :
    4#32 ≠ 0#32 ∧ (4#32).toNat % (4#32).toNat = 0 ∧ (0xFFFFFFF4#32).toNat % 4 = 0 ∧
      (0xFFFFFFF4#32).toNat + 4 * (4#32).toNat > 2 ^ 32 ∧ 4#32 ≠ 0#32 := by decide

/-- 0xFFFFFFF0 + 16 = 2^32 exactly: the source passes, the destination is misaligned. -/
theorem witness_StreamChecksInOrder_destination_misaligned :
    4#32 ≠ 0#32 ∧ (4#32).toNat % (4#32).toNat = 0 ∧ 4#32 ≠ 0#32 ∧ (0xFFFFFFF0#32).toNat % 4 = 0 ∧
      (0xFFFFFFF0#32).toNat + 4 * (4#32).toNat ≤ 2 ^ 32 ∧ (0x102#32).toNat % 4 ≠ 0 := by decide

theorem witness_StreamChecksInOrder_destination_wraps :
    4#32 ≠ 0#32 ∧ (4#32).toNat % (4#32).toNat = 0 ∧ 4#32 ≠ 0#32 ∧ (0xFFFFFFF0#32).toNat % 4 = 0 ∧
      (0xFFFFFFF0#32).toNat + 4 * (4#32).toNat ≤ 2 ^ 32 ∧ (0xFFFFFFF4#32).toNat % 4 = 0 ∧
      (0xFFFFFFF4#32).toNat + 4 * (4#32).toNat > 2 ^ 32 := by decide

theorem witness_StreamChecksInOrder_passes :
    (4#32 ≠ 0#32 ∧ (0#32).toNat % (4#32).toNat = 0 ∧ 0#32 = 0#32) ∧
      (4#32 ≠ 0#32 ∧ (4#32).toNat % (4#32).toNat = 0 ∧ (0xFFFFFFF0#32).toNat % 4 = 0 ∧
        (0xFFFFFFF0#32).toNat + 4 * (4#32).toNat ≤ 2 ^ 32 ∧ (0x100#32).toNat % 4 = 0 ∧
        (0x100#32).toNat + 4 * (4#32).toNat ≤ 2 ^ 32) := by decide

theorem witness_WaitrdyPollsThenCompletes :
    ((lab .start .waitrdy).phase = .active .start ∧ (lab .start .waitrdy).clken = true) ∧
      ({ lab .gate .waitrdy with tmp := 1#32 }.phase = .active .gate ∧
        ({ lab .gate .waitrdy with tmp := 1#32 }.tmp).getLsbD (lab .gate .waitrdy).cfg.busyBit = true) ∧
      ((lab .gate .waitrdy).phase = .active .gate ∧
        (lab .gate .waitrdy).tmp.getLsbD (lab .gate .waitrdy).cfg.busyBit = false) := by decide

theorem witness_SettersWriteFieldAndMirror :
    ((lab .start (.setmode 2#32)).phase = .active .start ∧ (lab .start (.setmode 2#32)).clken = true) ∧
      (0x260#32 = ((lab (.fieldWrite .mode) (.setmode 2#32)).tmp &&&
          ~~~((lab (.fieldWrite .mode) (.setmode 2#32)).cfg.fieldMask .mode)) |||
          ((2#32 <<< ((lab (.fieldWrite .mode) (.setmode 2#32)).cfg.field .mode).shift) &&&
            (lab (.fieldWrite .mode) (.setmode 2#32)).cfg.fieldMask .mode) ∧
        (lab (.fieldWrite .mode) (.setmode 2#32)).phase = .active (.fieldWrite .mode)) ∧
      (lab .finish (.setmode 2#32)).phase = .active .finish := by decide

theorem witness_InitEnablesAndPushesAllFour :
    ((lab .start (.init 0#32 2#32 1#32 2#32)).phase = .active .start ∧ (lab .start (.init 0#32 2#32 1#32 2#32)).hookHeld = false) ∧
      (lab .clockOn (.init 0#32 2#32 1#32 2#32)).phase = .active .clockOn ∧
      (Field.mode ≠ .algo ∧
        (lab (.fieldRead .mode) (.init 0#32 2#32 1#32 2#32)).phase = .active (.fieldRead .mode)) ∧
      (0x260#32 = (0x250#32 &&& ~~~(Params.pEx.fieldMask .mode)) |||
          ((2#32 <<< Params.pEx.mode.shift) &&& Params.pEx.fieldMask .mode) ∧
        (lab (.fieldWrite .mode) (.init 0#32 2#32 1#32 2#32)).phase = .active (.fieldWrite .mode) ∧
        (lab (.fieldWrite .mode) (.init 0#32 2#32 1#32 2#32)).tmp = 0x250#32) ∧
      (lab .finish (.init 0#32 2#32 1#32 2#32)).phase = .active .finish := by decide

theorem witness_InitEnablesAndPushesAllFour_other_fields :
    (0x250#32 = (0x250#32 &&& ~~~(Params.pEx.fieldMask .algo)) ||| ((0#32 <<< Params.pEx.algo.shift) &&& Params.pEx.fieldMask .algo) ∧
        (lab (.fieldWrite .algo) (.init 0#32 2#32 1#32 2#32)).phase = .active (.fieldWrite .algo)) ∧
      (0x250#32 = (0x250#32 &&& ~~~(Params.pEx.fieldMask .swap)) ||| ((1#32 <<< Params.pEx.swap.shift) &&& Params.pEx.fieldMask .swap) ∧
        (lab (.fieldWrite .swap) (.init 0#32 2#32 1#32 2#32)).phase = .active (.fieldWrite .swap)) ∧
      (0x250#32 = (0x250#32 &&& ~~~(Params.pEx.fieldMask .order)) |||
          ((2#32 <<< Params.pEx.order.shift) &&& Params.pEx.fieldMask .order) ∧
        (lab (.fieldWrite .order) (.init 0#32 2#32 1#32 2#32)).phase = .active (.fieldWrite .order)) := by decide

theorem witness_RstcntSetsTheCounterResetBit :
    ((lab .start .rstcnt).phase = .active .start ∧ (lab .start .rstcnt).clken = true) ∧
      (0x650#32 = (lab .rmwWrite .rstcnt).tmp ||| (1#32 <<< (lab .rmwWrite .rstcnt).cfg.cntrstBit) ∧
        (lab .rmwWrite .rstcnt).phase = .active .rmwWrite) ∧
      (lab .finish .rstcnt).phase = .active .finish := by decide

/-- SETKEY's checks at V4.4's boundaries. -/
theorem witness_SetkeyAtEachPosition_start :
    (8#32 = (lab .start (.setkey 0#32)).cfg.keyWords (lab .start (.setkey 0#32)).algoM ∧
        (lab .start (.setkey 0#32)).phase = .active .start ∧ (lab .start (.setkey 0#32)).clken = true) ∧
      (8#32 ≠ 0#32 ∧ (0x20000002#32).toNat % 4 ≠ 0) ∧
      (8#32 ≠ 0#32 ∧ (0xFFFFFFE4#32).toNat % 4 = 0 ∧ (0xFFFFFFE4#32).toNat + 4 * (8#32).toNat > 2 ^ 32) ∧
      ((0xFFFFFFE0#32).toNat % 4 = 0 ∧ (0xFFFFFFE0#32).toNat + 4 * (8#32).toNat ≤ 2 ^ 32) := by decide

theorem witness_SetkeyAtEachPosition_unsupported :
    0#32 = { lab .start (.setkey 1#32) with algoM := 5#32 }.cfg.keyWords { lab .start (.setkey 1#32) with algoM := 5#32 }.algoM ∧
      { lab .start (.setkey 1#32) with algoM := 5#32 }.phase = .active .start ∧
      { lab .start (.setkey 1#32) with algoM := 5#32 }.clken = true := by decide

theorem witness_SetkeyAtEachPosition_words :
    ({ lab .directionSet (.setkey 0x100#32) with sz := 8#32 }.phase = .active .directionSet ∧
        0#32 < { lab .directionSet (.setkey 0x100#32) with sz := 8#32 }.sz ∧
        { lab .directionSet (.setkey 0x100#32) with sz := 8#32 }.cfg.admits .load 0x100#32 8#32 0#32 = true) ∧
      ({ lab .keyWritten (.setkey 0x100#32) with sz := 8#32, j := 6#32 }.phase = .active .keyWritten ∧
        6#32 + 1#32 < 8#32 ∧
        { lab .keyWritten (.setkey 0x100#32) with sz := 8#32, j := 6#32 }.cfg.admits .load 0x100#32 8#32 7#32 = true) ∧
      ({ lab .keyWritten (.setkey 0x100#32) with sz := 8#32, j := 7#32 }.phase = .active .keyWritten ∧
        ¬ 7#32 + 1#32 < 8#32) ∧
      ({ lab .directionSet (.setkey 0x100#32) with sz := 0#32 }.phase = .active .directionSet ∧ ¬ 0#32 < 0#32) := by decide

theorem witness_SetkeyAtEachPosition_rest :
    (0x250#32 = (lab .rmwWrite (.setkey 0x100#32)).tmp &&& ~~~(1#32 <<< (lab .rmwWrite (.setkey 0x100#32)).cfg.decodeBit) ∧
        (lab .rmwWrite (.setkey 0x100#32)).phase = .active .rmwWrite) ∧
      (lab .keyWrite (.setkey 0x100#32)).phase = .active .keyWrite ∧
      ({ lab .gate (.setkey 0x100#32) with tmp := 1#32 }.phase = .active .gate ∧
        (1#32).getLsbD (lab .gate (.setkey 0x100#32)).cfg.busyBit = true) ∧
      ((lab .gate (.setkey 0x100#32)).phase = .active .gate ∧
        (lab .gate (.setkey 0x100#32)).tmp.getLsbD (lab .gate (.setkey 0x100#32)).cfg.busyBit = false ∧
        (lab .gate (.setkey 0x100#32)).sz = 0#32) ∧
      { lab .gate (.setkey 0x100#32) with sz := 8#32 }.sz ≠ 0#32 := by decide

/-- SETIV's checks at V4.9's and V8.5's values, and at the top of memory. -/
theorem witness_SetivAtEachPosition_start :
    ((lab .start (.setiv 0#32 1#32)).phase = .active .start ∧ (lab .start (.setiv 0#32 1#32)).clken = true) ∧
      (1#32 ≠ 0#32 ∧ (0x20000041#32).toNat % 4 ≠ 0) ∧
      (2#32 ≠ 0#32 ∧ (0xFFFFFFFC#32).toNat % 4 = 0 ∧ (0xFFFFFFFC#32).toNat + 4 * (2#32).toNat > 2 ^ 32) ∧
      (1#32 ≠ 0#32 ∧ (0xFFFFFFFC#32).toNat % 4 = 0 ∧ (0xFFFFFFFC#32).toNat + 4 * (1#32).toNat ≤ 2 ^ 32 ∧
        (lab .start (.setiv 0#32 1#32)).cfg.admits .load 0xFFFFFFFC#32 1#32 0#32 = true) := by decide

theorem witness_SetivAtEachPosition_words :
    (lab .ivWrite (.setiv 0x100#32 2#32)).phase = .active .ivWrite ∧
      ({ lab .ivWritten (.setiv 0x100#32 2#32) with n := 2#32 }.phase = .active .ivWritten ∧ 0#32 + 1#32 < 2#32 ∧
        { lab .ivWritten (.setiv 0x100#32 2#32) with n := 2#32 }.cfg.admits .load 0x100#32 2#32 1#32 = true) ∧
      ({ lab .ivWritten (.setiv 0x100#32 2#32) with n := 2#32, j := 1#32, modeM := 2#32 }.phase = .active .ivWritten ∧
        ¬ 1#32 + 1#32 < 2#32 ∧
        { lab .ivWritten (.setiv 0x100#32 2#32) with n := 2#32, j := 1#32, modeM := 2#32 }.modeM = Params.pEx.codeCtr ∧
        0#32 < 2#32) ∧
      (lab .ivWritten (.setiv 0x100#32 2#32)).modeM ≠ (lab .ivWritten (.setiv 0x100#32 2#32)).cfg.codeCtr ∧
      ((lab .zeroWritten (.setiv 0x100#32 2#32)).phase = .active .zeroWritten ∧ 0#32 + 1#32 < 2#32 ∧ ¬ 1#32 + 1#32 < 2#32) := by
  decide

theorem witness_StreamWritesItsChunks :
    (0x252#32 = (if true then (lab .rmwWrite (.decode 0x100#32 0x200#32 8#32)).tmp ||| (1#32 <<< 1) else 0#32) ∧
        (lab .rmwWrite (.decode 0x100#32 0x200#32 8#32)).cfg.decodeBit = 1 ∧
        (lab .rmwWrite (.decode 0x100#32 0x200#32 8#32)).phase = .active .rmwWrite) ∧
      ((lab .directionSet (.decode 0x100#32 0x200#32 0#32)).phase = .active .directionSet ∧
        (lab .directionSet (.decode 0x100#32 0x200#32 0#32)).n = 0#32) ∧
      (0#32 < 4#32 ∧ (4#32).toNat = min (4#32).toNat (4#32).toNat ∧ 0#32 < 4#32 ∧
        (lab .directionSet (.decode 0x100#32 0x200#32 4#32)).cfg.admits .load 0x100#32 4#32 0#32 = true) ∧
      (lab .chunkWrite (.decode 0x100#32 0x200#32 8#32)).phase = .active .chunkWrite ∧
      ({ lab .chunkWritten (.decode 0x100#32 0x200#32 8#32) with endJ := 4#32, n := 8#32, j := 2#32 }.phase =
          .active .chunkWritten ∧ 2#32 + 1#32 < 4#32 ∧
        { lab .chunkWritten (.decode 0x100#32 0x200#32 8#32) with endJ := 4#32, n := 8#32, j := 2#32 }.cfg.admits .load
          0x100#32 8#32 3#32 = true) ∧
      ¬ 3#32 + 1#32 < 4#32 := by decide

theorem witness_StreamReadsItsChunksBack :
    ((lab .gate (.encode 0x100#32 0x200#32 8#32)).phase = .active .gate ∧
        (1#32).getLsbD (lab .gate (.encode 0x100#32 0x200#32 8#32)).cfg.busyBit = true) ∧
      ((lab .gate (.encode 0x100#32 0x200#32 8#32)).tmp.getLsbD (lab .gate (.encode 0x100#32 0x200#32 8#32)).cfg.busyBit = false ∧
        { lab .gate (.encode 0x100#32 0x200#32 8#32) with off := 4#32, endJ := 8#32 }.off <
          { lab .gate (.encode 0x100#32 0x200#32 8#32) with off := 4#32, endJ := 8#32 }.endJ) ∧
      ({ lab .chunkStore (.encode 0x100#32 0x200#32 8#32) with n := 8#32, j := 7#32 }.phase = .active .chunkStore ∧
        { lab .chunkStore (.encode 0x100#32 0x200#32 8#32) with n := 8#32, j := 7#32 }.cfg.admits .store 0x200#32 8#32 7#32 =
          true ∧
        Memory.wf { lab .chunkStore (.encode 0x100#32 0x200#32 8#32) with n := 8#32, j := 7#32 }.mem = true) ∧
      ((lab .chunkStored (.encode 0x100#32 0x200#32 8#32)).phase = .active .chunkStored ∧ 6#32 + 1#32 < 8#32 ∧
        ¬ 7#32 + 1#32 < 8#32 ∧ ¬ 4#32 + 4#32 < 8#32) ∧
      (¬ 3#32 + 1#32 < 4#32 ∧ (4#32).toNat = (0#32).toNat + (4#32).toNat ∧ 4#32 < 8#32 ∧
        (8#32).toNat = min ((4#32).toNat + (4#32).toNat) (8#32).toNat ∧ (4#32).toNat + (4#32).toNat < 2 ^ 32 ∧ 4#32 < 8#32 ∧
        (lab .chunkStored (.encode 0x100#32 0x200#32 8#32)).cfg.admits .load 0x100#32 8#32 4#32 = true) := by decide

theorem witness_SetterRunsToItsEnd :
    (lab .start (.setmode 2#32)).resets = [] ∧ (lab .start (.setmode 2#32)).phase = .active .start ∧
      (lab .start (.setmode 2#32)).clken = true ∧
      decodeLatch (lab .start (.setmode 2#32)) = .ok (setterOf .mode 2#32) := by decide

/-- For FieldIsolation too, with the parameters' condition. -/
theorem witness_FieldIsolation :
    (lab .start (.setorder 0x80000000#32)).cfg.WF ∧ (lab .start (.setorder 0x80000000#32)).resets = [] ∧
      (lab .start (.setorder 0x80000000#32)).phase = .active .start ∧ (lab .start (.setorder 0x80000000#32)).clken = true ∧
      decodeLatch (lab .start (.setorder 0x80000000#32)) = .ok (setterOf .order 0x80000000#32) :=
  ⟨Params.pEx_wf, by decide⟩

theorem witness_InitRunsToItsEnd :
    (lab .start (.init 0#32 2#32 1#32 2#32)).cfg.WF ∧ (lab .start (.init 0#32 2#32 1#32 2#32)).resets = [] ∧
      (lab .start (.init 0#32 2#32 1#32 2#32)).phase = .active .start ∧
      (lab .start (.init 0#32 2#32 1#32 2#32)).hookHeld = false ∧
      decodeLatch (lab .start (.init 0#32 2#32 1#32 2#32)) = .ok (.init 0#32 2#32 1#32 2#32) :=
  ⟨Params.pEx_wf, by decide⟩

/-- A gate that has read BUSY, and two more answers of which the first is BUSY (V5.2). -/
def waiting : State := { lab .gate .waitrdy with tmp := 0x251#32, answers := [0x251#32, 0x250#32] }

theorem witness_GateHangsWhileBusy :
    waiting.cfg.WF ∧ waiting.resets = [] ∧ waiting.phase = .active .gate ∧ decodeLatch waiting = .ok .waitrdy ∧
      waiting.tmp.getLsbD waiting.cfg.busyBit = true ∧ 1 ≤ waiting.answers.length ∧
      (∀ w ∈ waiting.answers.take 1, w.getLsbD waiting.cfg.busyBit = true) := by
  refine ⟨Params.pEx_wf, by decide, by decide, by decide, by decide, by decide, ?_⟩
  intro w hw
  simp only [waiting, List.take_succ_cons, List.take_zero, List.mem_singleton] at hw
  subst hw
  decide

theorem witness_GateEndsAtFirstReadyAnswer :
    { waiting with phase := .active .start }.cfg.WF ∧ { waiting with phase := .active .start }.resets = [] ∧
      { waiting with phase := .active .start }.clken = true ∧
      decodeLatch { waiting with phase := .active .start } = .ok .waitrdy ∧
      { waiting with phase := .active .start }.answers = [0x251#32] ++ 0x250#32 :: [] ∧
      (∀ x ∈ [0x251#32], x.getLsbD waiting.cfg.busyBit = true) ∧ (0x250#32).getLsbD waiting.cfg.busyBit = false := by
  refine ⟨Params.pEx_wf, by decide, by decide, by decide, by decide, ?_, by decide⟩
  intro x hx
  rw [List.mem_singleton.mp hx]
  decide

/-- Two IV words at the top of memory. -/
theorem witness_SetivGivesTheIvAndZeroFill :
    (lab .start (.setiv 0xFFFFFFF8#32 2#32)).resets = [] ∧ (lab .start (.setiv 0xFFFFFFF8#32 2#32)).phase = .active .start ∧
      (lab .start (.setiv 0xFFFFFFF8#32 2#32)).clken = true ∧
      decodeLatch (lab .start (.setiv 0xFFFFFFF8#32 2#32)) = .ok (.setiv 0xFFFFFFF8#32 2#32) ∧
      (2#32 ≠ 0#32 → (0xFFFFFFF8#32).toNat % 4 = 0 ∧ (0xFFFFFFF8#32).toNat + 4 * (2#32).toNat ≤ 2 ^ 32) ∧
      (∀ i : Nat, i < (2#32).toNat →
        (lab .start (.setiv 0xFFFFFFF8#32 2#32)).cfg.admits .load 0xFFFFFFF8#32 2#32 (BitVec.ofNat 32 i) = true) := by decide

/-- V4.5: two IV words in counter mode. -/
theorem witness_SetivGivesTheIvAndZeroFill_counter_mode :
    { lab .start (.setiv 0x20000040#32 2#32) with modeM := 2#32 }.resets = [] ∧
      { lab .start (.setiv 0x20000040#32 2#32) with modeM := 2#32 }.phase = .active .start ∧
      { lab .start (.setiv 0x20000040#32 2#32) with modeM := 2#32 }.clken = true ∧
      decodeLatch { lab .start (.setiv 0x20000040#32 2#32) with modeM := 2#32 } = .ok (.setiv 0x20000040#32 2#32) ∧
      { lab .start (.setiv 0x20000040#32 2#32) with modeM := 2#32 }.modeM = Params.pEx.codeCtr ∧
      (2#32 ≠ 0#32 → (0x20000040#32).toNat % 4 = 0 ∧ (0x20000040#32).toNat + 4 * (2#32).toNat ≤ 2 ^ 32) ∧
      (∀ i : Nat, i < (2#32).toNat →
        { lab .start (.setiv 0x20000040#32 2#32) with modeM := 2#32 }.cfg.admits .load 0x20000040#32 2#32 (BitVec.ofNat 32 i) =
          true) := by decide

/-- V4.3: an unrecognised algorithm (SZ = 0) and a misaligned key address. -/
theorem witness_SetkeyGivesTheWholeKey_unsupported :
    { lab .start (.setkey 0x20000001#32) with algoM := 5#32, answers := [0#32, 0x250#32] }.cfg.WF ∧
      decodeLatch { lab .start (.setkey 0x20000001#32) with algoM := 5#32 } = .ok (.setkey 0x20000001#32) ∧
      0#32 = { lab .start (.setkey 0x20000001#32) with algoM := 5#32 }.cfg.keyWords
        { lab .start (.setkey 0x20000001#32) with algoM := 5#32 }.algoM ∧
      { lab .start (.setkey 0x20000001#32) with algoM := 5#32, answers := [0#32, 0x250#32] }.answers = 0#32 :: 0x250#32 :: [] ∧
      (0x250#32).getLsbD Params.pEx.busyBit = false ∧
      { lab .start (.setkey 0x20000001#32) with algoM := 5#32 }.resets = [] ∧
      { lab .start (.setkey 0x20000001#32) with algoM := 5#32 }.phase = .active .start ∧
      { lab .start (.setkey 0x20000001#32) with algoM := 5#32 }.clken = true := ⟨Params.pEx_wf, by decide⟩

/-- AlgoA's key of 8 words at the top of memory (V4.4), the gate's first read ready. -/
theorem witness_SetkeyGivesTheWholeKey :
    { lab .start (.setkey 0xFFFFFFE0#32) with answers := [0#32, 0x250#32] }.cfg.WF ∧
      decodeLatch (lab .start (.setkey 0xFFFFFFE0#32)) = .ok (.setkey 0xFFFFFFE0#32) ∧
      8#32 = (lab .start (.setkey 0xFFFFFFE0#32)).cfg.keyWords (lab .start (.setkey 0xFFFFFFE0#32)).algoM ∧
      (8#32 ≠ 0#32 → (0xFFFFFFE0#32).toNat % 4 = 0 ∧ (0xFFFFFFE0#32).toNat + 4 * (8#32).toNat ≤ 2 ^ 32) ∧
      (∀ i : Nat, i < (8#32).toNat →
        (lab .start (.setkey 0xFFFFFFE0#32)).cfg.admits .load 0xFFFFFFE0#32 8#32 (BitVec.ofNat 32 i) = true) ∧
      { lab .start (.setkey 0xFFFFFFE0#32) with answers := [0#32, 0x250#32] }.answers = 0#32 :: 0x250#32 :: [] ∧
      (0x250#32).getLsbD Params.pEx.busyBit = false ∧
      (lab .start (.setkey 0xFFFFFFE0#32)).resets = [] ∧ (lab .start (.setkey 0xFFFFFFE0#32)).phase = .active .start ∧
      (lab .start (.setkey 0xFFFFFFE0#32)).clken = true := ⟨Params.pEx_wf, by decide⟩

/-- V6.3, with a misaligned source. -/
theorem witness_ZeroLengthSetsTheDirectionOnly :
    (lab .start (.encode 0x101#32 0x200#32 0#32)).cfg.WF ∧ (lab .start (.encode 0x101#32 0x200#32 0#32)).resets = [] ∧
      (lab .start (.encode 0x101#32 0x200#32 0#32)).phase = .active .start ∧
      (lab .start (.encode 0x101#32 0x200#32 0#32)).clken = true ∧
      decodeLatch (lab .start (.encode 0x101#32 0x200#32 0#32)) = .ok (streamOf false 0x101#32 0x200#32 0#32) ∧
      (lab .start (.encode 0x101#32 0x200#32 0#32)).cfg.blockWords (lab .start (.encode 0x101#32 0x200#32 0#32)).algoM ≠
        0#32 := ⟨Params.pEx_wf, by decide⟩

/-- The draws of two blocks of AlgoC: a gate of two reads, and one of one; each block's output words read BUSY as 1. -/
def twoBlocks : List GateBlock := [⟨[1#32], 0#32, [1#32, 3#32]⟩, ⟨[], 2#32, [5#32, 7#32]⟩]

/-- Two blocks of AlgoC, the source at the top of memory. -/
def streaming : State :=
  { lab .start (.decode 0xFFFFFFF0#32 0x100#32 4#32) with
    algoM := 2#32, answers := 1#32 :: twoBlocks.flatMap GateBlock.draws ++ [9#32] }

theorem witness_StreamEventCount :
    streaming.cfg.WF ∧ streaming.resets = [] ∧ streaming.phase = .active .start ∧ streaming.clken = true ∧
      decodeLatch streaming = .ok (streamOf true 0xFFFFFFF0#32 0x100#32 4#32) ∧
      streaming.cfg.blockWords streaming.algoM ≠ 0#32 ∧
      (4#32).toNat = twoBlocks.length * (streaming.cfg.blockWords streaming.algoM).toNat ∧
      (4#32 ≠ 0#32 → (0xFFFFFFF0#32).toNat % 4 = 0 ∧ (0xFFFFFFF0#32).toNat + 4 * (4#32).toNat ≤ 2 ^ 32 ∧
        (0x100#32).toNat % 4 = 0 ∧ (0x100#32).toNat + 4 * (4#32).toNat ≤ 2 ^ 32) ∧
      (∀ i : Nat, i < (4#32).toNat → streaming.cfg.admits .load 0xFFFFFFF0#32 4#32 (BitVec.ofNat 32 i) = true ∧
        streaming.cfg.admits .store 0x100#32 4#32 (BitVec.ofNat 32 i) = true) ∧
      streaming.answers = 1#32 :: twoBlocks.flatMap GateBlock.draws ++ [9#32] ∧
      (∀ b ∈ twoBlocks, (∀ x ∈ b.busy, x.getLsbD streaming.cfg.busyBit = true) ∧
        b.ready.getLsbD streaming.cfg.busyBit = false ∧
        b.outs.length = (streaming.cfg.blockWords streaming.algoM).toNat) := by
  refine ⟨Params.pEx_wf, by decide, by decide, by decide, by decide, by decide, by decide, by decide, by decide, by decide, ?_⟩
  intro b hb
  have h : b = ⟨[1#32], 0#32, [1#32, 3#32]⟩ ∨ b = ⟨[], 2#32, [5#32, 7#32]⟩ := by simpa [twoBlocks] using hb
  rcases h with rfl | rfl
  · refine ⟨?_, by decide, by decide⟩
    intro x hx
    rw [List.mem_singleton.mp hx]
    decide
  · exact ⟨fun x hx => absurd hx List.not_mem_nil, by decide, by decide⟩

/-- V6.6 at the top of memory: in place. -/
def inPlace : State :=
  { lab .start (.encode 0xFFFFFFF0#32 0xFFFFFFF0#32 4#32) with answers := [0#32, 0#32, 5#32, 6#32, 7#32, 8#32] }

theorem witness_StreamCarriesOneBlock :
    inPlace.cfg.WF ∧ Memory.wf inPlace.mem = true ∧ inPlace.resets = [] ∧ inPlace.phase = .active .start ∧
      inPlace.clken = true ∧ decodeLatch inPlace = .ok (streamOf false 0xFFFFFFF0#32 0xFFFFFFF0#32 4#32) ∧
      4#32 = inPlace.cfg.blockWords inPlace.algoM ∧ 4#32 ≠ 0#32 ∧ (0xFFFFFFF0#32).toNat % 4 = 0 ∧
      (0xFFFFFFF0#32).toNat + 4 * (4#32).toNat ≤ 2 ^ 32 ∧
      (∀ i : Nat, i < (4#32).toNat → inPlace.cfg.admits .load 0xFFFFFFF0#32 4#32 (BitVec.ofNat 32 i) = true ∧
        inPlace.cfg.admits .store 0xFFFFFFF0#32 4#32 (BitVec.ofNat 32 i) = true) ∧
      inPlace.answers = 0#32 :: 0#32 :: [5#32, 6#32, 7#32, 8#32] ++ [] ∧ [5#32, 6#32, 7#32, 8#32].length = (4#32).toNat ∧
      (0#32).getLsbD inPlace.cfg.busyBit = false := ⟨Params.pEx_wf, by decide⟩

/-! ### Witnesses for the invariants and the rules over all commands -/

/-- SETMODE between its CR read and its CR write. -/
def between : State := lab (.fieldWrite .mode) (.setmode 2#32)

theorem between_latch : decodeLatch between = .ok (.setmode 2#32) := by decide

/-- Used for StepKeepsTheSequencer and NoForeignPositionIsReached. -/
theorem witness_StepKeepsTheSequencer : between.SequencerInv ∧ ∃ t, step between = .next t := by
  refine ⟨⟨?_, ?_, ?_, ?_⟩, _, rfl⟩
  · simp [State.FaultAgrees, between, lab, calm, State.reset]
  · show (0#32).toNat ≤ 3
    decide
  · intro p hp
    rw [between_latch]
    cases hp
    decide
  · intro _ _ _ _ _ _
    rfl

theorem witness_StepKeepsTheMirrors : between.MirrorInv ∧ between.clken = true ∧ ∃ t, step between = .next t := by
  refine ⟨⟨Params.pEx_wf, ?_, ?_⟩, rfl, _, rfl⟩
  · intro _ _ _
    show between.tmp &&& _ = between.crLast &&& _
    rfl
  · intro f _ _
    cases f <;> simp only [State.MirrorAgrees] <;> decide

/-- SETIV about to read its second word, after an aligned access. -/
theorem witness_StepKeepsAccessesAligned :
    { lab .ivWritten (.setiv 0x100#32 2#32) with n := 2#32, trace := [.memRd 0x100#32 0#32] }.AlignmentInv ∧
      ∃ t, step { lab .ivWritten (.setiv 0x100#32 2#32) with n := 2#32, trace := [.memRd 0x100#32 0#32] } = .next t := by
  refine ⟨⟨?_, ?_⟩, _, rfl⟩
  · intro e he
    rw [List.mem_singleton.mp he]
    decide
  · intro p _ _
    have h : decodeLatch { lab .ivWritten (.setiv 0x100#32 2#32) with n := 2#32, trace := [.memRd 0x100#32 0#32] } =
        .ok (.setiv 0x100#32 2#32) := by decide
    rw [h]
    show _ → (0x100#32).toNat % 4 = 0
    exact fun _ => by decide

theorem witness_StepKeepsMemoryCanonical :
    Memory.wf { lab .chunkStore (.encode 0#32 0x100#32 4#32) with mem := [(0, 1#8), (4294967295, 1#8)] }.mem = true ∧
      ∃ t, step { lab .chunkStore (.encode 0#32 0x100#32 4#32) with mem := [(0, 1#8), (4294967295, 1#8)] } = .next t :=
  ⟨by decide, _, rfl⟩

/-- CNTRST sticky and written 1, in the middle of a setter (V3.12). -/
theorem witness_StickyCounterResetPersists :
    { between with cfg := { Params.pEx with cntrstReadback := .sticky }, crLast := 0x650#32, tmp := 0x650#32 }.CounterResetSticks ∧
      { between with cfg := { Params.pEx with cntrstReadback := .sticky }, crLast := 0x650#32, tmp := 0x650#32 }.resets.head? ≠
        some 0 ∧
      ∃ t, step { between with cfg := { Params.pEx with cntrstReadback := .sticky }, crLast := 0x650#32, tmp := 0x650#32 } =
        .next t := by
  refine ⟨⟨?_, rfl, by decide, ?_⟩, by decide, _, rfl⟩
  · exact Params.pEx_wf
  · intro _ _ _
    show Params.cntrst _ 0x650#32 = true
    decide

theorem witness_ClkenSetByInitClearedByReset_cleared :
    ∃ t, step { calm with resets := [0] } = .next t ∧ { calm with resets := [0] }.clken = true ∧ t.clken = false :=
  ⟨_, rfl, rfl, rfl⟩

theorem witness_ClkenSetByInitClearedByReset_set :
    ∃ t, exec (.init 0#32 0#32 0#32 0#32) { lab .clockOn (.init 0#32 0#32 0#32 0#32) with clken := false } = .next t ∧
      { lab .clockOn (.init 0#32 0#32 0#32 0#32) with clken := false }.clken = false ∧ t.clken = true :=
  ⟨_, rfl, rfl, rfl⟩

/-- A faulted machine with a Reset to come, and one with a Reset due. -/
theorem witness_FaultClearedByResetOnly :
    ({ calm with phase := .faulted, fault := some .misaligned, resets := [1] }.FaultAgrees ∧
      { calm with phase := .faulted, fault := some .misaligned, resets := [1] }.fault ≠ none ∧
      ∃ t, step { calm with phase := .faulted, fault := some .misaligned, resets := [1] } = .next t) ∧
    { calm with phase := .faulted, fault := some .misaligned, resets := [0] }.resets.head? = some 0 := by
  refine ⟨⟨?_, by decide, _, rfl⟩, rfl⟩
  simp [State.FaultAgrees]

theorem witness_StepKeepsTheParameters : ∃ t, step between = .next t := ⟨_, rfl⟩

/-- Used for OneEventOrOneFault and CommandsReachOnlyTheirSpaces (its chunk invariant: witness_StepKeepsChunksInside). -/
theorem witness_OneEventOrOneFault :
    ∃ t e, exec (.encode 0#32 0x100#32 4#32) (lab .chunkStore (.encode 0#32 0x100#32 4#32)) = .next t ∧
      t.trace = e :: (lab .chunkStore (.encode 0#32 0x100#32 4#32)).trace :=
  ⟨_, _, rfl, rfl⟩

/-- A store's four bytes end before byte 0x104 (last clause), and a command that stores nothing (first clause). -/
theorem witness_OnlyReadChunkStores :
    (∃ t, exec (.setmode 2#32) between = .next t ∧ (Instr.setmode 2#32).isStream = false) ∧
      (Instr.encode 0#32 0x100#32 4#32 = streamOf false 0#32 0x100#32 4#32 ∧
        ∀ b < 4, 0x104 ≠ (0x100#32 + 4#32 * (lab .chunkStore (.encode 0#32 0x100#32 4#32)).j + BitVec.ofNat 32 b).toNat) :=
  ⟨⟨_, rfl, rfl⟩, rfl, by decide⟩

/-- V8.4: a misaligned key address faults. -/
theorem witness_FaultsComeBeforeAnyEvent :
    ∃ t, exec (.setkey 0x20000003#32) (lab .start (.setkey 0x20000003#32)) = .next t ∧ t.phase = .faulted :=
  ⟨_, rfl, rfl⟩

/-- INIT at a hook call from which the platform does not return, and a later call from which it does. -/
def held : State := { lab .start (.init 0#32 0#32 0#32 0#32) with hookHolds := [true, false] }

/-- SETKEY about to read the first word of a key buffer over P_EX's register block at 0x40000000: not admitted. -/
def overRegisters : State := { lab .directionSet (.setkey 0x3FFFFFE4#32) with sz := 8#32 }

theorem witness_CommandsStopOnlyWhenStuck_hook : exec (.init 0#32 0#32 0#32 0#32) held = .fault .hookHeld := rfl

theorem witness_CommandsStopOnlyWhenStuck_access : exec (.setkey 0x3FFFFFE4#32) overRegisters = .fault .notAdmitted := rfl

theorem witness_CommandsStopOnlyWhenStuck_position : exec .waitrdy (lab .finish .waitrdy) = .fault .foreignPosition := rfl

theorem witness_AccessesAreMadeExactlyWhenAdmitted_not :
    overRegisters.attempt (.setkey 0x3FFFFFE4#32) = some ⟨.load, 0x3FFFFFE4#32, 8#32, 0#32⟩ ∧
      overRegisters.cfg.admits .load 0x3FFFFFE4#32 8#32 0#32 = false := by decide

theorem witness_StuckCommandsWaitForReset_hook :
    (Instr.init 0#32 0#32 0#32 0#32).isInit = true ∧ held.phase = .active .start ∧ held.hookHeld = true := by decide

theorem witness_StuckCommandsWaitForReset_step :
    (held.phase = .active .start ∧ decodeLatch held = .ok (.init 0#32 0#32 0#32 0#32) ∧ held.resets = []) ∧
      { held with resets := [1] }.resets = (0 + 1) :: [] := by decide

/-- A stuck access, whose step the second clause is about. -/
theorem witness_StuckCommandsWaitForReset_access :
    overRegisters.phase = .active .directionSet ∧ decodeLatch overRegisters = .ok (.setkey 0x3FFFFFE4#32) ∧
      overRegisters.resets = [] ∧ exec (.setkey 0x3FFFFFE4#32) overRegisters = .fault .notAdmitted :=
  ⟨rfl, by decide, rfl, rfl⟩

theorem witness_AdmissionRule : 8#32 ≠ 0#32 ∧ overRegisters.cfg.admits .load 0x3FFFFFE0#32 8#32 7#32 = true ∧
    overRegisters.cfg.admits .load 0x3FFFFFE4#32 8#32 0#32 = false := by decide

/-- The same key buffer one word lower ends where the register block begins. -/
theorem witness_AccessesAreMadeExactlyWhenAdmitted :
    { lab .directionSet (.setkey 0x3FFFFFE0#32) with sz := 8#32 }.attempt (.setkey 0x3FFFFFE0#32) =
        some ⟨.load, 0x3FFFFFE0#32, 8#32, 0#32⟩ ∧
      { lab .directionSet (.setkey 0x3FFFFFE0#32) with sz := 8#32 }.cfg.admits .load 0x3FFFFFE0#32 8#32 0#32 = true ∧
      inPlace.attempt (.encode 0xFFFFFFF0#32 0xFFFFFFF0#32 4#32) = none ∧
      { inPlace with phase := .active .chunkStore, n := 4#32, j := 3#32 }.attempt
        (.encode 0xFFFFFFF0#32 0xFFFFFFF0#32 4#32) = some ⟨.store, 0xFFFFFFF0#32, 4#32, 3#32⟩ ∧
      inPlace.cfg.admits .store 0xFFFFFFF0#32 4#32 3#32 = true := by decide

theorem witness_StuckCommandsWaitForReset_each_call :
    ({ held with resets := [0] }.resets = 0 :: [] ∧ { held with resets := [0] }.phase = .active .start ∧
      decodeLatch { held with resets := [0] } = .ok (.init 0#32 0#32 0#32 0#32) ∧
      { held with resets := [0] }.hookHolds = true :: false :: []) ∧
      { held with hookHolds := [false, true] }.hookHolds = false :: true :: [] := by decide

/-- Within a chunk whose END is N. -/
theorem witness_StepKeepsChunksInside :
    { inPlace with phase := .active .chunkStore, n := 4#32, endJ := 4#32, j := 3#32 }.ChunkInside ∧
      decodeLatch { inPlace with phase := .active .chunkStore, n := 4#32, endJ := 4#32, j := 3#32 } =
        .ok (.encode 0xFFFFFFF0#32 0xFFFFFFF0#32 4#32) ∧
      ∃ t, step { inPlace with phase := .active .chunkStore, n := 4#32, endJ := 4#32, j := 3#32 } = .next t := by
  refine ⟨?_, by decide, _, rfl⟩
  intro p i _ _ _ _ _ _
  exact ⟨by decide, fun _ => by decide⟩

/-- Used for CrReadBack and SizeTable: P_EX, and a bit it leaves unnamed. -/
theorem witness_CrReadBack :
    Params.pEx.WF ∧ Params.pEx.decodeBit = 1 ∧ 9 ∈ (Params.pEx.field .order).bits ∧ 31 < 32 ∧ 31 ∉ Params.pEx.namedBits :=
  ⟨Params.pEx_wf, by decide⟩

/-- P_EX, the bits of its one-bit masks, the top bit, and two fields. -/
theorem witness_MasksAreExactAndDisjoint :
    Params.pEx.WF ∧ Params.pEx.busyBit < 32 ∧ Params.pEx.decodeBit < 32 ∧ Params.pEx.cntrstBit < 32 ∧ 31 < 32 ∧
      Field.algo ≠ Field.order :=
  ⟨Params.pEx_wf, by decide⟩

theorem witness_SizeTable :
    Params.pEx.WF ∧ 5#32 ≠ Params.pEx.codeAlgoA ∧ 5#32 ≠ Params.pEx.codeAlgoB ∧ 5#32 ≠ Params.pEx.codeAlgoC :=
  ⟨Params.pEx_wf, by decide⟩

theorem witness_DirectionWriteTouchesDecodeOnly :
    (lab .rmwWrite (.setkey 0#32)).cfg.WF ∧ (lab .rmwWrite (.setkey 0#32)).phase = .active .rmwWrite ∧
      (lab .rmwWrite (.decode 0#32 0#32 4#32)).phase = .active .rmwWrite ∧
      Instr.decode 0#32 0#32 4#32 = streamOf true 0#32 0#32 4#32 ∧ 31 ≠ (lab .rmwWrite (.setkey 0#32)).cfg.decodeBit :=
  ⟨Params.pEx_wf, by decide⟩

/-- A word that wraps past the top of the address space, and a byte outside it. -/
theorem witness_MemoryReadsWhatWasWritten :
    Memory.wf [(0, 1#8), (4294967295, 1#8)] = true ∧
      ∀ i < 4, 2 ≠ ((0xFFFFFFFE#32 : Word) + BitVec.ofNat 32 i).toNat := by decide

/-- The traces of two setters before their CR writes: field value 3 is no code of P_EX; operand 5 is none either (95 P3). -/
theorem witness_IllegalFieldValueIsNonConformant :
    (([Event.busRd .cr 0#32, .accept [3#32, 3#32]].reverse.foldl (Conformance.event Params.pEx) .initial).writing =
        some (.algo, 3#32) ∧ Params.pEx.fieldOf .algo 0x00C#32 ∉ legalValues Params.pEx .algo) ∧
      (([Event.busRd .cr 0#32, .accept [3#32, 5#32]].reverse.foldl (Conformance.event Params.pEx) .initial).writing =
        some (.algo, 5#32) ∧ 5#32 ∉ legalValues Params.pEx .algo) := by decide

end Sys2Proof.Tests
end

section
/-! PROOFS. The family 00_scope: the parameters that no step changes (00 R8) and the masks of 00 R10, which share no bit by
the disjointness of 00 R9. -/

/-! ### The parameters through a step (00 R8) -/

namespace Sys2Proof.Machine

/-- The host's move leaves the parameters alone: it stores a byte, presents a command, or waits. -/
theorem hostStep_cfg {s t : State} (h : hostStep s = .next t) : t.cfg = s.cfg := by
  obtain rfl | ⟨_, _, _, _, rfl⟩ | ⟨_, _, _, _, _, _, _, rfl⟩ := hostStep_next h <;> rfl

/-- Coming nearer to a Reset leaves the parameters alone. -/
@[simp] theorem tickReset_cfg (s : State) : (tickReset s).cfg = s.cfg := rfl

/-- A step leaves the parameters alone. -/
theorem step_cfg {s t : State} (h : step s = .next t) : t.cfg = s.cfg := by
  obtain ⟨later, -, rfl⟩ | ⟨-, ⟨-, rfl⟩ | ⟨-, hhost⟩ | ⟨e, -, -, rfl⟩ | ⟨p, i, -, -, hexec⟩⟩ := step_next h
  case inl => exact rfl -- Reset
  case inr.inl => exact tickReset_cfg s -- the wait for a Reset to come
  case inr.inr.inl => exact (hostStep_cfg hhost).trans (tickReset_cfg s)
  case inr.inr.inr.inl => exact tickReset_cfg s -- an illegal command's completion
  case inr.inr.inr.inr =>
    obtain ⟨hcfg, -⟩ := (exec_effect hexec).common
    exact hcfg.trans (tickReset_cfg s)

/-- Settles O44, by the cases of what a step can do. -/
theorem stepKeepsTheParameters : Obligations.StepKeepsTheParameters :=
  fun _ _ => step_cfg

end Sys2Proof.Machine

/-! ### The masks (00 R9, R10) -/

namespace Sys2Proof

/-- Two words that have no bit in common AND to 0. -/
theorem and_eq_zero_of_no_common_bit {a b : Word} (h : ∀ i, a.getLsbD i = true → b.getLsbD i = false) :
    a &&& b = 0#32 := by
  apply BitVec.eq_of_getLsbD_eq
  intro i _
  cases ha : a.getLsbD i
  · simp [ha]
  · simp [h i ha]

/-- A single-bit mask has its one bit. -/
theorem bitMask_getLsbD_iff {b i : Nat} (hi : i < 32) : (bitMask b).getLsbD i = true ↔ i = b := by
  simp only [bitMask_getLsbD, hi, decide_true, Bool.true_and, decide_eq_true_eq]

/-- The masks of two bits are disjoint. -/
theorem bitMask_and_bitMask {b c : Nat} (h : b ≠ c) : bitMask b &&& bitMask c = 0#32 := by
  apply and_eq_zero_of_no_common_bit
  intro i hi
  obtain ⟨-, rfl⟩ : i < 32 ∧ i = b := by simpa [bitMask_getLsbD] using hi
  simp [bitMask_getLsbD, h]

/-- A field's mask has the bits of the field. -/
theorem Params.fieldMask_getLsbD_iff (p : Params) (f : Field) {i : Nat} (hi : i < 32) :
    (p.fieldMask f).getLsbD i = true ↔ i ∈ (p.field f).bits := by
  simp only [Params.fieldMask_getLsbD, hi, decide_true, Bool.true_and, decide_eq_true_eq]

/-- A field's mask is disjoint from the mask of a bit outside the field. -/
theorem Params.fieldMask_and_bitMask (p : Params) {f : Field} {b : Nat} (h : b ∉ (p.field f).bits) :
    p.fieldMask f &&& bitMask b = 0#32 := by
  apply and_eq_zero_of_no_common_bit
  intro i hi
  obtain ⟨-, hbit⟩ : i < 32 ∧ i ∈ (p.field f).bits := by simpa [Params.fieldMask_getLsbD] using hi
  have hne : i ≠ b := fun hib => h (hib ▸ hbit)
  simp [bitMask_getLsbD, hne]

/-- The masks of two fields are disjoint. -/
theorem Params.WF.fieldMask_and_fieldMask {p : Params} (h : p.WF) {f g : Field} (hfg : f ≠ g) :
    p.fieldMask f &&& p.fieldMask g = 0#32 := by
  obtain ⟨-, -, -, -, hfields⟩ := h.disjoint
  apply and_eq_zero_of_no_common_bit
  intro i hi
  obtain ⟨-, hbit⟩ : i < 32 ∧ i ∈ (p.field f).bits := by simpa [Params.fieldMask_getLsbD] using hi
  simp [Params.fieldMask_getLsbD, hfields f g i hfg hbit]

/-- A field's mask is disjoint from the masks of the three single bits together. -/
theorem Params.WF.fieldMask_and_bits {p : Params} (h : p.WF) (f : Field) :
    p.fieldMask f &&& (p.busyMask ||| p.decodeMask ||| p.cntrstMask) = 0#32 := by
  obtain ⟨-, -, -, hbits, -⟩ := h.disjoint
  obtain ⟨hbusy, hdecode, hcntrst⟩ := hbits f
  simp only [Params.busyMask, Params.decodeMask, Params.cntrstMask, BitVec.and_or_distrib_left,
    p.fieldMask_and_bitMask hbusy, p.fieldMask_and_bitMask hdecode, p.fieldMask_and_bitMask hcntrst, BitVec.or_zero]

/-- NAMED_MASK has the named bits. -/
theorem Params.namedMask_getLsbD_iff (p : Params) {i : Nat} (hi : i < 32) :
    p.namedMask.getLsbD i = true ↔ i ∈ p.namedBits := by
  simp only [Params.namedMask, BitVec.getLsbD_or, Params.storedMask_getLsbD, Params.busyMask, Params.cntrstMask,
    bitMask_getLsbD, hi, Params.namedBits, List.mem_append, List.mem_cons, List.not_mem_nil, decide_true, Bool.true_and,
    Bool.or_eq_true, decide_eq_true_eq, or_false]
  tauto

/-- Settles O54, from the masks bit by bit and the disjointness of 00 R9. -/
theorem masksAreExactAndDisjoint : Obligations.MasksAreExactAndDisjoint := by
  intro p h
  obtain ⟨hbd, hbc, hdc, -⟩ := h.disjoint
  exact ⟨fun f i hi => (p.fieldMask_getLsbD_iff f hi).trans ((p.field f).mem_bits i),
    fun i hi => ⟨bitMask_getLsbD_iff hi, bitMask_getLsbD_iff hi, bitMask_getLsbD_iff hi⟩,
    fun f g => h.fieldMask_and_fieldMask,
    h.fieldMask_and_bits,
    bitMask_and_bitMask hbd, bitMask_and_bitMask hbc, bitMask_and_bitMask hdc,
    fun i => p.namedMask_getLsbD_iff⟩

end Sys2Proof
end

section
/-! PROOFS. The family 10_state: what the CCD holds (10 R20 to R30) and what every step keeps of it: the sequencer's
invariant, the mirrors (10 R24), a sticky CNTRST (70 R244), CLKEN (10 R25), FAULT (10 R30); Accept's load of the latch
(10 R28) and the size table (10 R42). -/

/-! ### The size table (10 R42, R43) -/

namespace Sys2Proof

/-- The algorithm codes are distinct (00 R9). -/
theorem Params.WF.algoCodes_ne {p : Params} (h : p.WF) :
    p.codeAlgoB ≠ p.codeAlgoA ∧ p.codeAlgoC ≠ p.codeAlgoA ∧ p.codeAlgoC ≠ p.codeAlgoB := by
  obtain ⟨-, -, -, ⟨-, hnodup⟩, -⟩ := h
  simp only [Params.algoCodes, List.nodup_cons, List.mem_cons, List.not_mem_nil, or_false, not_or] at hnodup
  obtain ⟨⟨hab, hac⟩, hbc, -⟩ := hnodup
  exact ⟨Ne.symm hab, Ne.symm hac, Ne.symm hbc⟩

/-- The OPEN sizes are not 0 (00 R8). -/
theorem Params.WF.sizes_ne_zero {p : Params} (h : p.WF) :
    p.blockWordsB ≠ 0#32 ∧ p.keyWordsB ≠ 0#32 ∧ p.blockWordsC ≠ 0#32 ∧ p.keyWordsC ≠ 0#32 := by
  obtain ⟨-, -, -, -, -, -, -, -, hsizes⟩ := h
  have hne : ∀ w ∈ [p.blockWordsB, p.keyWordsB, p.blockWordsC, p.keyWordsC], w ≠ 0#32 := by
    rintro w hw rfl
    exact absurd (hsizes _ (List.mem_map_of_mem hw)) (by decide)
  simpa using hne

/-- A size is 0 exactly for a value that is none of the three codes, for blocks and keys alike. -/
theorem Params.WF.blockWords_eq_zero_iff {p : Params} (h : p.WF) (a : Word) :
    p.blockWords a = 0#32 ↔ p.keyWords a = 0#32 := by
  obtain ⟨hblockB, hkeyB, hblockC, hkeyC⟩ := h.sizes_ne_zero
  unfold Params.blockWords Params.keyWords
  split
  · decide
  · split
    · simp [hblockB, hkeyB]
    · split
      · simp [hblockC, hkeyC]
      · simp

/-- Settles O59, from the distinctness of the codes and the OPEN sizes being at least 1. -/
theorem sizeTable : Obligations.SizeTable := by
  intro p h
  obtain ⟨hba, hca, hcb⟩ := h.algoCodes_ne
  refine ⟨?algoA, ?algoB, ?algoC, ?other, h.blockWords_eq_zero_iff⟩
  case algoA => simp [Params.blockWords, Params.keyWords, Config.blockWordsA, Config.keyWordsA]
  case algoB => simp [Params.blockWords, Params.keyWords, hba]
  case algoC => simp [Params.blockWords, Params.keyWords, hca, hcb]
  case other =>
    intro a ha hb hc
    simp [Params.blockWords, Params.keyWords, ha, hb, hc]

/-! ### Bits that a read-modify-write keeps, and bits a CR read gives back (40 R107, R111) -/

/-- Two words agree under a mask exactly when they agree at each of its bits. -/
theorem and_mask_eq_iff {a b m : Word} :
    a &&& m = b &&& m ↔ ∀ i, m.getLsbD i = true → a.getLsbD i = b.getLsbD i := by
  constructor
  · intro h i hi
    simpa [hi] using congrArg (BitVec.getLsbD · i) h
  · intro h
    apply BitVec.eq_of_getLsbD_eq
    intro i _
    cases hi : m.getLsbD i
    · simp [hi]
    · simp [h i hi]

/-- RmwCR keeps a bit that is neither cleared nor set. -/
theorem rmwValue_getLsbD_kept {tmp clear set : Word} {i : Nat} (hi : i < 32) (hclear : clear.getLsbD i = false)
    (hset : set.getLsbD i = false) : (rmwValue tmp clear set).getLsbD i = tmp.getLsbD i := by
  rw [rmwValue_getLsbD, hclear, hset]
  simp [hi]

/-- A field value has no bit where the field's mask has none. -/
theorem Params.fieldValue_getLsbD_outside {p : Params} {f : Field} {i : Nat} (h : (p.fieldMask f).getLsbD i = false)
    (v : Word) : (p.fieldValue f v).getLsbD i = false := by
  simp [Params.fieldValue, h]

/-- A field value lies under its field's mask. -/
theorem Params.fieldValue_and_fieldMask (p : Params) (f : Field) (v : Word) :
    p.fieldValue f v &&& p.fieldMask f = p.fieldValue f v := by
  simp [Params.fieldValue, BitVec.and_assoc]

/-- A direction value has no bit where DECODE_MASK has none. -/
theorem Params.directionValue_getLsbD_outside {p : Params} {i : Nat} (h : p.decodeMask.getLsbD i = false) (d : Bool) :
    (p.directionValue d).getLsbD i = false := by
  cases d <;> simp [Params.directionValue, h]

/-- RmwCR of a field's own mask puts the set value in the field. -/
theorem rmwValue_and_clear (tmp m v : Word) : rmwValue tmp m v &&& m = v &&& m := by
  rw [and_mask_eq_iff]
  intro i hi
  simp [rmwValue_getLsbD, hi]

/-- A field's bits are among the stored bits. -/
theorem Params.fieldMask_stored (p : Params) {f : Field} {i : Nat} (h : (p.fieldMask f).getLsbD i = true) :
    p.storedMask.getLsbD i = true := by
  cases f <;> simp [Params.storedMask, h]

/-- The masks of BUSY and CNTRST have none of the stored bits (00 R9). -/
theorem Params.WF.stored_apart {p : Params} (h : p.WF) {i : Nat} (hi : p.storedMask.getLsbD i = true) :
    p.busyMask.getLsbD i = false ∧ p.cntrstMask.getLsbD i = false := by
  obtain ⟨hbd, -, hdc, hbits, -⟩ := h.disjoint
  have hcase : i = p.decodeBit ∨ ∃ f, i ∈ (p.field f).bits := by
    rw [Params.storedMask_getLsbD] at hi
    simp only [Bool.and_eq_true, Bool.or_eq_true, decide_eq_true_eq] at hi
    obtain ⟨-, (((hd | ha) | hm) | hs) | ho⟩ := hi
    · exact .inl hd
    · exact .inr ⟨.algo, ha⟩
    · exact .inr ⟨.mode, hm⟩
    · exact .inr ⟨.swap, hs⟩
    · exact .inr ⟨.order, ho⟩
  obtain ⟨hb, hc⟩ : i ≠ p.busyBit ∧ i ≠ p.cntrstBit := by
    obtain rfl | ⟨f, hf⟩ := hcase
    · exact ⟨hbd.symm, hdc⟩
    · obtain ⟨hbusy, -, hcntrst⟩ := hbits f
      exact ⟨fun he => hbusy (he ▸ hf), fun he => hcntrst (he ▸ hf)⟩
  simp [Params.busyMask, Params.cntrstMask, bitMask_getLsbD, hb, hc]

/-- A field's bit is not CNTRST's (00 R9). -/
theorem Params.WF.fieldMask_apart_cntrst {p : Params} (h : p.WF) {f : Field} {i : Nat}
    (hi : (p.fieldMask f).getLsbD i = true) : p.cntrstMask.getLsbD i = false := by
  obtain ⟨-, hcntrst⟩ := h.stored_apart (p.fieldMask_stored hi)
  exact hcntrst

/-- A field's bit is not DECODE's (00 R9). -/
theorem Params.WF.fieldMask_apart_decode {p : Params} (h : p.WF) {f : Field} {i : Nat}
    (hi : (p.fieldMask f).getLsbD i = true) : p.decodeMask.getLsbD i = false := by
  obtain ⟨-, -, -, hbits, -⟩ := h.disjoint
  obtain ⟨-, hdecode, -⟩ := hbits f
  have hne : i ≠ p.decodeBit := by
    rintro rfl
    exact hdecode ((p.fieldMask_getLsbD_iff f h.decode_lt).mp hi)
  simp [Params.decodeMask, bitMask_getLsbD, hne]

/-- A field's bit is in no other field (00 R9). -/
theorem Params.WF.fieldMask_apart_field {p : Params} (h : p.WF) {f g : Field} (hgf : g ≠ f) {i : Nat}
    (hi : (p.fieldMask f).getLsbD i = true) : (p.fieldMask g).getLsbD i = false := by
  obtain ⟨-, -, -, -, hfields⟩ := h.disjoint
  have hmem := (p.fieldMask_getLsbD_iff f (BitVec.lt_of_getLsbD hi)).mp hi
  simp [Params.fieldMask_getLsbD, hfields f g i hgf.symm hmem]

/-- RmwCR leaves a field alone if it clears and sets nothing in it. -/
theorem rmwValue_and_fieldMask {p : Params} {f : Field} {tmp clear set : Word}
    (hclear : ∀ i, (p.fieldMask f).getLsbD i = true → clear.getLsbD i = false)
    (hset : ∀ i, (p.fieldMask f).getLsbD i = true → set.getLsbD i = false) :
    rmwValue tmp clear set &&& p.fieldMask f = tmp &&& p.fieldMask f :=
  and_mask_eq_iff.mpr fun i hi => rmwValue_getLsbD_kept (BitVec.lt_of_getLsbD hi) (hclear i hi) (hset i hi)

/-- CNTRST lies in no field's mask (00 R9). -/
theorem Params.WF.fieldMask_cntrstBit {p : Params} (h : p.WF) (f : Field) :
    (p.fieldMask f).getLsbD p.cntrstBit = false := by
  obtain ⟨-, -, -, hbits, -⟩ := h.disjoint
  obtain ⟨-, -, hcntrst⟩ := hbits f
  simp [Params.fieldMask_getLsbD, hcntrst]

/-- CNTRST is not DECODE (00 R9). -/
theorem Params.WF.decodeMask_cntrstBit {p : Params} (h : p.WF) : p.decodeMask.getLsbD p.cntrstBit = false := by
  obtain ⟨-, -, hdc, -⟩ := h.disjoint
  simp [Params.decodeMask, bitMask_getLsbD, hdc.symm]

/-- CNTRST_MASK has CNTRST's bit (00 R9, R10). -/
theorem Params.WF.cntrstMask_cntrstBit {p : Params} (h : p.WF) : p.cntrstMask.getLsbD p.cntrstBit = true := by
  simp [Params.cntrstMask, bitMask_getLsbD, h.cntrst_lt]

/-- A CR read gives the stored bits back as they were last written (40 R107). -/
theorem Params.WF.crAnswer_stored {p : Params} (h : p.WF) (last draw : Word) :
    p.crAnswer last draw &&& p.storedMask = last &&& p.storedMask := by
  rw [and_mask_eq_iff]
  intro i hi
  obtain ⟨hbusy, hcntrst⟩ := h.stored_apart hi
  have hdrawn : p.drawnMask.getLsbD i = false := by
    simp [Params.drawnMask, Params.namedMask, hi, hbusy]
  have hanswer : (p.cntrstAnswer last draw).getLsbD i = false := by
    unfold Params.cntrstAnswer
    split <;> simp [hcntrst]
  simp [Params.crAnswer, hi, hdrawn, hanswer]

/-- Under a sticky CNTRST a CR read gives a written 1 back (40 R107, 70 R244). -/
theorem Params.WF.crAnswer_sticky {p : Params} (h : p.WF) (hs : p.cntrstReadback = .sticky) {last : Word}
    (hl : p.cntrst last = true) (draw : Word) : p.cntrst (p.crAnswer last draw) = true := by
  unfold Params.cntrst at *
  simp [Params.crAnswer, Params.cntrstAnswer, hs, hl, h.cntrstMask_cntrstBit]

end Sys2Proof

/-! ### Accept (40 R101, 10 R28) -/

namespace Sys2Proof

/-- A command's words come off the front of the stream as its command word, its operands and the rest (30 R82). -/
theorem takeCommand_append {cw : Word} {ops : List Word} (rest : List Word) (h : ops.length = operandCount (opcOf cw)) :
    takeCommand (cw :: (ops ++ rest)) = some (cw, ops, rest) := by
  simp [takeCommand, ← h]

/-- A command has the operands its opcode says (30 R81, R84). -/
theorem Instr.operands_length (i : Instr) : i.operands.length = operandCount i.opcode := by
  cases i <;> rfl

/-- A stream that begins with a command's words gives that command's words (30 R82, R84). -/
theorem takeCommand_encode (i : Instr) (rest : List Word) :
    takeCommand (encode i ++ rest) = some (i.opcode.setWidth 32, i.operands, rest) := by
  obtain ⟨-, hopc⟩ := Laws.AlwaysWellFormed.header i.opcode
  exact takeCommand_append rest (by rw [hopc, i.operands_length])

/-- The operand slots that hold a command's operands, whatever the others hold, decode to the command (30 R84, R85). -/
theorem decodeFields_operands (i : Instr) (o0 o1 o2 o3 : Word) :
    decodeFields i.opcode 0#24 (i.operands.getD 0 o0) (i.operands.getD 1 o1) (i.operands.getD 2 o2)
      (i.operands.getD 3 o3) = .ok i := by
  cases i <;> rfl

namespace Machine

/-- Accept of a command's words loads its opcode and no reserved bits. -/
theorem accept_header (i : Instr) (ops : List Word) (s : State) :
    (accept (i.opcode.setWidth 32) ops s).opc = i.opcode ∧ (accept (i.opcode.setWidth 32) ops s).rsv = 0#24 := by
  obtain ⟨hrsv, hopc⟩ := Laws.AlwaysWellFormed.header i.opcode
  exact ⟨hopc, hrsv⟩

/-- Accept of a command's words leaves that command in the latch. -/
theorem accept_latch (i : Instr) (s : State) : decodeLatch (accept (i.opcode.setWidth 32) i.operands s) = .ok i := by
  obtain ⟨hopc, hrsv⟩ := accept_header i i.operands s
  unfold decodeLatch
  rw [hopc, hrsv]
  exact decodeFields_operands i s.op0 s.op1 s.op2 s.op3

/-- The step that accepts a presented command. -/
theorem step_accept {s : State} {i : Instr} {rest : List Word} {moves : List HostMove} (hr : s.resets = [])
    (hp : s.phase = .idle) (hh : s.host = .command (encode i ++ rest) :: moves) :
    step s = .next (accept (i.opcode.setWidth 32) i.operands { s with host := hostAfter rest moves }) := by
  simp only [step_no_reset hr, advance, hp, hostStep, hh, takeCommand_encode]

/-- Settles O7: the step is `accept`, which loads the slots that the operand list reaches. -/
theorem acceptLoadsTheLatch : Obligations.AcceptLoadsTheLatch := by
  intro s i rest moves hr hp hh
  obtain ⟨hopc, hrsv⟩ := accept_header i i.operands { s with host := hostAfter rest moves }
  refine ⟨_, step_accept hr hp hh, accept_latch i _, hopc, hrsv, ?_, ?_, ?_, ?_, rfl, rfl⟩
  all_goals
    intro hlen
    exact List.getD_eq_default _ _ (by omega)

end Machine

end Sys2Proof

/-! ### What every step keeps, case by case -/

namespace Sys2Proof.Machine

/-- A step keeps `P` if Reset, coming nearer to a Reset, the host's move, an illegal command's completion and one step of
the active command do. -/
theorem step_keeps {P : State → Prop} {s t : State} (h : step s = .next t) (hs : P s)
    (reset : ∀ later, s.resets = 0 :: later → P (deviceReset later s))
    (tick : ∀ s, P s → P (tickReset s))
    (host : ∀ s t, P s → s.phase = .idle → hostStep s = .next t → P t)
    (illegal : ∀ s e, P s → s.phase = .active .start → decodeLatch s = .error e → P (complete .illegal s))
    (command : ∀ s t p i, P s → s.phase = .active p → decodeLatch s = .ok i → exec i s = .next t → P t) : P t := by
  obtain ⟨later, hr, rfl⟩ | ⟨-, ⟨-, rfl⟩ | ⟨hp, hhost⟩ | ⟨e, hp, he, rfl⟩ | ⟨p, i, hp, hi, hexec⟩⟩ := step_next h
  case inl => exact reset later hr
  case inr.inl => exact tick s hs
  case inr.inr.inl => exact host _ _ (tick s hs) hp hhost
  case inr.inr.inr.inl => exact illegal _ e (tick s hs) hp he
  case inr.inr.inr.inr => exact command _ _ p i (tick s hs) hp hi hexec

/-- The host's move while IDLE keeps `P` if a store and Accept do. -/
theorem hostStep_keeps {P : State → Prop} {s t : State} (h : hostStep s = .next t) (hs : P s)
    (stored : ∀ m moves, P { s with mem := m, host := moves })
    (accepted : ∀ cw ops moves, P (accept cw ops { s with host := moves })) : P t := by
  obtain rfl | ⟨_, _, _, -, rfl⟩ | ⟨_, _, _, _, _, -, -, rfl⟩ := hostStep_next h
  · exact hs
  · exact stored _ _
  · exact accepted _ _ _

/-! ### What a step of a command does to CLKEN, the mirrors and CR, and where it then stands (40 R103) -/

/-- `t` has the CLKEN, the CR and the mirrors of `s`. -/
structure Held (s t : State) : Prop where
  clken : t.clken = s.clken
  crLast : t.crLast = s.crLast
  mirror : t.mirror = s.mirror

/-- TMP is an answer CR could give now (40 R107). -/
def State.TmpFresh (s : State) : Prop := ∃ draw, s.tmp = s.cfg.crAnswer s.crLast draw

/-- If a command is active in `t`, it stands at one of `ps`, and has just read CR if it writes CR next. -/
def Settled (ps : List Pos) (t : State) : Prop :=
  ∀ p, t.phase = .active p → p ∈ ps ∧ (p.writesCr = true → t.TmpFresh)

/-- A step that ends at one of `ps` or ends the command, and leaves CLKEN, the mirrors and CR alone. -/
structure Quiet (ps : List Pos) (s t : State) : Prop where
  held : Held s t
  settled : Settled ps t

/-- What a step of a command whose positions are `ps` does to CLKEN, the mirrors and CR: nothing, or INIT's setting of CLKEN,
or one of the three writes of CR (42 R130, R133, R140; 40 R112). -/
inductive Control (ps : List Pos) (s : State) : State → Prop where
  | quiet {t : State} (h : Quiet ps s t) : Control ps s t
  | clockOn (hp : s.phase = .active .clockOn) (hps : .clockOn ∈ ps) (hq : .fieldWrite .algo ∈ ps) :
    Control ps s (busReadCr (.fieldWrite .algo) { s with clken := true })
  | setField (f : Field) (w : Word) (q : Pos) (hp : s.phase = .active (.fieldWrite f)) (hq : q ∈ ps)
    (hw : q.writesCr = false) : Control ps s (fieldWrite f w q s)
  | direction (d : Bool) (hp : s.phase = .active .rmwWrite) (hq : .directionSet ∈ ps) :
    Control ps s (directionWrite d .directionSet s)
  | counterReset (hp : s.phase = .active .rmwWrite) (hq : .finish ∈ ps) :
    Control ps s (busWriteCr (rmwValue s.tmp s.cfg.cntrstMask s.cfg.cntrstMask) .finish s)

section
variable {ps : List Pos} {s t u : State} {p : Pos}

/-- Working registers are not what `Held` speaks of. -/
theorem Held.working (s : State) (sz off j endJ n : Word) :
    Held s { s with sz := sz, off := off, j := j, endJ := endJ, n := n } := ⟨rfl, rfl, rfl⟩

/-- A position that does not write CR asks nothing of TMP. -/
theorem Settled.of_not_writesCr (ht : t.phase = .active p) (hp : p ∈ ps) (hw : p.writesCr = false) : Settled ps t := by
  intro q hq
  obtain rfl : p = q := by simpa [ht] using hq
  exact ⟨hp, by simp [hw]⟩

/-- With no command active there is no position. -/
theorem Settled.of_not_active (ht : ∀ p, t.phase ≠ .active p) : Settled ps t :=
  fun p hp => absurd hp (ht p)

/-- After a CR read TMP is fresh, so any position may follow. -/
theorem busReadCr_settled (hp : p ∈ ps) (s : State) : Settled ps (busReadCr p s) := by
  intro q hq
  obtain rfl : p = q := by simpa using hq
  exact ⟨hp, fun _ => ⟨s.nextDraw, rfl⟩⟩

/-- Wherever a step of a command ends, it has read CR if it writes CR next. -/
theorem Control.settled (h : Control ps s t) : Settled ps t := by
  cases h with
  | quiet h => exact h.settled
  | clockOn hp hps hq => exact busReadCr_settled hq _
  | setField f w q hp hq hw => exact .of_not_writesCr rfl hq hw
  | direction d hp hq => exact .of_not_writesCr rfl hq rfl
  | counterReset hp hq => exact .of_not_writesCr rfl hq rfl

/-- Internal computation before a quiet step. -/
theorem Quiet.after (h : Held s u) (k : Quiet ps u t) : Quiet ps s t :=
  ⟨⟨k.held.clken.trans h.clken, k.held.crLast.trans h.crLast, k.held.mirror.trans h.mirror⟩, k.settled⟩

/-! #### The events that write no CR -/

theorem busReadCr_quiet (hp : p ∈ ps) (s : State) : Quiet ps s (busReadCr p s) :=
  ⟨⟨rfl, rfl, rfl⟩, busReadCr_settled hp s⟩

theorem busReadData_quiet (hp : p ∈ ps) (hw : p.writesCr = false) (s : State) : Quiet ps s (busReadData p s) :=
  ⟨⟨rfl, rfl, rfl⟩, .of_not_writesCr rfl hp hw⟩

theorem busWritePort_quiet (hp : p ∈ ps) (hw : p.writesCr = false) (r : Reg) (w : Word) (s : State) :
    Quiet ps s (busWritePort r w p s) :=
  ⟨⟨rfl, rfl, rfl⟩, .of_not_writesCr rfl hp hw⟩

theorem hookCall_quiet (hp : p ∈ ps) (hw : p.writesCr = false) (s : State) : Quiet ps s (hookCall p s) :=
  ⟨⟨rfl, rfl, rfl⟩, .of_not_writesCr rfl hp hw⟩

theorem complete_quiet (r : Result) (s : State) : Quiet ps s (complete r s) :=
  ⟨⟨rfl, rfl, rfl⟩, .of_not_active (by simp)⟩

theorem raise_quiet (k : FaultKind) (s : State) : Quiet ps s (raise k s) :=
  ⟨⟨rfl, rfl, rfl⟩, .of_not_active (by simp)⟩

theorem loadWord_quiet {buf n i : Word} (hp : p ∈ ps) (hw : p.writesCr = false) (h : loadWord buf n i p s = .next t) :
    Quiet ps s t := by
  obtain ⟨-, rfl⟩ := loadWord_next.mp h
  exact ⟨⟨rfl, rfl, rfl⟩, .of_not_writesCr rfl hp hw⟩

theorem storeWord_quiet {buf n i : Word} (hp : p ∈ ps) (hw : p.writesCr = false) (h : storeWord buf n i p s = .next t) :
    Quiet ps s t := by
  obtain ⟨-, rfl⟩ := storeWord_next.mp h
  exact ⟨⟨rfl, rfl, rfl⟩, .of_not_writesCr rfl hp hw⟩

/-! #### The shared subroutines and the loops -/

/-- The dispatch check: the command's own step, or a raised fault. -/
theorem whenClocked_quiet {k : Out} (hk : k = .next t → Quiet ps s t) (h : whenClocked s k = .next t) : Quiet ps s t := by
  obtain ⟨-, h⟩ | ⟨-, rfl⟩ := whenClocked_next.mp h
  · exact hk h
  · exact raise_quiet _ s

theorem gateTest_quiet {exit : State → Out} (hp : .gate ∈ ps) (hx : exit s = .next t → Quiet ps s t)
    (h : gateTest exit s = .next t) : Quiet ps s t := by
  obtain ⟨-, rfl⟩ | ⟨-, h⟩ := gateTest_next.mp h
  · exact busReadCr_quiet hp s
  · exact hx h

theorem keyLoop_quiet {a : Word} (h : keyLoop a s = .next t) : Quiet (Instr.setkey a).positions s t := by
  unfold keyLoop at h
  split at h
  · exact loadWord_quiet (by simp [Instr.positions]) rfl h
  · cases h; exact busReadCr_quiet (by simp [Instr.positions]) s

theorem zeroLoop_quiet (a n : Word) (h : zeroLoop s = .next t) : Quiet (Instr.setiv a n).positions s t := by
  unfold zeroLoop at h
  split at h <;> cases h
  · exact busWritePort_quiet (by simp [Instr.positions]) rfl _ _ s
  · exact complete_quiet _ s

theorem ivLoop_quiet {a : Word} (n : Word) (h : ivLoop a s = .next t) : Quiet (Instr.setiv a n).positions s t := by
  unfold ivLoop at h
  split at h
  · exact loadWord_quiet (by simp [Instr.positions]) rfl h
  · split at h
    · exact .after (.working s ..) (zeroLoop_quiet a n h)
    · cases h; exact complete_quiet _ s

theorem writeLoop_quiet {a : Word} (h : writeLoop a s = .next t) : Quiet streamPositions s t := by
  unfold writeLoop at h
  split at h
  · exact loadWord_quiet (by decide) rfl h
  · cases h; exact busReadCr_quiet (by decide) s

theorem chunkLoop_quiet {a : Word} (h : chunkLoop a s = .next t) : Quiet streamPositions s t := by
  unfold chunkLoop at h
  split at h
  · exact .after (.working s ..) (writeLoop_quiet h)
  · cases h; exact complete_quiet _ s

theorem readLoop_quiet {a : Word} (h : readLoop a s = .next t) : Quiet streamPositions s t := by
  unfold readLoop at h
  split at h
  · cases h; exact busReadData_quiet (by decide) rfl s
  · exact .after (.working s ..) (chunkLoop_quiet h)

theorem readStart_quiet {a : Word} (h : readStart a s = .next t) : Quiet streamPositions s t :=
  .after (.working s ..) (readLoop_quiet h)

theorem streamStart_quiet {a b n : Word} (h : streamStart a b n s = .next t) : Quiet streamPositions s t := by
  refine .after (.working s (s.cfg.blockWords s.algoM) s.off s.j s.endJ n) ?_
  unfold streamStart at h
  simp only at h
  split at h
  · cases h; exact complete_quiet _ _
  · split at h
    · cases h; exact complete_quiet _ _
    · split at h
      · cases h; exact raise_quiet _ _
      · split at h <;> cases h
        · exact raise_quiet _ _
        · exact busReadCr_quiet (by decide) _

/-! #### The commands -/

theorem execWaitrdy_quiet (h : execWaitrdy s = .next t) : Quiet Instr.waitrdy.positions s t := by
  unfold execWaitrdy at h
  split at h
  · exact whenClocked_quiet (fun h => by cases h; exact busReadCr_quiet (by decide) s) h
  · exact gateTest_quiet (by decide) (fun h => by cases h; exact complete_quiet _ s) h
  · simp at h

theorem setterStep_control {f : Field} {w : Word} (h : setterStep f w s = .next t) :
    Control (setterPositions f) s t := by
  unfold setterStep at h
  split at h
  · exact .quiet (whenClocked_quiet (fun h => by cases h; exact busReadCr_quiet (by simp [setterPositions]) s) h)
  · rename_i g hp
    split at h
    · rename_i hg
      cases h
      exact .setField f w .finish (hg ▸ hp) (by simp [setterPositions]) rfl
    · simp at h
  · cases h; exact .quiet (complete_quiet _ s)
  · simp at h

theorem execInit_control {a m w o : Word} (h : execInit a m w o s = .next t) :
    Control (Instr.init a m w o).positions s t := by
  unfold execInit at h
  split at h
  case h_1 =>
    split at h <;> cases h
    exact .quiet (hookCall_quiet (by simp [Instr.positions]) rfl s)
  case h_2 hp => cases h; exact .clockOn hp (by simp [Instr.positions]) (by simp [Instr.positions])
  case h_3 hp => cases h; exact .setField _ _ _ hp (by simp [Instr.positions]) rfl
  case h_5 hp => cases h; exact .setField _ _ _ hp (by simp [Instr.positions]) rfl
  case h_7 hp => cases h; exact .setField _ _ _ hp (by simp [Instr.positions]) rfl
  case h_9 hp => cases h; exact .setField _ _ _ hp (by simp [Instr.positions]) rfl
  case h_10 => cases h; exact .quiet (complete_quiet _ s)
  case h_11 => simp at h
  all_goals -- the three CR reads
    cases h; exact .quiet (busReadCr_quiet (by simp [Instr.positions]) s)

theorem execRstcnt_control (h : execRstcnt s = .next t) : Control Instr.rstcnt.positions s t := by
  unfold execRstcnt at h
  split at h
  · exact .quiet (whenClocked_quiet (fun h => by cases h; exact busReadCr_quiet (by decide) s) h)
  · rename_i hp
    cases h
    exact .counterReset hp (by decide)
  · cases h; exact .quiet (complete_quiet _ s)
  · simp at h

theorem execSetkey_control {a : Word} (h : execSetkey a s = .next t) : Control (Instr.setkey a).positions s t := by
  unfold execSetkey at h
  split at h
  · refine .quiet (whenClocked_quiet (fun h => ?_) h)
    split at h <;> cases h
    · exact .after (.working s ..) (raise_quiet _ _)
    · exact .after (.working s ..) (busReadCr_quiet (by simp [Instr.positions]) _)
  · rename_i hp
    cases h
    exact .direction false hp (by simp [Instr.positions])
  · exact .quiet (.after (.working s ..) (keyLoop_quiet h))
  · cases h; exact .quiet (busWritePort_quiet (by simp [Instr.positions]) rfl _ _ s)
  · exact .quiet (.after (.working s ..) (keyLoop_quiet h))
  · exact .quiet (gateTest_quiet (by simp [Instr.positions]) (fun h => by cases h; exact complete_quiet _ s) h)
  · simp at h

theorem execSetiv_quiet {a n : Word} (h : execSetiv a n s = .next t) : Quiet (Instr.setiv a n).positions s t := by
  unfold execSetiv at h
  split at h
  · refine whenClocked_quiet (fun h => ?_) h
    split at h
    · cases h; exact .after (.working s ..) (raise_quiet _ _)
    · exact .after (.working s ..) (ivLoop_quiet n h)
  · cases h; exact busWritePort_quiet (by simp [Instr.positions]) rfl _ _ s
  · exact .after (.working s ..) (ivLoop_quiet n h)
  · exact .after (.working s ..) (zeroLoop_quiet a n h)
  · simp at h

theorem streamStep_control {d : Bool} {a b n : Word} (h : streamStep d a b n s = .next t) :
    Control streamPositions s t := by
  unfold streamStep at h
  split at h
  · exact .quiet (whenClocked_quiet streamStart_quiet h)
  · rename_i hp
    cases h
    exact .direction d hp (by decide)
  · exact .quiet (.after (.working s ..) (chunkLoop_quiet h))
  · cases h; exact .quiet (busWritePort_quiet (by decide) rfl _ _ s)
  · exact .quiet (.after (.working s ..) (writeLoop_quiet h))
  · exact .quiet (gateTest_quiet (by decide) readStart_quiet h)
  · exact .quiet (storeWord_quiet (by decide) rfl h)
  · exact .quiet (.after (.working s ..) (readLoop_quiet h))
  · simp at h

/-- What a step of any command does to CLKEN, the mirrors and CR, and that it ends at a position of its own. -/
theorem exec_control {i : Instr} (h : exec i s = .next t) : Control i.positions s t := by
  cases i with
  | waitrdy => exact .quiet (execWaitrdy_quiet h)
  | init a m w o => exact execInit_control h
  | setalgo v => exact setterStep_control h
  | setmode v => exact setterStep_control h
  | setswap v => exact setterStep_control h
  | setorder v => exact setterStep_control h
  | setkey a => exact execSetkey_control h
  | setiv a n => exact .quiet (execSetiv_quiet h)
  | encode a b n => exact streamStep_control h
  | decode a b n => exact streamStep_control h
  | rstcnt => exact execRstcnt_control h

end
end Sys2Proof.Machine

/-! ### The sequencer's invariant (10 R25, R26, R27, R30) -/

namespace Sys2Proof

/-- Every command has its start (40 R102). -/
theorem Instr.start_mem_positions (i : Instr) : .start ∈ i.positions := by
  cases i <;> simp [Instr.positions, setterPositions, streamPositions]

/-- Only INIT stands between its hook and its first CR read (42 R130). -/
theorem Instr.isInit_of_clockOn {i : Instr} (h : .clockOn ∈ i.positions) : i.isInit = true := by
  cases i <;> simp [Instr.positions, setterPositions, streamPositions] at h
  rfl

end Sys2Proof

namespace Sys2Proof.Machine

section
variable {s t : State} {i : Instr} {p : Pos}

@[simp] theorem deviceReset_phase (later : List Nat) (s : State) : (deviceReset later s).phase = .idle := rfl
@[simp] theorem deviceReset_clken (later : List Nat) (s : State) : (deviceReset later s).clken = false := rfl
@[simp] theorem accept_phase (cw : Word) (ops : List Word) (s : State) : (accept cw ops s).phase = .active .start := rfl
@[simp] theorem accept_fault (cw : Word) (ops : List Word) (s : State) : (accept cw ops s).fault = s.fault := rfl
@[simp] theorem fieldWrite_clken (f : Field) (w : Word) (q : Pos) (s : State) : (fieldWrite f w q s).clken = s.clken := by
  simp [fieldWrite]

/-- Every result code is one of the four (60 R201). -/
theorem Result.code_le (r : Result) : r.code.toNat ≤ 3 := by
  cases r <;> decide

/-- A state that is no faulted state agrees with FAULT if FAULT is none. -/
theorem faultAgrees_of_none (hp : s.phase ≠ .faulted) (hf : s.fault = none) : s.FaultAgrees := by
  simp [State.FaultAgrees, hp, hf]

/-- An idle state without a fault and with a result code meets the sequencer's invariant. -/
theorem sequencerInv_of_idle (hp : s.phase = .idle) (hf : s.fault = none) (hr : s.ResultLegal) : s.SequencerInv :=
  ⟨faultAgrees_of_none (by simp [hp]) hf, hr, fun _ h => by simp [hp] at h, fun _ _ h => by simp [hp] at h⟩

/-- While a command is active or the CCD is idle, no fault has been raised. -/
theorem State.FaultAgrees.fault_eq_none (h : s.FaultAgrees) (hp : s.phase ≠ .faulted) : s.fault = none := by
  by_contra hf
  exact hp (h.mpr hf)

/-- A step's effect raises FAULT exactly with the faulted state. -/
theorem Effect.faultAgrees (e : Effect s t) (hs : s.fault = none) : t.FaultAgrees := by
  cases e with
  | fault k h => simp [State.FaultAgrees]
  | _ =>
    rename_i h
    exact faultAgrees_of_none (by simp) (h.fault.trans hs)

/-- A step's effect leaves RES a result code: only a completion writes it. -/
theorem Effect.resultLegal (e : Effect s t) (hs : s.ResultLegal) : t.ResultLegal := by
  cases e with
  | done r h => exact r.code_le
  | _ =>
    rename_i h
    exact (congrArg BitVec.toNat h.res).trans_le hs

/-- At its start every command but INIT takes NotInitialised if CLKEN is 0 (40 R102, 60 R206). -/
theorem exec_start_unclocked (hi : i.isInit = false) (hp : s.phase = .active .start) (hc : s.clken = false) :
    exec i s = .next (raise .notInitialised s) := by
  cases i with
  | init a m w o => simp [Instr.isInit] at hi
  | waitrdy => simp [exec, execWaitrdy, whenClocked, hp, hc]
  | setalgo v => simp [exec, execSetalgo, setterStep, whenClocked, hp, hc]
  | setmode v => simp [exec, execSetmode, setterStep, whenClocked, hp, hc]
  | setswap v => simp [exec, execSetswap, setterStep, whenClocked, hp, hc]
  | setorder v => simp [exec, execSetorder, setterStep, whenClocked, hp, hc]
  | setkey a => simp [exec, execSetkey, whenClocked, hp, hc]
  | setiv a n => simp [exec, execSetiv, whenClocked, hp, hc]
  | encode a b n => simp [exec, execEncode, streamStep, whenClocked, hp, hc]
  | decode a b n => simp [exec, execDecode, streamStep, whenClocked, hp, hc]
  | rstcnt => simp [exec, execRstcnt, whenClocked, hp, hc]

/-- At its start INIT calls the hook (42 R130). -/
theorem exec_init_start (hi : i.isInit = true) (hp : s.phase = .active .start) (h : exec i s = .next t) :
    t = hookCall .clockOn s := by
  cases i with
  | init a m w o =>
    simp only [exec, execInit, hp] at h
    split at h <;> cases h
    rfl
  | _ => simp [Instr.isInit] at hi

/-- After its hook INIT sets CLKEN with its first CR read (42 R130). -/
theorem exec_init_clockOn (hi : i.isInit = true) (hp : s.phase = .active .clockOn) :
    exec i s = .next (busReadCr (.fieldWrite .algo) { s with clken := true }) := by
  cases i with
  | init a m w o => simp only [exec, execInit, hp]
  | _ => simp [Instr.isInit] at hi

/-- A step of a command leaves CLKEN at 1 if it was 1. -/
theorem exec_keeps_clken (h : exec i s = .next t) (hc : s.clken = true) : t.clken = true := by
  obtain ⟨-, -, -, -, -, -, -, -, -, hclken⟩ := (exec_effect h).common
  exact hclken hc

/-- A step of a command keeps CLKEN 1 past the dispatch: the start has checked it, or INIT sets it. -/
theorem exec_keeps_clockedWhenActive (hs : s.ClockedWhenActive) (hp : s.phase = .active p) (hi : decodeLatch s = .ok i)
    (h : exec i s = .next t) : t.ClockedWhenActive := by
  intro q j hq hj hstart hclock
  obtain rfl : i = j := by simpa [(exec_effect h).latch, hi] using hj
  cases hinit : i.isInit with
  | false =>
    by_cases hps : p = .start
    · cases hc : s.clken with
      | false =>
        rw [exec_start_unclocked hinit (hps ▸ hp) hc] at h
        cases h
        simp at hq
      | true => exact exec_keeps_clken h hc
    · exact exec_keeps_clken h (hs p i hp hi hps (.inl hinit))
  | true =>
    by_cases hps : p = .start
    · obtain rfl := exec_init_start hinit (hps ▸ hp) h
      obtain rfl : Pos.clockOn = q := by simpa using hq
      simp [hinit] at hclock
    · by_cases hpc : p = .clockOn
      · rw [exec_init_clockOn hinit (hpc ▸ hp)] at h
        cases h
        rfl
      · exact exec_keeps_clken h (hs p i hp hi hps (.inr hpc))

/-- A step of a command keeps the sequencer's invariant. -/
theorem exec_keeps_sequencerInv (hs : s.SequencerInv) (hp : s.phase = .active p) (hi : decodeLatch s = .ok i)
    (h : exec i s = .next t) : t.SequencerInv := by
  obtain ⟨hfault, hres, -, hclocked⟩ := hs
  have heffect := exec_effect h
  refine ⟨heffect.faultAgrees (hfault.fault_eq_none (by simp [hp])), heffect.resultLegal hres, ?position,
    exec_keeps_clockedWhenActive hclocked hp hi h⟩
  case position =>
    intro q hq
    rw [heffect.latch, hi]
    obtain ⟨howned, -⟩ := (exec_control h).settled q hq
    exact howned

/-- Accept keeps the sequencer's invariant: the command stands at its start. -/
theorem accept_keeps_sequencerInv (cw : Word) (ops : List Word) (hs : s.SequencerInv) (hp : s.phase = .idle) :
    (accept cw ops s).SequencerInv := by
  obtain ⟨hfault, hres, -, -⟩ := hs
  refine ⟨faultAgrees_of_none (by simp) (hfault.fault_eq_none (by simp [hp])), hres, ?position, ?clocked⟩
  case position =>
    intro p h
    obtain rfl : Pos.start = p := by simpa using h
    split
    · exact Instr.start_mem_positions _
    · rfl
  case clocked =>
    intro p i h _ hstart
    exact absurd (by simpa using h.symm) hstart

/-! ### CLKEN (10 R25) -/

/-- A step of a command leaves CLKEN alone unless it is the step after INIT's hook (42 R130). -/
theorem Control.clken {ps : List Pos} (h : Control ps s t) :
    t.clken = s.clken ∨ (s.phase = .active .clockOn ∧ .clockOn ∈ ps) := by
  cases h with
  | quiet h => exact .inl h.held.clken
  | clockOn hp hps hq => exact .inr ⟨hp, hps⟩
  | setField f w q hp hq hw => exact .inl (fieldWrite_clken f w q s)
  | direction d hp hq => exact .inl rfl
  | counterReset hp hq => exact .inl rfl

/-! ### The sticky CNTRST (70 R244, 10 R37) -/

/-- A CR write of a command keeps a CNTRST of 1 that it has read, and otherwise CR is as it was. -/
theorem Control.keeps_cntrst {ps : List Pos} (h : Control ps s t) (hs : s.CounterResetSticks) :
    s.cfg.cntrst t.crLast = true := by
  obtain ⟨hwf, -, hlast, htmp⟩ := hs
  have hbit := hwf.cntrst_lt
  cases h with
  | quiet h => rw [h.held.crLast]; exact hlast
  | clockOn hp hps hq => exact hlast
  | setField f w q hp hq hw =>
    have hfield := hwf.fieldMask_cntrstBit f
    have hkept := rmwValue_getLsbD_kept (tmp := s.tmp) hbit hfield (Params.fieldValue_getLsbD_outside hfield w)
    exact hkept.trans (htmp _ hp rfl)
  | direction d hp hq =>
    have hdecode := hwf.decodeMask_cntrstBit
    have hkept := rmwValue_getLsbD_kept (tmp := s.tmp) hbit hdecode (Params.directionValue_getLsbD_outside hdecode d)
    exact hkept.trans (htmp _ hp rfl)
  | counterReset hp hq =>
    show (rmwValue s.tmp s.cfg.cntrstMask s.cfg.cntrstMask).getLsbD s.cfg.cntrstBit = true
    simp [rmwValue_getLsbD, hwf.cntrstMask_cntrstBit]

/-- A step of a command keeps a sticky CNTRST of 1. -/
theorem exec_keeps_counterResetSticks (hs : s.CounterResetSticks) (h : exec i s = .next t) : t.CounterResetSticks := by
  obtain ⟨hcfg, -⟩ := (exec_effect h).common
  have hcontrol := exec_control h
  have hlast : t.cfg.cntrst t.crLast = true := hcfg ▸ hcontrol.keeps_cntrst hs
  obtain ⟨hwf, hsticky, -, -⟩ := hs
  refine ⟨hcfg ▸ hwf, hcfg ▸ hsticky, hlast, ?_⟩
  intro p hp hw
  obtain ⟨-, hfresh⟩ := hcontrol.settled p hp
  obtain ⟨draw, htmp⟩ := hfresh hw
  rw [htmp]
  exact Params.WF.crAnswer_sticky (hcfg ▸ hwf) (hcfg ▸ hsticky) hlast draw

/-! ### The mirrors (10 R24) -/

/-- At a position whose command has read CR last, TMP shows the stored bits of CR (40 R107, R111). -/
theorem Settled.readBackHeld {ps : List Pos} (h : Settled ps s) (hwf : s.cfg.WF) : s.ReadBackHeld := by
  intro p hp hwrite
  have hw : p.writesCr = true := by
    obtain rfl | ⟨f, rfl⟩ := hwrite <;> rfl
  obtain ⟨-, hfresh⟩ := h p hp
  obtain ⟨draw, htmp⟩ := hfresh hw
  rw [htmp, hwf.crAnswer_stored]

/-- At a position that writes CR, TMP agrees with CR in every field. -/
theorem State.ReadBackHeld.field (h : s.ReadBackHeld) (hp : s.phase = .active p)
    (hw : p = .rmwWrite ∨ ∃ f, p = .fieldWrite f) (f : Field) :
    s.tmp &&& s.cfg.fieldMask f = s.crLast &&& s.cfg.fieldMask f := by
  have hstored := and_mask_eq_iff.mp (h p hp hw)
  exact and_mask_eq_iff.mpr fun i hi => hstored i (s.cfg.fieldMask_stored hi)

/-- Mirror and field agree after as before if the parameters, CR's field and the mirror are the same. -/
theorem State.MirrorAgrees.congr {f : Field} (h : s.MirrorAgrees f) (hcfg : t.cfg = s.cfg)
    (hcr : t.crLast &&& s.cfg.fieldMask f = s.crLast &&& s.cfg.fieldMask f) (hm : t.mirror f = s.mirror f) :
    t.MirrorAgrees f := by
  unfold State.MirrorAgrees
  rw [hcfg, hcr, hm]
  exact h

/-- The mirror write puts the operand in its mirror and leaves the others. -/
theorem mirror_fieldWrite (f g : Field) (w : Word) (q : Pos) (s : State) :
    (fieldWrite f w q s).mirror g = if g = f then w else s.mirror g := by
  cases f <;> cases g <;> rfl

/-- A field write makes its own field agree with its mirror (42 R133). -/
theorem fieldWrite_mirrorAgrees (f : Field) (w : Word) (q : Pos) (s : State) : (fieldWrite f w q s).MirrorAgrees f := by
  show (fieldWrite f w q s).crLast &&& (fieldWrite f w q s).cfg.fieldMask f =
    (fieldWrite f w q s).cfg.fieldValue f ((fieldWrite f w q s).mirror f)
  rw [mirror_fieldWrite, if_pos rfl]
  simp only [fieldWrite, busWriteCr_crLast, busWriteCr_cfg, writeMirror_cfg]
  rw [rmwValue_and_clear, Params.fieldValue_and_fieldMask]

/-- A field that INIT owes before it writes `g` and that is not `g` is still owed before it reads CR for the next one
(42 R132). -/
theorem beforeField_next {f g k : Field} (hk : Field.rank k = Field.rank g + 1) (hne : f ≠ g)
    (hf : beforeField f (.fieldWrite g) = true) : beforeField f (.fieldRead k) = true := by
  have hle : Field.rank g ≤ Field.rank f := of_decide_eq_true hf
  have hrank : Field.rank g ≠ Field.rank f := by
    cases f <;> cases g <;> simp [Field.rank] at hne ⊢
  exact decide_eq_true (by omega)

/-- ORDER is the last field that INIT owes (42 R132). -/
theorem eq_order_of_beforeField {f : Field} (hf : beforeField f (.fieldWrite .order) = true) : f = .order := by
  cases f <;> simp [beforeField, Field.rank] at hf
  rfl

/-- After INIT's CR write of `g`, which the CR read for `k` follows, a field is still owed or was the one written. -/
theorem fieldWrite_owes {f g k : Field} (hk : Field.rank k = Field.rank g + 1)
    (hf : beforeField f (.fieldWrite g) = true) (v : Word) (s : State) :
    (∃ q, (fieldWrite g v (.fieldRead k) s).phase = .active q ∧ beforeField f q = true) ∨
      ∃ w q, fieldWrite g v (.fieldRead k) s = fieldWrite f w q s := by
  by_cases hfg : f = g
  · exact .inr ⟨v, _, by rw [hfg]⟩
  · exact .inl ⟨_, rfl, beforeField_next hk hfg hf⟩

/-- INIT goes on owing a field until the step that writes it (42 R130, R132). -/
theorem execInit_owes {a m w o : Word} {f : Field} (h : execInit a m w o s = .next t) (hp : s.phase = .active p)
    (hf : beforeField f p = true) :
    (∃ q, t.phase = .active q ∧ beforeField f q = true) ∨ ∃ w q, t = fieldWrite f w q s := by
  unfold execInit at h
  split at h <;> rename_i hpos
  case h_11 => simp at h
  all_goals
    rw [hpos] at hp
    cases hp
  case h_1 => simp [beforeField] at hf
  case h_2 => cases h; exact .inl ⟨.fieldWrite .algo, rfl, by simp [beforeField, Field.rank]⟩
  case h_3 => cases h; exact fieldWrite_owes rfl hf _ s
  case h_4 => cases h; exact .inl ⟨_, rfl, hf⟩
  case h_5 => cases h; exact fieldWrite_owes rfl hf _ s
  case h_6 => cases h; exact .inl ⟨_, rfl, hf⟩
  case h_7 => cases h; exact fieldWrite_owes rfl hf _ s
  case h_8 => cases h; exact .inl ⟨_, rfl, hf⟩
  case h_9 =>
    obtain rfl := eq_order_of_beforeField hf
    cases h
    exact .inr ⟨_, _, rfl⟩
  case h_10 => simp [beforeField] at hf

/-- A command under way goes on owing a field until the step that writes it. -/
theorem exec_owes {f : Field} (hf : s.initOwes f) (hi : decodeLatch s = .ok i) (h : exec i s = .next t) :
    t.initOwes f ∨ ∃ w q, t = fieldWrite f w q s := by
  obtain ⟨p, j, hp, hj, hinit, hbefore⟩ := hf
  obtain rfl : i = j := by simpa [hi] using hj
  have hlatch : decodeLatch t = .ok i := (exec_effect h).latch.trans hi
  cases i with
  | init a m w o =>
    obtain ⟨q, hq, hqf⟩ | hwritten := execInit_owes h hp hbefore
    · exact .inl ⟨q, _, hq, hlatch, rfl, hqf⟩
    · exact .inr hwritten
  | _ => simp [Instr.isInit] at hinit

/-- A step of a command leaves a field of CR and its mirror alone unless it is the field's own write: every
read-modify-write puts back what it has read outside its own bits (40 R111, 42 R139). -/
theorem Control.keeps_field {ps : List Pos} (h : Control ps s t) (hwf : s.cfg.WF) (hread : s.ReadBackHeld) (f : Field) :
    (t.crLast &&& s.cfg.fieldMask f = s.crLast &&& s.cfg.fieldMask f ∧ t.mirror f = s.mirror f) ∨
      ∃ w q, t = fieldWrite f w q s := by
  cases h with
  | quiet h => exact .inl ⟨by rw [h.held.crLast], by rw [h.held.mirror]⟩
  | clockOn hp hps hq => exact .inl ⟨rfl, rfl⟩
  | setField g w q hp hq hw =>
    by_cases hfg : f = g
    · exact .inr ⟨w, q, by rw [hfg]⟩
    · have hcr := (rmwValue_and_fieldMask (fun _ => hwf.fieldMask_apart_field (Ne.symm hfg))
        fun _ hi => Params.fieldValue_getLsbD_outside (hwf.fieldMask_apart_field (Ne.symm hfg) hi) w).trans
          (hread.field hp (.inr ⟨g, rfl⟩) f)
      exact .inl ⟨hcr, by rw [mirror_fieldWrite, if_neg hfg]⟩
  | direction d hp hq =>
    have hcr := (rmwValue_and_fieldMask (fun _ => hwf.fieldMask_apart_decode)
      fun _ hi => Params.directionValue_getLsbD_outside (hwf.fieldMask_apart_decode hi) d).trans
        (hread.field hp (.inl rfl) f)
    exact .inl ⟨hcr, rfl⟩
  | counterReset hp hq =>
    have hcr := (rmwValue_and_fieldMask (fun _ => hwf.fieldMask_apart_cntrst)
      fun _ => hwf.fieldMask_apart_cntrst).trans (hread.field hp (.inl rfl) f)
    exact .inl ⟨hcr, rfl⟩

/-- If CLKEN is 1 after a step of a command, it was so before, or INIT has just begun to owe every field (42 R130). -/
theorem exec_clken_or_owes (hi : decodeLatch s = .ok i) (h : exec i s = .next t) (hclken : t.clken = true) :
    s.clken = true ∨ ∀ f, s.initOwes f := by
  obtain hkept | ⟨hp, hps⟩ := (exec_control h).clken
  · exact .inl (hkept ▸ hclken)
  · exact .inr fun f => ⟨_, i, hp, hi, Instr.isInit_of_clockOn hps, rfl⟩

/-- A step of a command leaves a field and its mirror in agreement if CLKEN is 1 after it and INIT then owes the field no
write. -/
theorem exec_keeps_mirrorAgrees {f : Field} (hs : s.MirrorInv) (hi : decodeLatch s = .ok i) (h : exec i s = .next t)
    (hclken : t.clken = true) (howes : ¬ t.initOwes f) : t.MirrorAgrees f := by
  obtain ⟨hcfg, -⟩ := (exec_effect h).common
  obtain ⟨hwf, hread, hagree⟩ := hs
  obtain ⟨hcr, hmirror⟩ | ⟨w, q, rfl⟩ := (exec_control h).keeps_field hwf hread f
  · have hpaid : s.initOwes f → t.MirrorAgrees f := by
      intro howed
      obtain hstill | ⟨w, q, rfl⟩ := exec_owes howed hi h
      · exact absurd hstill howes
      · exact fieldWrite_mirrorAgrees f w q s
    by_cases howed : s.initOwes f
    · exact hpaid howed
    · obtain hsclken | hall := exec_clken_or_owes hi h hclken
      · exact (hagree f hsclken howed).congr hcfg hcr hmirror
      · exact hpaid (hall f)
  · exact fieldWrite_mirrorAgrees f w q s

/-- The mirror invariant speaks of well-formed parameters. -/
theorem State.MirrorInv.wf (h : s.MirrorInv) : s.cfg.WF := And.left h

/-- A step of a command keeps the mirror invariant. -/
theorem exec_keeps_mirrorInv (hs : s.MirrorInv) (hi : decodeLatch s = .ok i) (h : exec i s = .next t) : t.MirrorInv := by
  obtain ⟨hcfg, -⟩ := (exec_effect h).common
  have hwf : t.cfg.WF := hcfg ▸ hs.wf
  exact ⟨hwf, (exec_control h).settled.readBackHeld hwf, fun f hc ho => exec_keeps_mirrorAgrees hs hi h hc ho⟩

/-- A state at which no INIT is past its hook and no command writes CR next has the mirror invariant if CR and the mirrors
agree wherever CLKEN is 1. -/
theorem mirrorInv_of_start (hwf : s.cfg.WF) (hp : ∀ p, s.phase = .active p → p = .start)
    (hm : s.clken = true → ∀ f, s.MirrorAgrees f) : s.MirrorInv := by
  refine ⟨hwf, ?readBack, fun f hc _ => hm hc f⟩
  case readBack =>
    intro p h hw
    obtain rfl := hp p h
    obtain h | ⟨f, h⟩ := hw <;> cases h

/-- INIT owes nothing unless it is past its hook. -/
theorem not_initOwes_of_start (hp : ∀ p, s.phase = .active p → p = .start) (f : Field) : ¬ s.initOwes f := by
  rintro ⟨p, i, h, -, -, hf⟩
  obtain rfl := hp p h
  simp [beforeField] at hf

end

/-! ### The obligations over every step -/

/-- Settles O36, by the cases of what a step can do. -/
theorem stepKeepsTheSequencer : Obligations.StepKeepsTheSequencer := by
  intro s t hs h
  refine step_keeps h hs ?reset ?tick ?host ?illegal ?command
  case reset => exact fun later _ => sequencerInv_of_idle rfl rfl (Result.code_le .ok)
  case tick => exact fun _ hs => hs
  case host =>
    intro s t hs hp h
    exact hostStep_keeps h hs (fun _ _ => hs) fun cw ops _ => accept_keeps_sequencerInv cw ops hs hp
  case illegal =>
    intro s _ ⟨hfault, _⟩ hp _
    exact sequencerInv_of_idle rfl (hfault.fault_eq_none (by simp [hp])) (Result.code_le .illegal)
  case command => exact fun _ _ _ _ hs hp hi h => exec_keeps_sequencerInv hs hp hi h

/-- Settles O42: no step but Reset clears CLKEN, and of the commands' steps only INIT's after its hook sets it. -/
theorem clkenSetByInitClearedByReset : Obligations.ClkenSetByInitClearedByReset := by
  constructor
  · intro s t h hs ht
    by_contra hreset
    have hkept : t.clken = true := by
      refine step_keeps (P := fun s => s.clken = true) h hs ?reset ?tick ?host ?illegal ?command
      case reset => exact fun later hr => absurd (by simp [hr]) hreset
      case tick => exact fun _ hs => hs
      case host =>
        exact fun s t hs _ h => hostStep_keeps (P := fun s => s.clken = true) h hs (fun _ _ => hs) (fun _ _ _ => hs)
      case illegal => exact fun _ _ hs _ _ => hs
      case command => exact fun _ _ _ _ hs _ _ h => exec_keeps_clken h hs
    simp [ht] at hkept
  · intro i s t h hs ht
    obtain hkept | ⟨hp, hps⟩ := (exec_control h).clken
    · simp [hkept, hs] at ht
    · exact ⟨Instr.isInit_of_clockOn hps, hp⟩

/-- Settles O43: in the faulted state the only steps are Reset and the wait for it. -/
theorem faultClearedByResetOnly : Obligations.FaultClearedByResetOnly := by
  intro s t hs hf h
  have hp : (tickReset s).phase = .faulted := hs.mpr hf
  obtain ⟨later, hr, -⟩ | ⟨-, ⟨-, rfl⟩ | ⟨hidle, -⟩ | ⟨_, hstart, -⟩ | ⟨_, _, hactive, -⟩⟩ := step_next h
  case inl => exact .inl (by simp [hr])
  case inr.inl => exact .inr ⟨rfl, hp, rfl, rfl, rfl⟩
  case inr.inr.inl => simp [hp] at hidle
  case inr.inr.inr.inl => simp [hp] at hstart
  case inr.inr.inr.inr => simp [hp] at hactive

/-- Settles O41, by the cases of what a step can do. -/
theorem stickyCounterResetPersists : Obligations.StickyCounterResetPersists := by
  intro s t hs hreset h
  refine step_keeps h hs ?reset ?tick ?host ?illegal ?command
  case reset => exact fun later hr => absurd (by simp [hr]) hreset
  case tick => exact fun _ hs => hs
  case host =>
    intro s t hs _ h
    refine hostStep_keeps h hs (fun _ _ => hs) fun cw ops moves => ?_
    obtain ⟨hwf, hsticky, hlast, -⟩ := hs
    refine ⟨hwf, hsticky, hlast, ?_⟩
    intro p hp hw
    obtain rfl : Pos.start = p := by simpa using hp
    simp [Pos.writesCr] at hw
  case illegal =>
    intro s _ ⟨hwf, hsticky, hlast, _⟩ _ _
    exact ⟨hwf, hsticky, hlast, fun _ hp => by simp at hp⟩
  case command => exact fun _ _ _ _ hs _ _ h => exec_keeps_counterResetSticks hs h

/-- Settles O37, by the cases of what a step can do. -/
theorem stepKeepsTheMirrors : Obligations.StepKeepsTheMirrors := by
  intro s t hs h
  refine step_keeps h hs ?reset ?tick ?host ?illegal ?command
  case reset => exact fun later _ => mirrorInv_of_start hs.wf (fun p hp => by simp at hp) (fun hc => by simp at hc)
  case tick => exact fun _ hs => hs
  case host =>
    intro s t hs hp h
    refine hostStep_keeps h hs (fun _ _ => hs) fun cw ops moves => ?_
    obtain ⟨hwf, -, hagree⟩ := hs
    exact mirrorInv_of_start hwf (fun p hp => by simpa using hp.symm)
      fun hc f => hagree f hc (not_initOwes_of_start (fun p h => by simp [hp] at h) f)
  case illegal =>
    intro s e ⟨hwf, _, hagree⟩ hp _
    exact mirrorInv_of_start hwf (fun p hp => by simp at hp)
      fun hc f => hagree f hc (not_initOwes_of_start (fun p h => by simpa [hp] using h.symm) f)
  case command => exact fun _ _ _ _ hs _ hi h => exec_keeps_mirrorInv hs hi h

end Sys2Proof.Machine
end

section
/-! PROOFS. The family 20_memory: host memory byte by byte (20 R60, R62, R63), the alignment of every access (20 R64), which
space a command reaches (20 R61, R65), and the platform's admission (20 R67). -/

/-! ### What a step of a command can do to host memory (20 R61, R65, R67) -/

namespace Sys2Proof

open Machine

/-- The count of words in a buffer of the command, as a command past its checks holds it: SZ for SETKEY, N for the others
(43 R150, R155; 44 R170). -/
def Instr.bufferWords (i : Instr) (s : State) : Word :=
  match i with
  | .setkey _ => s.sz
  | _ => s.n

/-- Where the command's read loop ends: at the end of the buffer, or for ENCODE and DECODE at the end of the chunk. -/
def Instr.readEnd (i : Instr) (s : State) : Word :=
  match i with
  | .setkey _ => s.sz
  | .setiv _ _ => s.n
  | _ => s.endJ

/-- The event is an access to host memory. -/
def Machine.Event.isAccess : Event → Bool
  | .memRd _ _ => true
  | .memWr _ _ => true
  | _ => false

namespace Machine

/-- What a step of `i` from `s` does to the word counts: at the start it sets one with which the check of every buffer passes
(40 R113), and after the start it leaves them alone. -/
structure Counted (i : Instr) (s u : State) : Prop where
  checked : s.phase = .active .start → ∀ x ∈ i.buffers, checkBuffer x.2 (i.bufferWords u) = none
  kept : s.phase ≠ .active .start → u.sz = s.sz ∧ u.n = s.n

/-- `u` is the state in which a step of `i` from `s` makes its event. -/
structure Ready (i : Instr) (s u : State) : Prop extends Prepared s u, Counted i s u

/-- Everything a step of `i` from `s` can do to host memory, with the access it attempts and its answer: read a word of a
source buffer; store ReadChunk's word; make another event of its row of 20 R61; raise a fault; or stop. -/
inductive Reach (i : Instr) (s : State) : Option Attempt → Out → Prop where
  | load {buf : Word} {p : Pos} {u : State} (hu : Ready i s u) (hbuf : (.load, buf) ∈ i.buffers)
      (hj : u.j < i.readEnd u) (hinside : decodeLatch s = .ok i → s.ChunkInside → i.isStream = true → u.endJ ≤ u.n)
      (hp : p ≠ .start ∧ p ≠ .rmwWrite ∧ p ≠ .directionSet) {o : Out}
      (ho : o = loadWord buf (i.bufferWords u) u.j p u) : Reach i s (some ⟨.load, buf, i.bufferWords u, u.j⟩) o
  | store {buf : Word} (hi : i.isStream = true) (hbuf : (.store, buf) ∈ i.buffers) (hp : s.phase = .active .chunkStore)
      {o : Out} (ho : o = storeWord buf s.n s.j .chunkStored s) : Reach i s (some ⟨.store, buf, s.n, s.j⟩) o
  | event {t : State} {e : Event} (htrace : t.trace = e :: s.trace) (hmay : i.mayMake e = true)
      (haccess : e.isAccess = false) (hmem : t.mem = s.mem) (hcount : ∀ q, t.phase = .active q → Counted i s t) :
      Reach i s none (.next t)
  | fault {t : State} (htrace : t.trace = s.trace) (hmem : t.mem = s.mem) (hp : t.phase = .faulted) :
      Reach i s none (.next t)
  | held (hi : i.isInit = true) (hp : s.phase = .active .start) (hh : s.hookHeld = true) :
      Reach i s none (.fault .hookHeld)
  | foreign (hp : ∀ p ∈ i.positions, s.phase ≠ .active p) : Reach i s none (.fault .foreignPosition)

section
variable {i : Instr} {s u : State} {p : Pos}

/-- The access attempted, under another form of it. -/
theorem Reach.congr {x y : Option Attempt} {o : Out} (hx : x = y) (h : Reach i s y o) : Reach i s x o := hx ▸ h

/-- OFF, J and END are not what `Ready` speaks of. -/
theorem Ready.working (h : Ready i s u) (off j endJ : Word) :
    Ready i s { u with off := off, j := j, endJ := endJ } where
  toPrepared := h.toPrepared.trans (by constructor <;> simp)
  checked := h.checked
  kept := h.kept

/-- Past the start, a command is ready. -/
theorem Ready.past (hp : s.phase = .active p) (hps : p ≠ .start) : Ready i s s where
  toPrepared := .refl s
  checked hstart := absurd (by simpa [hp] using hstart) hps
  kept _ := ⟨rfl, rfl⟩

/-- A command without buffers has nothing to check. -/
theorem Ready.of_no_buffers (hi : i.buffers = []) (h : Prepared s u) (hsz : u.sz = s.sz) (hn : u.n = s.n) :
    Ready i s u where
  toPrepared := h
  checked _ := by simp [hi]
  kept _ := ⟨hsz, hn⟩

/-! #### The events, a completion and a raised fault: none is an access -/

theorem busReadCr_reach (hu : Ready i s u) (hmay : ∀ v, i.mayMake (.busRd .cr v) = true) :
    Reach i s none (.next (busReadCr p u)) :=
  .event (congrArg _ hu.trace) (hmay _) rfl hu.mem fun _ _ => ⟨hu.checked, hu.kept⟩

theorem busReadData_reach (hu : Ready i s u) (hmay : ∀ v, i.mayMake (.busRd .data v) = true) :
    Reach i s none (.next (busReadData p u)) :=
  .event (congrArg _ hu.trace) (hmay _) rfl hu.mem fun _ _ => ⟨hu.checked, hu.kept⟩

theorem busWriteCr_reach {w : Word} (hu : Ready i s u) (hmay : ∀ v, i.mayMake (.busWr .cr v) = true) :
    Reach i s none (.next (busWriteCr w p u)) :=
  .event (congrArg _ hu.trace) (hmay _) rfl hu.mem fun _ _ => ⟨hu.checked, hu.kept⟩

theorem busWritePort_reach {r : Reg} {w : Word} (hu : Ready i s u) (hmay : ∀ v, i.mayMake (.busWr r v) = true) :
    Reach i s none (.next (busWritePort r w p u)) :=
  .event (congrArg _ hu.trace) (hmay _) rfl hu.mem fun _ _ => ⟨hu.checked, hu.kept⟩

theorem hookCall_reach (hu : Ready i s u) (hmay : i.mayMake .hook = true) : Reach i s none (.next (hookCall p u)) :=
  .event (congrArg _ hu.trace) hmay rfl hu.mem fun _ _ => ⟨hu.checked, hu.kept⟩

theorem complete_reach {r : Result} (hu : Prepared s u) : Reach i s none (.next (complete r u)) :=
  .event (congrArg _ hu.trace) rfl rfl hu.mem (by simp)

theorem raise_reach {k : FaultKind} (hu : Prepared s u) : Reach i s none (.next (raise k u)) :=
  .fault hu.trace hu.mem rfl

/-- The dispatch check: the command's own step, or a raised fault without an access. -/
theorem whenClocked_reach {x : Option Attempt} {k : Out} (hk : s.clken = true → Reach i s x k)
    (hx : s.clken = false → x = none) : Reach i s x (whenClocked s k) := by
  unfold whenClocked
  cases hc : s.clken with
  | true => exact hk hc
  | false => exact hx hc ▸ raise_reach (.refl s)

/-- The readiness gate: another CR read, or the way out. -/
theorem gateTest_reach {x : Option Attempt} {exit : State → Out} (hs : Ready i s s)
    (hmay : ∀ v, i.mayMake (.busRd .cr v) = true) (hbusy : s.cfg.busy s.tmp = true → x = none)
    (hexit : s.cfg.busy s.tmp = false → Reach i s x (exit s)) : Reach i s x (gateTest exit s) := by
  unfold gateTest
  cases hb : s.cfg.busy s.tmp with
  | true => exact hbusy hb ▸ busReadCr_reach hs hmay
  | false => exact hexit hb

/-! #### The loops -/

/-- SETKEY's loop: a read of the key, or the gate. -/
theorem keyLoop_reach {a : Word} (hu : Ready (.setkey a) s u) :
    Reach (.setkey a) s (if u.j < u.sz then some ⟨.load, a, u.sz, u.j⟩ else none) (keyLoop a u) := by
  unfold keyLoop
  split
  case isTrue hj => exact .load hu (by simp [Instr.buffers]) hj (by simp [Instr.isStream]) (by simp) rfl
  case isFalse => exact busReadCr_reach hu fun _ => rfl

/-- SETIV's zero fill makes no access. -/
theorem zeroLoop_reach {a n : Word} (hu : Ready (.setiv a n) s u) : Reach (.setiv a n) s none (zeroLoop u) := by
  unfold zeroLoop
  split
  · exact busWritePort_reach hu fun _ => rfl
  · exact complete_reach hu.toPrepared

/-- SETIV's loop: a read of the IV, or the zero fill, or the completion. -/
theorem ivLoop_reach {a n : Word} (hu : Ready (.setiv a n) s u) :
    Reach (.setiv a n) s (if u.j < u.n then some ⟨.load, a, u.n, u.j⟩ else none) (ivLoop a u) := by
  unfold ivLoop
  split
  case isTrue hj => exact .load hu (by simp [Instr.buffers]) hj (by simp [Instr.isStream]) (by simp) rfl
  case isFalse =>
    split
    · exact zeroLoop_reach (hu.working ..)
    · exact complete_reach hu.toPrepared

end
section
variable {d : Bool} {src dst len : Word} {s u : State}

@[simp] theorem streamOf_buffers : (streamOf d src dst len).buffers = [(.load, src), (.store, dst)] := by
  cases d <;> rfl

@[simp] theorem streamOf_isStream : (streamOf d src dst len).isStream = true := by
  cases d <;> rfl

@[simp] theorem streamOf_bufferWords : (streamOf d src dst len).bufferWords s = s.n := by
  cases d <;> rfl

@[simp] theorem streamOf_readEnd : (streamOf d src dst len).readEnd s = s.endJ := by
  cases d <;> rfl

@[simp] theorem streamOf_positions : (streamOf d src dst len).positions = streamPositions := by
  cases d <;> rfl

@[simp] theorem streamOf_attempt : s.attempt (streamOf d src dst len) = s.streamAttempt src dst := by
  cases d <;> rfl

theorem exec_streamOf : exec (streamOf d src dst len) s = streamStep d src dst len s := by
  cases d <;> rfl

/-- A command that is ENCODE or DECODE, as `streamOf` gives it. -/
theorem exists_streamOf {i : Instr} (h : i.isStream = true) : ∃ d src dst len, i = streamOf d src dst len := by
  cases i with
  | encode src dst len => exact ⟨false, src, dst, len, rfl⟩
  | decode src dst len => exact ⟨true, src, dst, len, rfl⟩
  | _ => simp [Instr.isStream] at h

/-- WriteChunk's loop: a read of the source, or the gate. -/
theorem writeLoop_reach (hu : Ready (streamOf d src dst len) s u)
    (hinside : decodeLatch s = .ok (streamOf d src dst len) → s.ChunkInside → u.endJ ≤ u.n) :
    Reach (streamOf d src dst len) s (if u.j < u.endJ then some ⟨.load, src, u.n, u.j⟩ else none) (writeLoop src u) := by
  unfold writeLoop
  split
  case isTrue hj =>
    exact .congr (by simp) (.load (buf := src) (p := .chunkWrite) hu (by simp) (by simpa using hj)
      (fun hi hs _ => hinside hi hs) (by simp) (by simp))
  case isFalse => exact busReadCr_reach hu fun _ => by cases d <;> rfl

/-- The chunk loop: a read of the chunk's first source word if there is such a chunk, else the gate or the completion. -/
theorem chunkLoop_reach (hu : Ready (streamOf d src dst len) s u) :
    Reach (streamOf d src dst len) s (u.chunkAttempt src u.off) (chunkLoop src u) := by
  by_cases hoff : u.off < u.n
  · simp only [State.chunkAttempt, chunkLoop, hoff, true_and, if_true]
    refine writeLoop_reach (hu.working u.off u.off _) fun _ _ => ?_
    show (if u.off + u.sz ≤ u.n then u.off + u.sz else u.n) ≤ u.n
    split
    · assumption
    · exact BitVec.le_refl _
  · simp only [State.chunkAttempt, chunkLoop, hoff, false_and, if_false]
    exact complete_reach hu.toPrepared

/-- ReadChunk's loop: a DATA read, or the next chunk. -/
theorem readLoop_reach (hu : Ready (streamOf d src dst len) s u) :
    Reach (streamOf d src dst len) s (if u.j < u.endJ then none else u.chunkAttempt src (u.off + u.sz))
      (readLoop src u) := by
  unfold readLoop
  split
  · exact busReadData_reach hu fun _ => by cases d <;> rfl
  · exact chunkLoop_reach (hu.working (u.off + u.sz) u.j u.endJ)

/-- What ENCODE or DECODE decides at its start makes no access, and goes on only past the check of both buffers. -/
theorem streamStart_reach (hp : s.phase = .active .start) :
    Reach (streamOf d src dst len) s none (streamStart src dst len s) := by
  have hs : Prepared s { s with sz := s.cfg.blockWords s.algoM, n := len } := by constructor <;> simp
  unfold streamStart
  simp only
  split
  · exact complete_reach hs
  · split
    · exact complete_reach hs
    · split
      · exact raise_reach hs
      · rename_i hsrc
        split
        · exact raise_reach hs
        · rename_i hdst
          exact busReadCr_reach ⟨hs, ⟨by simp [hsrc, hdst], absurd hp⟩⟩ fun _ => by cases d <;> rfl

/-! #### The commands -/

/-- A command at a position of none of its own attempts no access. -/
theorem attempt_of_foreign {i : Instr} (h : ∀ p ∈ i.positions, s.phase ≠ .active p) : s.attempt i = none := by
  have hstream : (∀ p ∈ streamPositions, s.phase ≠ .active p) → ∀ src dst, s.streamAttempt src dst = none := by
    intro h src dst
    unfold State.streamAttempt
    split <;> simp_all [streamPositions]
  cases i with
  | setkey a =>
    unfold State.attempt
    split <;> simp_all [Instr.positions]
  | setiv a n =>
    unfold State.attempt
    split <;> simp_all [Instr.positions]
  | encode a b n => exact hstream h a b
  | decode a b n => exact hstream h a b
  | _ => rfl

theorem foreign_reach {i : Instr} (h : ∀ p ∈ i.positions, s.phase ≠ .active p) : Reach i s (s.attempt i) foreign :=
  attempt_of_foreign h ▸ .foreign h

theorem streamStep_reach : Reach (streamOf d src dst len) s (s.streamAttempt src dst) (streamStep d src dst len s) := by
  have hpast {p : Pos} (hp : s.phase = .active p) (hps : p ≠ .start) : Ready (streamOf d src dst len) s s := .past hp hps
  unfold streamStep
  split
  case h_1 hp =>
    exact .congr (by simp only [State.streamAttempt, hp])
      (whenClocked_reach (fun _ => streamStart_reach hp) fun _ => rfl)
  case h_2 hp =>
    exact .congr (by simp only [State.streamAttempt, hp])
      (busWriteCr_reach (hpast hp (by simp)) fun _ => by cases d <;> rfl)
  case h_3 hp =>
    exact .congr (by simp only [State.streamAttempt, State.chunkAttempt, hp])
      (chunkLoop_reach ((hpast hp (by simp)).working 0#32 s.j s.endJ))
  case h_4 hp =>
    exact .congr (by simp only [State.streamAttempt, hp])
      (busWritePort_reach (hpast hp (by simp)) fun _ => by cases d <;> rfl)
  case h_5 hp =>
    have hinside (hi : decodeLatch s = .ok (streamOf d src dst len)) (hs : s.ChunkInside) : s.endJ ≤ s.n := by
      obtain ⟨hend, -⟩ := hs _ _ hp hi (by simp) (by simp) (by simp) (by simp)
      exact hend
    exact .congr (by simp only [State.streamAttempt, hp])
      (writeLoop_reach ((hpast hp (by simp)).working s.off (s.j + 1#32) s.endJ) hinside)
  case h_6 hp =>
    have hs := hpast hp (by simp)
    refine gateTest_reach hs (fun _ => by cases d <;> rfl) (fun hb => by simp [State.streamAttempt, hp, hb]) fun hb => ?_
    exact .congr (by simp [State.streamAttempt, State.chunkAttempt, hp, hb])
      (readLoop_reach (hs.working s.off s.off s.endJ))
  case h_7 hp =>
    exact .congr (by simp only [State.streamAttempt, hp]) (.store (by simp) (by simp) hp rfl)
  case h_8 hp =>
    exact .congr (by simp only [State.streamAttempt, State.chunkAttempt, hp])
      (readLoop_reach ((hpast hp (by simp)).working s.off (s.j + 1#32) s.endJ))
  case h_9 =>
    refine .congr (streamOf_attempt (d := d) (len := len)).symm (foreign_reach ?_)
    simp_all [streamPositions]

end
section
variable {s : State}

theorem execSetkey_reach {a : Word} : Reach (.setkey a) s (s.attempt (.setkey a)) (execSetkey a s) := by
  have hpast {p : Pos} (hp : s.phase = .active p) (hps : p ≠ .start) : Ready (.setkey a) s s := .past hp hps
  unfold execSetkey
  split
  case h_1 hp =>
    have hs : Prepared s { s with sz := s.cfg.keyWords s.algoM } := by constructor <;> simp
    refine .congr (by simp only [State.attempt, hp]) (whenClocked_reach (fun _ => ?_) fun _ => rfl)
    split
    · exact raise_reach hs
    · rename_i hcheck
      exact busReadCr_reach ⟨hs, ⟨by simp [Instr.buffers, Instr.bufferWords, hcheck], absurd hp⟩⟩ fun _ => rfl
  case h_2 hp => exact .congr (by simp only [State.attempt, hp]) (busWriteCr_reach (hpast hp (by simp)) fun _ => rfl)
  case h_3 hp =>
    exact .congr (by simp only [State.attempt, hp]) (keyLoop_reach ((hpast hp (by simp)).working s.off 0#32 s.endJ))
  case h_4 hp => exact .congr (by simp only [State.attempt, hp]) (busWritePort_reach (hpast hp (by simp)) fun _ => rfl)
  case h_5 hp =>
    exact .congr (by simp only [State.attempt, hp])
      (keyLoop_reach ((hpast hp (by simp)).working s.off (s.j + 1#32) s.endJ))
  case h_6 hp =>
    exact .congr (by simp only [State.attempt, hp])
      (gateTest_reach (hpast hp (by simp)) (fun _ => rfl) (fun _ => rfl) fun _ => complete_reach (.refl s))
  case h_7 =>
    exact foreign_reach (by simp_all [Instr.positions])

theorem execSetiv_reach {a n : Word} : Reach (.setiv a n) s (s.attempt (.setiv a n)) (execSetiv a n s) := by
  have hpast {p : Pos} (hp : s.phase = .active p) (hps : p ≠ .start) : Ready (.setiv a n) s s := .past hp hps
  unfold execSetiv
  split
  case h_1 hp =>
    have hs : Prepared s { s with n := n } := by constructor <;> simp
    refine whenClocked_reach (fun hc => ?_) fun hc => by simp [State.attempt, hp, hc]
    split
    · rename_i hcheck
      exact .congr (by simp [State.attempt, hp, hcheck]) (raise_reach hs)
    · rename_i hcheck
      have hready : Ready (.setiv a n) s { s with n := n } :=
        ⟨hs, ⟨by simp [Instr.buffers, Instr.bufferWords, hcheck], absurd hp⟩⟩
      exact .congr (by simp [State.attempt, hp, hcheck, hc]) (ivLoop_reach (hready.working s.off 0#32 s.endJ))
  case h_2 hp => exact .congr (by simp only [State.attempt, hp]) (busWritePort_reach (hpast hp (by simp)) fun _ => rfl)
  case h_3 hp =>
    exact .congr (by simp only [State.attempt, hp])
      (ivLoop_reach ((hpast hp (by simp)).working s.off (s.j + 1#32) s.endJ))
  case h_4 hp =>
    exact .congr (by simp only [State.attempt, hp])
      (zeroLoop_reach ((hpast hp (by simp)).working s.off (s.j + 1#32) s.endJ))
  case h_5 =>
    exact foreign_reach (by simp_all [Instr.positions])

theorem setterStep_reach {i : Instr} {f : Field} {w : Word} (hbuf : i.buffers = []) (hpos : i.positions = setterPositions f)
    (hrd : ∀ v, i.mayMake (.busRd .cr v) = true) (hwr : ∀ v, i.mayMake (.busWr .cr v) = true) :
    Reach i s none (setterStep f w s) := by
  unfold setterStep
  split
  case h_1 =>
    exact whenClocked_reach (fun _ => busReadCr_reach (.of_no_buffers hbuf (.refl s) rfl rfl) hrd) fun _ => rfl
  case h_2 g hp =>
    split
    · exact busWriteCr_reach (.of_no_buffers hbuf (.writeMirror f w s) (by simp) (by simp)) hwr
    · exact .foreign (by simp_all [setterPositions])
  case h_3 => exact complete_reach (.refl s)
  case h_4 =>
    exact .foreign (by simp_all [setterPositions])

theorem execWaitrdy_reach : Reach .waitrdy s none (execWaitrdy s) := by
  have hs : Ready .waitrdy s s := .of_no_buffers rfl (.refl s) rfl rfl
  unfold execWaitrdy
  split
  · exact whenClocked_reach (fun _ => busReadCr_reach hs fun _ => rfl) fun _ => rfl
  · exact gateTest_reach hs (fun _ => rfl) (fun _ => rfl) fun _ => complete_reach (.refl s)
  · exact .foreign (by simp_all [Instr.positions])

theorem execRstcnt_reach : Reach .rstcnt s none (execRstcnt s) := by
  have hs : Ready .rstcnt s s := .of_no_buffers rfl (.refl s) rfl rfl
  unfold execRstcnt
  split
  · exact whenClocked_reach (fun _ => busReadCr_reach hs fun _ => rfl) fun _ => rfl
  · exact busWriteCr_reach hs fun _ => rfl
  · exact complete_reach (.refl s)
  · exact .foreign (by simp_all [Instr.positions])

theorem execInit_reach {a m w o : Word} : Reach (.init a m w o) s none (execInit a m w o s) := by
  have hread {p : Pos} : Reach (.init a m w o) s none (.next (busReadCr p s)) :=
    busReadCr_reach (.of_no_buffers rfl (.refl s) rfl rfl) fun _ => rfl
  have hwrite {f : Field} {v : Word} {p : Pos} : Reach (.init a m w o) s none (.next (fieldWrite f v p s)) :=
    busWriteCr_reach (.of_no_buffers rfl (.writeMirror f v s) (by simp) (by simp)) fun _ => rfl
  unfold execInit
  split
  case h_1 hp =>
    split
    · rename_i hh
      exact .held rfl hp hh
    · exact hookCall_reach (.of_no_buffers rfl (.refl s) rfl rfl) rfl
  case h_2 => exact busReadCr_reach (.of_no_buffers rfl (by constructor <;> simp) rfl rfl) fun _ => rfl
  case h_10 => exact complete_reach (.refl s)
  case h_11 =>
    exact .foreign (by simp_all [Instr.positions])
  case h_4 | h_6 | h_8 => exact hread
  all_goals exact hwrite

/-- What a step of any command can do to host memory, with what it attempts. -/
theorem exec_reach (i : Instr) (s : State) : Reach i s (s.attempt i) (exec i s) := by
  cases i with
  | waitrdy => exact execWaitrdy_reach
  | init a m w o => exact execInit_reach
  | setalgo v => exact setterStep_reach rfl rfl (fun _ => rfl) fun _ => rfl
  | setmode v => exact setterStep_reach rfl rfl (fun _ => rfl) fun _ => rfl
  | setswap v => exact setterStep_reach rfl rfl (fun _ => rfl) fun _ => rfl
  | setorder v => exact setterStep_reach rfl rfl (fun _ => rfl) fun _ => rfl
  | setkey a => exact execSetkey_reach
  | setiv a n => exact execSetiv_reach
  | encode a b n => exact streamStep_reach (d := false)
  | decode a b n => exact streamStep_reach (d := true)
  | rstcnt => exact execRstcnt_reach

/-- The same, by the answer of the step. -/
theorem exec_reach_of {i : Instr} {o : Out} (h : exec i s = o) : ∃ x, s.attempt i = x ∧ Reach i s x o :=
  ⟨_, rfl, h ▸ exec_reach i s⟩

end
end Machine
end Sys2Proof

/-! ### Alignment (20 R64, 40 R113) -/

namespace Sys2Proof

open Machine

/-- At position `p` the buffers that `i` still accesses are aligned, and ENCODE or DECODE of no word is at its direction write
or has just made it (20 R64, 40 R113). -/
structure Instr.AlignedAt (i : Instr) (p : Pos) (s : State) : Prop where
  buffers : i.bufferWords s ≠ 0#32 → ∀ x ∈ i.buffers, x.2.toNat % 4 = 0
  words : i.isStream = true → s.n = 0#32 → p = .rmwWrite ∨ p = .directionSet

/-- A count above an index is not 0. -/
theorem word_ne_zero_of_lt {j n : Word} (h : j < n) : n ≠ 0#32 := by
  rintro rfl
  exact BitVec.not_lt_zero h

/-- A command that attempts to read a word of a buffer has a buffer of words. -/
theorem Instr.bufferWords_ne_zero {i : Instr} {buf : Word} {s : State} (hbuf : (.load, buf) ∈ i.buffers)
    (hj : s.j < i.readEnd s) (hstream : i.isStream = true → s.n ≠ 0#32) : i.bufferWords s ≠ 0#32 := by
  cases i with
  | setkey a => exact word_ne_zero_of_lt hj
  | setiv a n => exact word_ne_zero_of_lt hj
  | encode a b n => exact hstream rfl
  | decode a b n => exact hstream rfl
  | _ => simp [Instr.buffers] at hbuf

/-- Where the word counts are the same, so are the words of a buffer. -/
theorem Instr.bufferWords_congr {i : Instr} {s t : State} (hsz : t.sz = s.sz) (hn : t.n = s.n) :
    i.bufferWords t = i.bufferWords s := by
  simp only [Instr.bufferWords, hsz, hn]

namespace Machine

/-- A buffer of words that passes its check is aligned (40 R113). -/
theorem aligned_of_checkBuffer {a n : Word} (h : checkBuffer a n = none) (hn : n ≠ 0#32) : a.toNat % 4 = 0 := by
  by_contra ha
  simp [checkBuffer, hn, ha] at h

/-- The words of an aligned buffer are aligned (20 R65). -/
theorem wordAddr_aligned {a : Word} (h : a.toNat % 4 = 0) (j : Word) : (wordAddr a j).toNat % 4 = 0 := by
  simp only [wordAddr, BitVec.toNat_add, BitVec.toNat_mul, BitVec.toNat_ofNat]
  omega

/-- An event that is no access is aligned. -/
theorem Event.aligned_of_not_access {e : Event} (h : e.isAccess = false) : e.aligned = true := by
  cases e with
  | memRd | memWr => simp [Event.isAccess] at h
  | _ => rfl

section
variable {s t : State} {i : Instr} {p q : Pos}

/-- The invariant of the buffers, uniformly over the commands. -/
theorem buffersAligned_iff :
    s.BuffersAligned ↔ ∀ p i, s.phase = .active p → p ≠ .start → decodeLatch s = .ok i → i.AlignedAt p s := by
  constructor
  · intro h p i hp hps hi
    have h := h p hp hps
    rw [hi] at h
    cases i <;> constructor <;> simp_all [Instr.buffers, Instr.bufferWords, Instr.isStream]
  · intro h p hp hps
    cases hi : decodeLatch s with
    | error e => trivial
    | ok i =>
      obtain ⟨hbuffers, hwords⟩ := h p i hp hps hi
      cases i <;> simp_all [Instr.buffers, Instr.bufferWords, Instr.isStream]

/-- What a step of a command does to the word counts, wherever it ends. -/
theorem exec_counted (h : exec i s = .next t) (hq : t.phase = .active q) : Counted i s t := by
  obtain ⟨x, -, hreach⟩ := exec_reach_of h
  cases hreach with
  | load hu hbuf hj hinside hp ho =>
    obtain ⟨-, rfl⟩ := loadWord_next.mp ho.symm
    exact ⟨hu.checked, hu.kept⟩
  | store hi hbuf hp ho =>
    obtain ⟨-, rfl⟩ := storeWord_next.mp ho.symm
    exact ⟨fun hstart => by simp [hstart] at hp, fun _ => ⟨rfl, rfl⟩⟩
  | event htrace hmay haccess hmem hcount => exact hcount q hq
  | fault htrace hmem hp => simp [hp] at hq

/-- ENCODE or DECODE past its checks goes to its direction write. -/
theorem streamStart_position {src dst len : Word} (h : streamStart src dst len s = .next t) (hq : t.phase = .active q) :
    q = .rmwWrite := by
  unfold streamStart at h
  simp only at h
  split at h
  · cases h; simp at hq
  · split at h
    · cases h; simp at hq
    · split at h
      · cases h; simp at hq
      · split at h <;> cases h
        · simp at hq
        · simpa using hq.symm

/-- ENCODE or DECODE of no word makes its direction write and completes (44 R170). -/
theorem streamStep_empty {d : Bool} {src dst len : Word} (h : streamStep d src dst len s = .next t)
    (hq : t.phase = .active q) (hp : s.phase = .active p)
    (hs : p ≠ .start → s.n = 0#32 ∧ (p = .rmwWrite ∨ p = .directionSet)) : q = .rmwWrite ∨ q = .directionSet := by
  by_cases hps : p = .start
  · simp only [streamStep, hp, hps] at h
    obtain ⟨-, h⟩ | ⟨-, rfl⟩ := whenClocked_next.mp h
    · exact .inl (streamStart_position h hq)
    · simp at hq
  · obtain ⟨hn, rfl | rfl⟩ := hs hps
    · simp only [streamStep, hp] at h
      cases h
      exact .inr (by simpa [directionWrite] using hq.symm)
    · simp only [streamStep, hp, chunkLoop, hn, BitVec.not_lt_zero, if_false] at h
      cases h
      simp at hq

/-- A step of a command keeps the buffers it still accesses aligned. -/
theorem exec_keeps_buffersAligned (hs : s.BuffersAligned) (hp : s.phase = .active p) (hi : decodeLatch s = .ok i)
    (h : exec i s = .next t) : t.BuffersAligned := by
  rw [buffersAligned_iff] at hs ⊢
  intro q j hq _ hj
  obtain rfl : i = j := by simpa [(exec_effect h).latch, hi] using hj
  have hcount := exec_counted h hq
  constructor
  case buffers =>
    intro hne x hx
    by_cases hps : p = .start
    · exact aligned_of_checkBuffer (hcount.checked (hps ▸ hp) x hx) hne
    · obtain ⟨hsz, hn⟩ := hcount.kept (by simp [hp, hps])
      exact (hs p i hp hps hi).buffers (Instr.bufferWords_congr hsz hn ▸ hne) x hx
  case words =>
    intro hstream hn
    obtain ⟨d, src, dst, len, rfl⟩ := exists_streamOf hstream
    rw [exec_streamOf] at h
    refine streamStep_empty h hq hp fun hps => ?_
    obtain ⟨-, hkept⟩ := hcount.kept (by simp [hp, hps])
    have hn0 : s.n = 0#32 := hkept ▸ hn
    exact ⟨hn0, (hs p _ hp hps hi).words hstream hn0⟩

/-- A step of a command makes no misaligned access. -/
theorem exec_keeps_traceAligned (hs : ∀ e ∈ s.trace, e.aligned = true) (ht : t.BuffersAligned)
    (hi : decodeLatch s = .ok i) (h : exec i s = .next t) : ∀ e ∈ t.trace, e.aligned = true := by
  have hlatch : decodeLatch t = .ok i := (exec_effect h).latch.trans hi
  have haligned {q : Pos} (hq : t.phase = .active q) (hqs : q ≠ .start) : i.AlignedAt q t :=
    buffersAligned_iff.mp ht q i hq hqs hlatch
  obtain ⟨x, -, hreach⟩ := exec_reach_of h
  cases hreach with
  | @load buf q u hu hbuf hj _ hq _ ho =>
    obtain ⟨-, rfl⟩ := loadWord_next.mp ho.symm
    obtain ⟨hqs, hqrmw, hqdir⟩ := hq
    obtain ⟨hbuffers, hwords⟩ := haligned rfl hqs
    have hne : i.bufferWords u ≠ 0#32 := Instr.bufferWords_ne_zero hbuf hj fun hstream hn => by
      obtain hq | hq := hwords hstream hn
      · exact hqrmw hq
      · exact hqdir hq
    have hbuf : (wordAddr buf u.j).toNat % 4 = 0 := wordAddr_aligned (hbuffers hne _ hbuf) u.j
    rw [memRead_trace, hu.trace]
    exact List.forall_mem_cons.mpr ⟨by simpa [Event.aligned] using hbuf, hs⟩
  | @store buf hstream hbuf _ _ ho =>
    obtain ⟨-, rfl⟩ := storeWord_next.mp ho.symm
    obtain ⟨hbuffers, hwords⟩ := haligned (q := .chunkStored) rfl (by simp)
    have hne : i.bufferWords s ≠ 0#32 := by
      obtain ⟨d, src, dst, len, rfl⟩ := exists_streamOf hstream
      simpa using hwords hstream
    have hbuf : (wordAddr buf s.j).toNat % 4 = 0 := wordAddr_aligned (hbuffers hne _ hbuf) s.j
    rw [memWrite_trace]
    exact List.forall_mem_cons.mpr ⟨by simpa [Event.aligned] using hbuf, hs⟩
  | event htrace _ haccess =>
    rw [htrace]
    exact List.forall_mem_cons.mpr ⟨Event.aligned_of_not_access haccess, hs⟩
  | fault htrace => exact htrace ▸ hs

/-- A state with no command past its start has no buffer still to access. -/
theorem buffersAligned_of_start (hp : ∀ p, s.phase = .active p → p = .start) : s.BuffersAligned :=
  fun p h hps => absurd (hp p h) hps

/-- Settles O38, by the cases of what a step can do: every command checks its buffers before its first access. -/
theorem stepKeepsAccessesAligned : Obligations.StepKeepsAccessesAligned := by
  intro s t hs h
  refine step_keeps h hs ?reset ?tick ?host ?illegal ?command
  case reset =>
    obtain ⟨htrace, -⟩ := hs
    exact fun later _ => ⟨List.forall_mem_cons.mpr ⟨rfl, htrace⟩, buffersAligned_of_start fun p hp => by simp at hp⟩
  case tick => exact fun _ hs => hs
  case host =>
    intro s t hs hp h
    refine hostStep_keeps h hs (fun _ _ => hs) fun cw ops moves => ?_
    obtain ⟨htrace, -⟩ := hs
    exact ⟨List.forall_mem_cons.mpr ⟨rfl, htrace⟩, buffersAligned_of_start fun p hp => by simpa using hp.symm⟩
  case illegal =>
    intro s e ⟨htrace, _⟩ _ _
    exact ⟨List.forall_mem_cons.mpr ⟨rfl, htrace⟩, buffersAligned_of_start fun p hp => by simp at hp⟩
  case command =>
    intro s t p i ⟨htrace, hbuffers⟩ hp hi h
    have ht := exec_keeps_buffersAligned hbuffers hp hi h
    exact ⟨exec_keeps_traceAligned htrace ht hi h, ht⟩

end
end Machine
end Sys2Proof

/-! ### Host memory (20 R60, R62, R63) -/

namespace Sys2Proof.Machine

/-- A word is its four bytes, the last one lowest. -/
theorem append_bytes (w : Word) :
    w.extractLsb' 24 8 ++ w.extractLsb' 16 8 ++ w.extractLsb' 8 8 ++ w.extractLsb' 0 8 = w := by
  have high : w.extractLsb' 24 8 ++ w.extractLsb' 16 8 = w.extractLsb' 16 16 :=
    BitVec.extractLsb'_append_extractLsb'_eq_extractLsb' rfl
  have upper : w.extractLsb' 16 16 ++ w.extractLsb' 8 8 = w.extractLsb' 8 24 :=
    BitVec.extractLsb'_append_extractLsb'_eq_extractLsb' rfl
  have all : w.extractLsb' 8 24 ++ w.extractLsb' 0 8 = w.extractLsb' 0 32 :=
    BitVec.extractLsb'_append_extractLsb'_eq_extractLsb' rfl
  rw [high, upper, all, BitVec.extractLsb'_eq_self]

/-- A word written to canonical memory reads back whole, in either byte order. -/
theorem Memory.readWord_writeWord (o : ByteOrder) (a w : Word) {m : List Host.Cell} (h : Memory.wf m = true) :
    Memory.readWord o a (Memory.writeWord o a w m) = w := by
  have hbyte (i : Nat) (hi : i < 4) := Memory.read_writeWord_lane o a w m h i hi
  simp only [Memory.readWord, hbyte 0 (by omega), hbyte 1 (by omega), hbyte 2 (by omega), hbyte 3 (by omega)]
  cases o <;> exact append_bytes w

/-- A word write leaves every byte outside its four alone. -/
theorem Memory.read_writeWord_other (o : ByteOrder) (a w : Word) (m : List Host.Cell) {b : Nat}
    (hb : ∀ i < 4, b ≠ Memory.lane a i) : Memory.read b (Memory.writeWord o a w m) = Memory.read b m := by
  rw [Memory.writeWord_eq, Memory.read_write_other _ _ _ _ (hb 3 (by omega)),
    Memory.read_write_other _ _ _ _ (hb 2 (by omega)), Memory.read_write_other _ _ _ _ (hb 1 (by omega)),
    Memory.read_write_other _ _ _ _ (hb 0 (by omega))]

/-- Settles O57, byte by byte. -/
theorem memoryReadsWhatWasWritten : Obligations.MemoryReadsWhatWasWritten :=
  fun o a w m => ⟨Memory.readWord_writeWord o a w, fun _ => Memory.read_writeWord_other o a w m⟩

section
variable {s t : State} {i : Instr}

/-- A step of a command leaves memory in its canonical form: it writes whole words or nothing. -/
theorem Effect.memory_wf (e : Effect s t) (h : Memory.wf s.mem = true) : Memory.wf t.mem = true := by
  cases e with
  | store a w p hu => exact Memory.writeWord_wf _ _ _ _ (hu.mem ▸ h)
  | _ =>
    rename_i hu
    exact hu.mem ▸ h

/-- The host's move leaves memory in its canonical form. -/
theorem hostStep_memory_wf (h : hostStep s = .next t) (hs : Memory.wf s.mem = true) : Memory.wf t.mem = true := by
  obtain rfl | ⟨addr, b, _, -, rfl⟩ | ⟨_, _, _, _, _, -, -, rfl⟩ := hostStep_next h
  · exact hs
  · exact Memory.write_wf _ b _ addr.isLt hs
  · exact hs

/-- Settles O40, by the cases of what a step can do. -/
theorem stepKeepsMemoryCanonical : Obligations.StepKeepsMemoryCanonical := by
  intro s t hs h
  refine step_keeps (P := fun s => Memory.wf s.mem = true) h hs ?reset ?tick ?host ?illegal ?command
  case reset => exact fun _ _ => hs
  case tick => exact fun _ hs => hs
  case host => exact fun _ _ hs _ h => hostStep_memory_wf h hs
  case illegal => exact fun _ _ hs _ _ => hs
  case command => exact fun _ _ _ _ hs _ _ h => (exec_effect h).memory_wf hs

/-- A command's words that are not all there are no command yet (30 R82). -/
theorem takeCommand_incomplete {words : List Word}
    (h : ∀ cw ops, words = cw :: ops → ops.length < operandCount (opcOf cw)) : takeCommand words = none := by
  cases words with
  | nil => rfl
  | cons cw ops => simp [takeCommand, h cw ops rfl]

/-- Settles O9: the step is the host's move. -/
theorem hostStoresAndWaitsWhileIdle : Obligations.HostStoresAndWaitsWhileIdle := by
  constructor
  · intro s addr b moves hr hp hh
    refine ⟨{ s with mem := Memory.write addr.toNat b s.mem, host := moves }, ?_, rfl, ?_, ?_⟩
    · simp only [step_no_reset hr, advance, hp, hostStep, hh]
    · exact fun a => Memory.read_write_other addr.toNat a b s.mem
    · exact Memory.read_write_same addr.toNat b 0 s.mem
  · intro s words moves hr hp hh hshort
    simp only [step_no_reset hr, advance, hp, hostStep, hh, takeCommand_incomplete hshort]

/-! ### What a command reaches (20 R61, R65) -/

/-- A step of a command leaves memory alone, or it is ReadChunk's store of V at word J of the destination. -/
theorem exec_memory (h : exec i s = .next t) :
    t.mem = s.mem ∨ (i.isStream = true ∧ s.phase = .active .chunkStore ∧ ∃ buf, (.store, buf) ∈ i.buffers ∧
      t.mem = Memory.writeWord s.cfg.byteOrder (wordAddr buf s.j) s.v s.mem) := by
  obtain ⟨x, -, hreach⟩ := exec_reach_of h
  cases hreach with
  | load hu _ _ _ _ ho =>
    obtain ⟨-, rfl⟩ := loadWord_next.mp ho.symm
    exact .inl hu.mem
  | @store buf hstream hbuf hp _ ho =>
    obtain ⟨-, rfl⟩ := storeWord_next.mp ho.symm
    exact .inr ⟨hstream, hp, buf, hbuf, rfl⟩
  | event _ _ _ hmem => exact .inl hmem
  | fault _ hmem => exact .inl hmem

/-- Settles O58: the one store is ReadChunk's, of the four bytes of one word. -/
theorem onlyReadChunkStores : Obligations.OnlyReadChunkStores := by
  intro i s t h
  obtain hmem | ⟨hstream, hp, buf, hbuf, hmem⟩ := exec_memory h
  · exact ⟨fun _ => hmem, fun _ _ _ _ _ _ _ => by rw [hmem]⟩
  · refine ⟨by simp [hstream, hp], ?_⟩
    rintro d src dst len rfl a ha
    obtain rfl : buf = dst := by simpa using hbuf
    rw [hmem]
    exact Memory.read_writeWord_other _ _ _ _ ha

/-- A command with a buffer to read may read memory: the two columns of the table of 20 R61 agree. -/
theorem mayMake_memRd {buf : Word} (hbuf : (.load, buf) ∈ i.buffers) (a v : Word) : i.mayMake (.memRd a v) = true := by
  cases i with
  | setkey | setiv | encode | decode => rfl
  | _ => simp [Instr.buffers] at hbuf

/-- Settles O46, by the cases of what a step of a command can do to host memory. -/
theorem commandsReachOnlyTheirSpaces : Obligations.CommandsReachOnlyTheirSpaces := by
  intro i s t e h htrace
  obtain ⟨x, -, hreach⟩ := exec_reach_of h
  cases hreach with
  | @load buf p u hu hbuf hj hinside _ _ ho =>
    obtain ⟨-, rfl⟩ := loadWord_next.mp ho.symm
    obtain rfl : e = .memRd (wordAddr buf u.j) (u.readMem (wordAddr buf u.j)) := by
      simpa [hu.trace] using htrace.symm
    refine ⟨?_, ?_, by simp⟩
    · exact mayMake_memRd hbuf _ _
    · rintro a w ⟨⟩
      refine ⟨buf, hbuf, rfl, by cases i <;> exact hj, fun hstream hi hs => ?_⟩
      obtain ⟨d, src, dst, len, rfl⟩ := exists_streamOf hstream
      exact Nat.lt_of_lt_of_le (show u.j < u.endJ by simpa using hj) (hinside hi hs hstream)
  | @store buf hstream hbuf hp _ ho =>
    obtain ⟨-, rfl⟩ := storeWord_next.mp ho.symm
    obtain rfl : e = .memWr (wordAddr buf s.j) s.v := by simpa using htrace.symm
    refine ⟨hstream, by simp, ?_⟩
    rintro a w ⟨⟩
    refine ⟨buf, hbuf, rfl, fun hi hs => ?_⟩
    obtain ⟨hend, hj⟩ := hs _ i hp hi hstream (by simp) (by simp) (by simp)
    exact Nat.lt_of_lt_of_le (hj rfl) hend
  | @event _ e' htrace' hmay haccess =>
    obtain rfl : e' = e := by simpa [htrace'] using htrace
    exact ⟨hmay, fun _ _ he => by simp [he, Event.isAccess] at haccess,
      fun _ _ he => by simp [he, Event.isAccess] at haccess⟩
  | fault htrace' => simp [htrace'] at htrace

/-! ### Where a command stops (20 R67, 60 R208) -/

/-- A load stops only where it is not admitted. -/
theorem loadWord_fault {buf n j : Word} {p : Pos} {f : Fault} (h : loadWord buf n j p s = .fault f) :
    f = .notAdmitted ∧ s.cfg.admits .load buf n j = false := by
  unfold loadWord at h
  split at h <;> cases h
  simp_all

/-- A store stops only where it is not admitted. -/
theorem storeWord_fault {buf n j : Word} {p : Pos} {f : Fault} (h : storeWord buf n j p s = .fault f) :
    f = .notAdmitted ∧ s.cfg.admits .store buf n j = false := by
  unfold storeWord at h
  split at h <;> cases h
  simp_all

/-- No step of a command is refused. -/
theorem exec_not_refused (r : Refusal) : exec i s ≠ .refused r := by
  intro h
  obtain ⟨x, -, hreach⟩ := exec_reach_of h
  cases hreach with
  | load _ _ _ _ _ ho => unfold loadWord at ho; split at ho <;> cases ho
  | store _ _ _ ho => unfold storeWord at ho; split at ho <;> cases ho

/-- Settles O48, by the cases of what a step of a command can do to host memory. -/
theorem commandsStopOnlyWhenStuck : Obligations.CommandsStopOnlyWhenStuck := by
  intro i s
  refine ⟨exec_not_refused, fun f h => ?_⟩
  obtain ⟨x, hx, hreach⟩ := exec_reach_of h
  cases hreach with
  | @load buf p u hu _ _ _ _ _ ho =>
    obtain ⟨rfl, hadmits⟩ := loadWord_fault ho.symm
    exact .inr (.inl ⟨rfl, _, hx, hu.cfg ▸ hadmits⟩)
  | store _ _ _ ho =>
    obtain ⟨rfl, hadmits⟩ := storeWord_fault ho.symm
    exact .inr (.inl ⟨rfl, _, hx, hadmits⟩)
  | held hi hp hh => exact .inl ⟨rfl, hi, hp, hh⟩
  | foreign hp => exact .inr (.inr ⟨rfl, hp⟩)

/-- Settles O49: the step is the access, a load from a buffer or a store to one. -/
theorem accessesAreMadeExactlyWhenAdmitted : Obligations.AccessesAreMadeExactlyWhenAdmitted := by
  intro i s x hx
  have hreach := exec_reach i s
  rw [hx] at hreach
  generalize exec i s = o at hreach
  cases hreach with
  | @load buf p u hu _ _ _ _ _ ho =>
    subst ho
    have hread : u.readMem (wordAddr buf u.j) = s.readMem (wordAddr buf u.j) := by
      simp only [State.readMem, hu.cfg, hu.mem]
    constructor
    · intro hadmits
      simp [loadWord, hu.cfg, hadmits]
    · intro hadmits
      refine ⟨_, loadWord_next.mpr ⟨hu.cfg ▸ hadmits, rfl⟩, ?_, nofun⟩
      exact fun _ => ⟨by simp [hread, hu.trace], by simp [hread], hu.mem⟩
  | store _ _ _ ho =>
    subst ho
    constructor
    · intro hadmits
      simp [storeWord, hadmits]
    · intro hadmits
      exact ⟨_, storeWord_next.mpr ⟨hadmits, rfl⟩, nofun, fun _ => ⟨rfl, rfl⟩⟩

end

/-! ### What the platform admits (20 R67) -/

/-- The four bytes of an access lie in a region exactly when each of them does. -/
theorem four_bytes_inside {base size a : Nat} :
    (base ≤ a ∧ a + 4 ≤ base + size) ↔ ∀ b < 4, base ≤ a + b ∧ a + b < base + size := by
  constructor
  · omega
  · intro h
    have hfirst := h 0 (by omega)
    have hlast := h 3 (by omega)
    omega

/-- A buffer of `k` bytes shares no byte with a register exactly when none of its bytes is one of the register's. -/
theorem bytes_apart {r a k : Nat} (hk : 0 < k) :
    ¬ (r < a + k ∧ a < r + 4) ↔ ∀ b < k, ¬ (r ≤ a + b ∧ a + b < r + 4) := by
  constructor
  · omega
  · intro h
    have hfirst := h 0 hk
    have hregister := h (r - a)
    omega

end Sys2Proof.Machine

namespace Sys2Proof

open Machine

/-- An access lies in a region that allows it, byte by byte. -/
theorem Params.inRegion_iff (p : Params) (k : Access) (a : Word) :
    p.inRegion k a = true ↔ ∃ r ∈ p.regions, permits r k = true ∧
      ∀ b < 4, r.base ≤ a.toNat + b ∧ a.toNat + b < r.base + r.size := by
  simp only [Params.inRegion, List.any_eq_true, Bool.and_eq_true, decide_eq_true_eq, four_bytes_inside, and_comm]

/-- A buffer of words is apart from the registers, byte by byte. -/
theorem Params.overlapsRegisters_eq_false_iff (p : Params) (buf : Word) {n : Word} (hn : n ≠ 0#32) :
    p.overlapsRegisters buf n = false ↔ ∀ q ∈ [Reg.cr, .key, .iv, .data], ∀ b < 4 * n.toNat,
      ¬ ((p.regAddr q).toNat ≤ buf.toNat + b ∧ buf.toNat + b < (p.regAddr q).toNat + 4) := by
  have hpos : 0 < 4 * n.toNat := by
    have : n.toNat ≠ 0 := fun h => hn (BitVec.eq_of_toNat_eq h)
    omega
  have hq (q : Reg) := bytes_apart (r := (p.regAddr q).toNat) (a := buf.toNat) hpos
  simp only [← hq]
  simp [Params.overlapsRegisters]

/-- Settles O51: the region byte by byte, and the registers byte by byte. -/
theorem admissionRule : Obligations.AdmissionRule := by
  intro p k buf n i hn
  rw [← p.inRegion_iff, ← p.overlapsRegisters_eq_false_iff buf hn]
  simp [Params.admits]

end Sys2Proof
end

section
/-! PROOFS. The family 30_encoding: the words of a command (30 R80 to R90). Decoding is turned around part by part: the
command word's two fields, the opcode map, and the words off the front of the stream. -/

namespace Sys2Proof

/-! ### The command word and the opcode map (30 R80, R84, R85) -/

/-- A command word without reserved bits is its opcode, zero-extended (30 R80, R88). -/
theorem eq_setWidth_of_rsvOf {cw : Word} (h : rsvOf cw = 0#24) : cw = (opcOf cw).setWidth 32 :=
  have hsplit : rsvOf cw ++ opcOf cw = cw :=
    (BitVec.extractLsb'_append_extractLsb'_eq_extractLsb' rfl).trans BitVec.extractLsb'_eq_self
  calc cw = 0#24 ++ opcOf cw := by rw [← h, hsplit]
    _ = (opcOf cw).setWidth 32 := (BitVec.setWidth_eq_append (by decide)).symm

/-- A command's opcode is one of the eleven (30 R84). -/
theorem Instr.opcode_defined (i : Instr) : 0x01#8 ≤ i.opcode ∧ i.opcode ≤ 0x0B#8 := by
  cases i <;> simp only [opcode] <;> decide

/-- The opcodes that are no command's: 0x00 and 0x0C..0xFF (30 R86). -/
theorem reserved_iff (opc : BitVec 8) : (opc = 0x00#8 ∨ 0x0C#8 ≤ opc) ↔ ¬ (0x01#8 ≤ opc ∧ opc ≤ 0x0B#8) := by
  bv_omega

/-- A reserved opcode takes no operand words (30 R82). -/
theorem operandCount_reserved {opc : BitVec 8} (h : opc = 0x00#8 ∨ 0x0C#8 ≤ opc) : operandCount opc = 0 := by
  unfold operandCount
  split_ifs <;> bv_omega

/-- No command has more operands than there are slots (30 R81). -/
theorem operandCount_le_four (opc : BitVec 8) : operandCount opc ≤ 4 := by
  unfold operandCount
  split_ifs <;> omega

section
variable {opc : BitVec 8} {rsv : BitVec 24} {o0 o1 o2 o3 : Word} {i : Instr}

/-- The command that the opcode map gives has that opcode, and the slots of its format are its operands (30 R84, R85). -/
theorem fields_of_ofOpcode (h : ofOpcode opc o0 o1 o2 o3 = some i) :
    i.opcode = opc ∧ i.operands = [o0, o1, o2, o3].take (operandCount opc) := by
  unfold ofOpcode at h
  iterate 11 -- a row of the map: its opcode, or the rows after it
    obtain ⟨rfl, h⟩ | ⟨-, h⟩ := ite_eq_iff.mp h
    · cases h
      exact ⟨rfl, rfl⟩
  cases h

/-- The opcode map gives a command for the eleven opcodes and no other, whatever the slots hold (30 R84, R87). -/
theorem exists_ofOpcode_iff : (∃ i, ofOpcode opc o0 o1 o2 o3 = some i) ↔ 0x01#8 ≤ opc ∧ opc ≤ 0x0B#8 := by
  constructor
  · rintro ⟨i, hi⟩
    obtain ⟨rfl, -⟩ := fields_of_ofOpcode hi
    exact i.opcode_defined
  · intro hopc
    have hrow : opc = 0x01#8 ∨ opc = 0x02#8 ∨ opc = 0x03#8 ∨ opc = 0x04#8 ∨ opc = 0x05#8 ∨ opc = 0x06#8 ∨
        opc = 0x07#8 ∨ opc = 0x08#8 ∨ opc = 0x09#8 ∨ opc = 0x0A#8 ∨ opc = 0x0B#8 := by bv_omega
    obtain rfl | rfl | rfl | rfl | rfl | rfl | rfl | rfl | rfl | rfl | rfl := hrow <;> exact ⟨_, rfl⟩

/-- A latch decodes exactly when no reserved bit is set and the opcode map has its command (30 R86). -/
theorem decodeFields_eq_ok_iff :
    decodeFields opc rsv o0 o1 o2 o3 = .ok i ↔ rsv = 0#24 ∧ ofOpcode opc o0 o1 o2 o3 = some i := by
  unfold decodeFields
  by_cases hrsv : rsv = 0#24
  · cases ofOpcode opc o0 o1 o2 o3 <;> simp [hrsv]
  · simp [hrsv]

/-- A latch is rejected exactly for a reserved bit that is set or a reserved opcode (30 R86). -/
theorem exists_decodeFields_error_iff :
    (∃ e, decodeFields opc rsv o0 o1 o2 o3 = .error e) ↔ rsv ≠ 0#24 ∨ opc = 0x00#8 ∨ 0x0C#8 ≤ opc := by
  have hok : (∃ i, decodeFields opc rsv o0 o1 o2 o3 = .ok i) ↔ rsv = 0#24 ∧ 0x01#8 ≤ opc ∧ opc ≤ 0x0B#8 := by
    simp only [decodeFields_eq_ok_iff, exists_and_left, exists_ofOpcode_iff]
  have herror : (∃ e, decodeFields opc rsv o0 o1 o2 o3 = .error e) ↔
      ¬ ∃ i, decodeFields opc rsv o0 o1 o2 o3 = .ok i := by
    cases decodeFields opc rsv o0 o1 o2 o3 <;> simp
  rw [herror, hok, reserved_iff, ← not_and_or]

/-! ### A command off the front of a stream (30 R82) -/

variable {ws ops rest : List Word} {cw : Word}

/-- The words taken off a stream are the stream's own, and as many as the opcode says. -/
theorem takeCommand_eq_some_iff :
    takeCommand ws = some (cw, ops, rest) ↔ ws = cw :: (ops ++ rest) ∧ ops.length = operandCount (opcOf cw) := by
  constructor
  · intro h
    cases ws with
    | nil => cases h
    | cons w tail =>
      simp only [takeCommand] at h
      split_ifs at h with hshort
      cases h
      exact ⟨by rw [List.take_append_drop], List.length_take_of_le (Nat.le_of_not_lt hshort)⟩
  · rintro ⟨rfl, hlen⟩
    exact takeCommand_append rest hlen

/-- Once its words are taken, a stream decodes as the command word's fields and the operand slots do. -/
theorem decode_of_takeCommand (h : takeCommand ws = some (cw, ops, rest)) :
    decode ws = (decodeFields (opcOf cw) (rsvOf cw) (ops.getD 0 0) (ops.getD 1 0) (ops.getD 2 0) (ops.getD 3 0)).map
      (·, rest) := by
  simp only [decode, h]
  cases decodeFields (opcOf cw) (rsvOf cw) (ops.getD 0 0) (ops.getD 1 0) (ops.getD 2 0) (ops.getD 3 0) <;> rfl

/-- Mapping over an answer leaves an error as it is. -/
theorem except_map_eq_error_iff {ε α β : Type} {f : α → β} {x : Except ε α} {e : ε} :
    x.map f = .error e ↔ x = .error e := by
  cases x <;> simp [Except.map]

/-- Up to four operand words fill the slots in order. -/
theorem take_slots (h : ops.length ≤ 4) :
    [ops.getD 0 0, ops.getD 1 0, ops.getD 2 0, ops.getD 3 0].take ops.length = ops := by
  match ops, h with
  | [], _ | [_], _ | [_, _], _ | [_, _, _], _ | [_, _, _, _], _ => rfl

/-! ### Decode and encode (30 R80 to R85) -/

/-- A command's words decode to the command, whatever follows them. -/
theorem decode_encode (i : Instr) (rest : List Word) : decode (encode i ++ rest) = .ok (i, rest) := by
  obtain ⟨hrsv, hopc⟩ := Laws.AlwaysWellFormed.header i.opcode
  rw [decode_of_takeCommand (takeCommand_encode i rest), hrsv, hopc, decodeFields_operands]
  rfl

/-- A stream that decodes to a command begins with that command's words. -/
theorem eq_encode_of_decode (h : decode ws = .ok (i, rest)) : ws = encode i ++ rest := by
  cases htake : takeCommand ws with
  | none => simp [decode, htake] at h
  | some taken =>
    obtain ⟨cw, ops, rest'⟩ := taken
    obtain ⟨rfl, hlen⟩ := takeCommand_eq_some_iff.mp htake
    rw [decode_of_takeCommand htake] at h
    cases hfields : decodeFields (opcOf cw) (rsvOf cw) (ops.getD 0 0) (ops.getD 1 0) (ops.getD 2 0) (ops.getD 3 0) with
    | error e =>
      rw [hfields] at h
      cases h
    | ok i' =>
      rw [hfields] at h
      cases h
      obtain ⟨hrsv, hmap⟩ := decodeFields_eq_ok_iff.mp hfields
      obtain ⟨hopc, hops⟩ := fields_of_ofOpcode hmap
      rw [← hlen, take_slots (hlen ▸ operandCount_le_four _)] at hops
      rw [encode, hopc, hops, ← eq_setWidth_of_rsvOf hrsv, List.cons_append]

end

/-- Settles O2: decode turns back encode, and encode turns back decode. -/
theorem decodesExactlyItsEncoding : Obligations.DecodesExactlyItsEncoding := by
  intro ws i rest
  exact ⟨eq_encode_of_decode, fun h => h ▸ decode_encode i rest⟩

/-- Settles O3: with all its words there, a command is rejected as its latch is. -/
theorem illegalWordsAreRejected : Obligations.IllegalWordsAreRejected := by
  intro cw rest hlen
  have htake : takeCommand (cw :: rest) = some (cw, rest.take _, rest.drop _) :=
    takeCommand_eq_some_iff.mpr ⟨by rw [List.take_append_drop], List.length_take_of_le hlen⟩
  simp only [decode_of_takeCommand htake, except_map_eq_error_iff, exists_decodeFields_error_iff]

/-- Settles O5: the opcode map has a command for every slot content. -/
theorem everyOperandValueIsAccepted : Obligations.EveryOperandValueIsAccepted := by
  intro opc o0 o1 o2 o3 hfirst hlast
  obtain ⟨i, hi⟩ := exists_ofOpcode_iff.mpr ⟨hfirst, hlast⟩
  exact ⟨i, decodeFields_eq_ok_iff.mpr ⟨rfl, hi⟩, fields_of_ofOpcode hi⟩

/-- Settles O1: each written-out stream runs through `decode`. -/
theorem specWordsDecode : Obligations.SpecWordsDecode := by
  unfold Obligations.SpecWordsDecode
  decide

/-- Settles O4: the words taken are as many as the opcode says, and the table of operand counts. -/
theorem lengthIsFixedByOpcode : Obligations.LengthIsFixedByOpcode :=
  ⟨fun _ _ rest => takeCommand_append rest, fun _ => operandCount_reserved, by decide⟩

/-! ### Accept of any command word (40 R101; 30 R82, R86) -/

/-- Settles O8: the step is the Accept of the words that `takeCommand` gives, legal or not. -/
theorem acceptTakesTheWordsOfItsOpcode : Obligations.AcceptTakesTheWordsOfItsOpcode := by
  intro s cw ops rest moves hr hp hh hlen
  simp only [Machine.step_no_reset hr, Machine.advance, hp, Machine.hostStep, hh, takeCommand_append rest hlen]
  rfl

end Sys2Proof
end

section
/-! PROOFS. The family 40_command_cycle: a step of the active command (40 R102, R103), during which the host makes no
move (40 R101); ENCODE's and DECODE's checks before their first event (40 R113, 60 R204); what a CR read answers (40 R107);
and the direction write (40 R112). -/

/-! ### The step of an active command (40 R101 to R103) -/

namespace Sys2Proof.Machine

variable {s t : State} {i : Instr}

/-- With no Reset due, a step is `advance` of the state one step nearer to the Reset to come, if one is (60 R213). -/
theorem step_no_reset_due (h : s.resets.head? ≠ some 0) : step s = awaitReset (tickReset s) (advance (tickReset s)) := by
  unfold step
  split
  case h_1 later hr => simp [hr] at h
  case h_2 => rfl

/-- Coming one step nearer to the next Reset (log 7). -/
theorem tickReset_cons {k : Nat} {later : List Nat} (h : s.resets = (k + 1) :: later) :
    tickReset s = { s with resets := k :: later } := by
  simp [tickReset, h]

/-- Settles O6: a step is `advance`, of the state itself or one step nearer to the Reset to come. -/
theorem stepRunsTheLatchedCommand : Obligations.StepRunsTheLatchedCommand := by
  intro s p i hp hi
  constructor
  · intro hr
    rw [step_no_reset hr, advance_active hp hi]
  · intro k later hr
    rw [step_no_reset_due (by simp [hr]), advance_active (s := tickReset s) hp hi, tickReset_cons hr]

/-- Settles O16: the dispatch check comes before all else. -/
theorem notInitialisedFault : Obligations.NotInitialisedFault :=
  fun _ _ => exec_start_unclocked

/-- A step's effect is one event that is recorded and raises nothing, or a raised fault and no event (40 R103). -/
theorem Effect.event_or_fault (e : Effect s t) :
    (∃ ev, t.trace = ev :: s.trace ∧ t.fault = s.fault ∧ t.phase ≠ .faulted) ∨
      (t.trace = s.trace ∧ t.phase = .faulted ∧ t.fault ≠ none) := by
  cases e with
  | fault k h => exact .inr ⟨h.trace, rfl, by simp⟩
  | _ =>
    rename_i h
    exact .inl ⟨_, congrArg _ h.trace, h.fault, by simp⟩

/-- Settles O45: a step of a command is internal computation and one effect. -/
theorem oneEventOrOneFault : Obligations.OneEventOrOneFault :=
  fun _ _ _ h => (exec_effect h).event_or_fault

/-- No step of a command records an Accept: it is no event of any command's (20 R61). -/
theorem exec_trace_ne_accept (h : exec i s = .next t) (ws : List Word) : t.trace ≠ .accept ws :: s.trace := by
  intro htrace
  obtain ⟨hmay, -⟩ := commandsReachOnlyTheirSpaces i s t _ h htrace
  cases hmay

/-- Settles O11: of all that a step can do, only the host's move takes a move or records an Accept, and it needs IDLE. -/
theorem noHostMoveUnlessIdle : Obligations.NoHostMoveUnlessIdle := by
  intro s t h hp
  obtain ⟨later, -, rfl⟩ | ⟨-, ⟨-, rfl⟩ | ⟨hidle, -⟩ | ⟨e, -, -, rfl⟩ | ⟨p, i, -, -, hexec⟩⟩ := step_next h
  case inl => exact ⟨rfl, by simp [deviceReset]⟩
  case inr.inl => exact ⟨rfl, by simp [tickReset]⟩
  case inr.inr.inl => exact absurd hidle hp
  case inr.inr.inr.inl => exact ⟨rfl, by simp⟩
  case inr.inr.inr.inr =>
    obtain ⟨-, -, -, -, -, -, -, hhost, -⟩ := (exec_effect hexec).common
    exact ⟨hhost, exec_trace_ne_accept (s := tickReset s) hexec⟩

/-- The host's move never stops the CCD. -/
theorem hostStep_ne_fault (s : State) (f : Fault) : hostStep s ≠ .fault f := by
  unfold hostStep
  split
  · simp
  · simp
  · split <;> simp

/-- At its start an illegal command completes (60 R203). -/
theorem illegalStep_start (hp : s.phase = .active .start) : illegalStep s = .next (complete .illegal s) := by
  simp only [illegalStep, hp]

/-- A step stops only where `advance` does. -/
theorem advance_of_step_fault {f : Fault} (h : step s = .fault f) : advance (tickReset s) = .fault f := by
  have hdue : s.resets.head? ≠ some 0 := by
    intro hr
    obtain ⟨later, hr⟩ := List.head?_eq_some_iff.mp hr
    simp [step, hr] at h
  rw [step_no_reset_due hdue] at h
  cases ha : advance (tickReset s) with
  | next t => simp [ha, awaitReset] at h
  | refused r => simp [ha, awaitReset] at h
  | fault g =>
    simp only [ha, awaitReset] at h
    split at h
    · exact h
    · cases h

/-- An active command at one of its own positions, or an illegal one at the start, does not stop as foreign (log 13). -/
theorem State.PositionOwned.advance_ne_foreign (hs : s.PositionOwned) : advance s ≠ .fault .foreignPosition := by
  intro h
  cases hp : s.phase with
  | idle =>
    simp only [advance, hp] at h
    exact hostStep_ne_fault s _ h
  | faulted => simp [advance, hp] at h
  | active p =>
    have howned := hs p hp
    cases hi : decodeLatch s with
    | ok i =>
      rw [advance_active hp hi] at h
      obtain ⟨-, hstops⟩ := commandsStopOnlyWhenStuck i s
      obtain ⟨hf, -⟩ | ⟨hf, -⟩ | ⟨-, hforeign⟩ := hstops _ h
      · cases hf
      · cases hf
      · exact hforeign p (by simpa [hi] using howned) hp
    | error e =>
      obtain rfl : p = .start := by simpa [hi] using howned
      simp [advance, hp, hi, illegalStep_start hp] at h

/-- Settles O52: the invariant holds the active command at one of its own positions. -/
theorem noForeignPositionIsReached : Obligations.NoForeignPositionIsReached := by
  intro s ⟨_, _, howned, _⟩ h
  exact State.PositionOwned.advance_ne_foreign (s := tickReset s) howned (advance_of_step_fault h)

end Sys2Proof.Machine

/-! ### What ENCODE and DECODE check before their first event (40 R113, 44 R170, 60 R204) -/

namespace Sys2Proof.Machine

/-- CheckBuffer raises Misaligned first (40 R113, 60 R204). -/
theorem checkBuffer_misaligned {a n : Word} (hn : n ≠ 0#32) (ha : a.toNat % 4 ≠ 0) :
    checkBuffer a n = some .misaligned := by
  simp [checkBuffer, hn, ha]

/-- CheckBuffer raises AddressWrap for an aligned buffer that runs past the top of the address space (40 R113). -/
theorem checkBuffer_addressWrap {a n : Word} (hn : n ≠ 0#32) (ha : a.toNat % 4 = 0)
    (hw : a.toNat + 4 * n.toNat > 2 ^ 32) : checkBuffer a n = some .addressWrap := by
  rw [checkBuffer, if_neg hn, if_neg (not_not.mpr ha), if_pos hw]

/-- CheckBuffer passes an empty buffer, and an aligned one that ends in the address space (40 R113). -/
theorem checkBuffer_passes {a n : Word} (h : n = 0#32 ∨ (a.toNat % 4 = 0 ∧ a.toNat + 4 * n.toNat ≤ 2 ^ 32)) :
    checkBuffer a n = none := by
  obtain rfl | ⟨ha, hw⟩ := h
  · simp [checkBuffer]
  · simpa [checkBuffer, ha] using fun _ => hw

/-- A word divides another exactly when its number does. -/
theorem word_mod_eq_zero_iff {a b : Word} : a % b = 0#32 ↔ a.toNat % b.toNat = 0 := by
  simp [BitVec.toNat_eq]

/-- `Stream(d)` has assigned SZ and N and decided nothing yet (44 R170; log 12). -/
def State.sized (len : Word) (s : State) : State := { s with sz := s.cfg.blockWords s.algoM, n := len }

section
variable {d : Bool} {src dst len : Word} {s : State} {k : FaultKind}

/-- Past its dispatch ENCODE or DECODE decides what comes before its first event (44 R170). -/
theorem exec_streamOf_start (hp : s.phase = .active .start) (hc : s.clken = true) :
    exec (streamOf d src dst len) s = streamStart src dst len s := by
  simp only [exec_streamOf, streamStep, hp, whenClocked, hc, if_true]

/-- An ALGO mirror of no algorithm completes with UNSUPPORTED_ALGO, before all other checks (44 R179). -/
theorem streamStart_unsupportedAlgo (hbw : s.cfg.blockWords s.algoM = 0#32) :
    streamStart src dst len s = .next (complete .unsupportedAlgo (s.sized len)) := by
  simp [streamStart, State.sized, hbw]

/-- A length that is no whole number of blocks completes with ALIGN, before the buffers are checked (44 R171). -/
theorem streamStart_align (hbw : s.cfg.blockWords s.algoM ≠ 0#32) (hlen : len % s.cfg.blockWords s.algoM ≠ 0#32) :
    streamStart src dst len s = .next (complete .align (s.sized len)) := by
  simp [streamStart, State.sized, hbw, hlen]

/-- A source buffer that fails its check raises that fault, whatever the destination is (40 R113, 60 R204). -/
theorem streamStart_source (hbw : s.cfg.blockWords s.algoM ≠ 0#32) (hlen : len % s.cfg.blockWords s.algoM = 0#32)
    (hsrc : checkBuffer src len = some k) : streamStart src dst len s = .next (raise k (s.sized len)) := by
  simp [streamStart, State.sized, hbw, hlen, hsrc]

/-- Past the source buffer, a destination buffer that fails its check raises that fault (40 R113, 60 R204). -/
theorem streamStart_destination (hbw : s.cfg.blockWords s.algoM ≠ 0#32) (hlen : len % s.cfg.blockWords s.algoM = 0#32)
    (hsrc : checkBuffer src len = none) (hdst : checkBuffer dst len = some k) :
    streamStart src dst len s = .next (raise k (s.sized len)) := by
  simp [streamStart, State.sized, hbw, hlen, hsrc, hdst]

/-- Past all checks comes the direction's CR read (44 R170). -/
theorem streamStart_passes (hbw : s.cfg.blockWords s.algoM ≠ 0#32) (hlen : len % s.cfg.blockWords s.algoM = 0#32)
    (hsrc : checkBuffer src len = none) (hdst : checkBuffer dst len = none) :
    streamStart src dst len s = .next (busReadCr .rmwWrite (s.sized len)) := by
  simp [streamStart, State.sized, hbw, hlen, hsrc, hdst]

end

/-- Settles O17: each clause is the outcome of `streamStart` that its buffers' checks select. -/
theorem streamChecksInOrder : Obligations.StreamChecksInOrder := by
  rintro d src dst len bw s hp hc rfl
  simp only [exec_streamOf_start hp hc, ← word_mod_eq_zero_iff, ne_eq]
  refine ⟨?unsupported, ?align, ?srcMisaligned, ?srcWraps, ?dstMisaligned, ?dstWraps, ?passes⟩
  case unsupported => exact streamStart_unsupportedAlgo
  case align => exact streamStart_align
  case srcMisaligned =>
    intro hbw hlen hne hsrc
    exact streamStart_source hbw hlen (checkBuffer_misaligned hne hsrc)
  case srcWraps =>
    intro hbw hlen hsrc hwraps hne
    exact streamStart_source hbw hlen (checkBuffer_addressWrap hne hsrc hwraps)
  case dstMisaligned =>
    intro hbw hlen hne hsrc hfits hdst
    exact streamStart_destination hbw hlen (checkBuffer_passes (.inr ⟨hsrc, hfits⟩)) (checkBuffer_misaligned hne hdst)
  case dstWraps =>
    intro hbw hlen hne hsrc hfits hdst hwraps
    exact streamStart_destination hbw hlen (checkBuffer_passes (.inr ⟨hsrc, hfits⟩))
      (checkBuffer_addressWrap hne hdst hwraps)
  case passes =>
    intro hbw hlen hbuf
    exact streamStart_passes hbw hlen (checkBuffer_passes (hbuf.imp_right fun ⟨hsrc, hfits, _⟩ => ⟨hsrc, hfits⟩))
      (checkBuffer_passes (hbuf.imp_right fun ⟨_, _, hdst, hfits⟩ => ⟨hdst, hfits⟩))

end Sys2Proof.Machine

/-! ### What a CR read answers (40 R107) -/

namespace Sys2Proof

variable {p : Params} {i : Nat}

/-- DECODE and the fields lie in the word (00 R9). -/
theorem Params.WF.stored_lt (h : p.WF) (hi : i = p.decodeBit ∨ ∃ f, i ∈ (p.field f).bits) : i < 32 := by
  obtain rfl | ⟨f, hf⟩ := hi
  · exact h.decode_lt
  · obtain ⟨-, hfields, -⟩ := h
    obtain ⟨-, hend⟩ := hfields (p.field f) (by cases f <;> simp [Params.field])
    obtain ⟨-, hlt⟩ := (FieldPos.mem_bits _ i).mp hf
    omega

/-- DECODE and the fields are stored bits (40 R107). -/
theorem Params.WF.storedMask_of_named (h : p.WF) (hi : i = p.decodeBit ∨ ∃ f, i ∈ (p.field f).bits) :
    p.storedMask.getLsbD i = true := by
  have hlt := h.stored_lt hi
  obtain rfl | ⟨f, hf⟩ := hi
  · simp [Params.storedMask_getLsbD, hlt]
  · exact p.fieldMask_stored ((p.fieldMask_getLsbD_iff f hlt).mpr hf)

/-- BUSY_MASK has BUSY's bit (00 R9, R10). -/
theorem Params.WF.busyMask_busyBit (h : p.WF) : p.busyMask.getLsbD p.busyBit = true :=
  (bitMask_getLsbD_iff h.busy_lt).mpr rfl

/-- BUSY is no stored bit (00 R9). -/
theorem Params.WF.storedMask_busyBit (h : p.WF) : p.storedMask.getLsbD p.busyBit = false := by
  refine Bool.eq_false_iff.mpr fun hi => ?_
  obtain ⟨hbusy, -⟩ := h.stored_apart hi
  simp [h.busyMask_busyBit] at hbusy

/-- CNTRST is no stored bit (00 R9). -/
theorem Params.WF.storedMask_cntrstBit (h : p.WF) : p.storedMask.getLsbD p.cntrstBit = false := by
  refine Bool.eq_false_iff.mpr fun hi => ?_
  obtain ⟨-, hcntrst⟩ := h.stored_apart hi
  simp [h.cntrstMask_cntrstBit] at hcntrst

/-- What a CR read answers at CNTRST has no other bit (40 R107). -/
theorem Params.cntrstAnswer_getLsbD_outside (hi : p.cntrstMask.getLsbD i = false) (last draw : Word) :
    (p.cntrstAnswer last draw).getLsbD i = false := by
  unfold Params.cntrstAnswer
  split <;> simp [hi]

/-- A CR read gives the draw at a drawn bit that is neither stored nor CNTRST's (40 R107). -/
theorem Params.crAnswer_getLsbD_drawn (hdrawn : p.drawnMask.getLsbD i = true) (hstored : p.storedMask.getLsbD i = false)
    (hcntrst : p.cntrstMask.getLsbD i = false) (last draw : Word) :
    (p.crAnswer last draw).getLsbD i = draw.getLsbD i := by
  simp [Params.crAnswer, hdrawn, hstored, Params.cntrstAnswer_getLsbD_outside hcntrst]

/-- BUSY reads as drawn (40 R107). -/
theorem Params.WF.crAnswer_busyBit (h : p.WF) (last draw : Word) :
    (p.crAnswer last draw).getLsbD p.busyBit = draw.getLsbD p.busyBit := by
  obtain ⟨-, hbc, -⟩ := h.disjoint
  refine Params.crAnswer_getLsbD_drawn ?_ h.storedMask_busyBit ?_ last draw
  · simp [Params.drawnMask, h.busyMask_busyBit]
  · simp [Params.cntrstMask, bitMask_getLsbD, hbc]

/-- An unnamed bit reads as drawn (40 R107). -/
theorem Params.crAnswer_unnamed (hi : i < 32) (hnamed : i ∉ p.namedBits) (last draw : Word) :
    (p.crAnswer last draw).getLsbD i = draw.getLsbD i := by
  have hmask : p.namedMask.getLsbD i = false := by
    rw [← Bool.not_eq_true, p.namedMask_getLsbD_iff hi]
    exact hnamed
  obtain ⟨⟨hstored, -⟩, hcntrst⟩ :
      (p.storedMask.getLsbD i = false ∧ p.busyMask.getLsbD i = false) ∧ p.cntrstMask.getLsbD i = false := by
    simpa [Params.namedMask] using hmask
  have hdrawn : p.drawnMask.getLsbD i = true := by
    simp only [Params.drawnMask, BitVec.getLsbD_or, BitVec.getLsbD_not, hi, hmask, decide_true, Bool.not_false,
      Bool.and_true, Bool.or_true]
  exact Params.crAnswer_getLsbD_drawn hdrawn hstored hcntrst last draw

/-- CNTRST reads as `CNTRST_READBACK` says (40 R107). -/
theorem Params.WF.crAnswer_cntrstBit (h : p.WF) (last draw : Word) :
    (p.crAnswer last draw).getLsbD p.cntrstBit = (p.cntrstAnswer last draw).getLsbD p.cntrstBit := by
  obtain ⟨-, hbc, -⟩ := h.disjoint
  have hdrawn : p.drawnMask.getLsbD p.cntrstBit = false := by
    simp [Params.drawnMask, Params.namedMask, h.cntrstMask_cntrstBit, Params.busyMask, bitMask_getLsbD, hbc.symm]
  simp [Params.crAnswer, h.storedMask_cntrstBit, hdrawn]

/-- Settles O53: stored bits, BUSY, CNTRST and the unnamed bits, each by its mask. -/
theorem crReadBack : Obligations.CrReadBack := by
  intro p last draw h
  refine ⟨?stored, h.crAnswer_busyBit last draw, ?cntrst, fun i hi hnamed => Params.crAnswer_unnamed hi hnamed last draw⟩
  case stored =>
    intro i hi
    exact and_mask_eq_iff.mp (h.crAnswer_stored last draw) i (h.storedMask_of_named hi)
  case cntrst =>
    rw [h.crAnswer_cntrstBit]
    unfold Params.cntrstAnswer
    cases p.cntrstReadback <;> simp [h.cntrstMask_cntrstBit]

end Sys2Proof

/-! ### The direction write (40 R112, 43 R151, 44 R174) -/

namespace Sys2Proof

/-- A direction value has the direction at DECODE (40 R112). -/
theorem Params.WF.directionValue_decodeBit {p : Params} (h : p.WF) (d : Bool) :
    (p.directionValue d).getLsbD p.decodeBit = d := by
  cases d
  · simp [Params.directionValue]
  · exact (bitMask_getLsbD_iff h.decode_lt).mpr rfl

namespace Machine

variable {s : State} {d : Bool}

/-- The direction write puts the direction in DECODE (40 R112). -/
theorem directionWrite_decodeBit (h : s.cfg.WF) (d : Bool) (q : Pos) :
    (directionWrite d q s).crLast.getLsbD s.cfg.decodeBit = d := by
  have hmask : s.cfg.decodeMask.getLsbD s.cfg.decodeBit = true := (bitMask_getLsbD_iff h.decode_lt).mpr rfl
  simp [directionWrite, rmwValue_getLsbD, hmask, h.directionValue_decodeBit]

/-- The direction write writes every bit but DECODE back as read (40 R112). -/
theorem directionWrite_kept {b : Nat} (hb : b ≠ s.cfg.decodeBit) (d : Bool) (q : Pos) :
    (directionWrite d q s).crLast.getLsbD b = s.tmp.getLsbD b := by
  have hmask : s.cfg.decodeMask.getLsbD b = false := by simp [Params.decodeMask, bitMask_getLsbD, hb]
  by_cases hlt : b < 32
  · exact rmwValue_getLsbD_kept hlt hmask (Params.directionValue_getLsbD_outside hmask d)
  · rw [BitVec.getLsbD_of_ge _ _ (by omega), BitVec.getLsbD_of_ge _ _ (by omega)]

/-- The step of SETKEY, ENCODE and DECODE after their first CR read is the direction write, 0 for SETKEY and ENCODE and 1 for
DECODE (43 R150, R151; 44 R170, R174). -/
theorem exec_rmwWrite_direction {i : Instr} (hp : s.phase = .active .rmwWrite)
    (hi : (∃ a, i = .setkey a) ∧ d = false ∨ ∃ src dst len, i = streamOf d src dst len) :
    exec i s = .next (directionWrite d .directionSet s) := by
  obtain ⟨⟨a, rfl⟩, rfl⟩ | ⟨src, dst, len, rfl⟩ := hi
  · simp only [exec, execSetkey, hp]
  · simp only [exec_streamOf, streamStep, hp]

/-- Settles O56: the step is the direction write. -/
theorem directionWriteTouchesDecodeOnly : Obligations.DirectionWriteTouchesDecodeOnly := by
  intro i d s hwf hp hi
  exact ⟨_, exec_rmwWrite_direction hp hi, directionWrite_decodeBit hwf d _, fun b hb => directionWrite_kept hb d _⟩

end Machine

end Sys2Proof
end

section
/-! PROOFS. The family 41_readiness_gate: one step in the gate of any command that has one, any number of its CR reads
(41 R120, R121), WAITRDY from its start to its end (41 R122, R123), and ENCODE and DECODE from the gate on (44 R170, R172). -/

namespace Sys2Proof.Machine

variable {s : State} {i : Instr}

/-! ### One step in the gate (41 R120) -/

/-- While BUSY reads 1, the step of any command in its gate is a CR read and nothing else. -/
theorem exec_gate_busy (hi : .gate ∈ i.positions) (hp : s.phase = .active .gate) (hb : s.cfg.busy s.tmp = true) :
    exec i s = .next (busReadCr .gate s) := by
  have hgate (exit : State → Out) : gateTest exit s = .next (busReadCr .gate s) := gateTest_next.mpr (.inl ⟨hb, rfl⟩)
  cases i with
  | waitrdy => simp only [exec, execWaitrdy, hp, hgate]
  | setkey a => simp only [exec, execSetkey, hp, hgate]
  | encode src dst len => simp only [exec, execEncode, streamStep, hp, hgate]
  | decode src dst len => simp only [exec, execDecode, streamStep, hp, hgate]
  | _ => simp [Instr.positions, setterPositions] at hi

/-- WAITRDY's first step is the gate's first CR read (41 R120, R122). -/
theorem exec_waitrdy_start (hp : s.phase = .active .start) (hc : s.clken = true) :
    exec .waitrdy s = .next (busReadCr .gate s) := by
  simp only [exec, execWaitrdy, hp, whenClocked, hc, if_true]

/-- WAITRDY completes at the first answer with BUSY 0 (41 R120, R122). -/
theorem exec_waitrdy_ready (hp : s.phase = .active .gate) (hb : s.cfg.busy s.tmp = false) :
    exec .waitrdy s = .next (complete .ok s) := by
  simp only [exec, execWaitrdy, hp]
  exact gateTest_next.mpr (.inr ⟨hb, rfl⟩)

/-- Settles O18, position by position. -/
theorem waitrdyPollsThenCompletes : Obligations.WaitrdyPollsThenCompletes :=
  fun _ => ⟨exec_waitrdy_start, exec_gate_busy (by decide), exec_waitrdy_ready⟩

/-! ### Any number of the gate's CR reads (41 R120, R121) -/

/-- `s` after `k` CR reads of the gate. -/
def gateReads : Nat → State → State
  | 0, s => s
  | k + 1, s => gateReads k (busReadCr .gate s)

/-- The gate's CR reads change only TMP, PHASE, the draws to come and the trace. -/
theorem gateReads_frame (k : Nat) (s : State) :
    gateReads k s =
      { s with
        tmp := (gateReads k s).tmp, phase := (gateReads k s).phase, answers := s.answers.drop k, draws := s.draws + k,
        trace := (gateReads k s).trace } := by
  induction k generalizing s with
  | zero => rfl
  | succ k ih =>
    refine (ih (busReadCr .gate s)).trans ?_
    simp [gateReads, busReadCr, Nat.add_comm, Nat.add_left_comm]

/-- The gate's CR reads leave the command in its gate. -/
theorem gateReads_phase (k : Nat) (hp : s.phase = .active .gate) : (gateReads k s).phase = .active .gate := by
  induction k generalizing s with
  | zero => exact hp
  | succ k ih => exact ih rfl

@[simp] theorem gateReads_cfg (k : Nat) (s : State) : (gateReads k s).cfg = s.cfg := by rw [gateReads_frame]

/-- The gate's CR reads bring no Reset. -/
theorem gateReads_resets (k : Nat) (s : State) : (gateReads k s).resets = s.resets := by rw [gateReads_frame]

/-- The gate's CR reads leave the command in the latch. -/
theorem gateReads_latch (k : Nat) (s : State) : decodeLatch (gateReads k s) = decodeLatch s := by
  rw [gateReads_frame]; rfl

/-- The gate's CR reads are all that they add to the trace. -/
theorem gateReads_trace (k : Nat) (s : State) :
    ∃ reads, (gateReads k s).trace = reads ++ s.trace ∧ reads.length = k ∧ ∀ e ∈ reads, ∃ x, e = .busRd .cr x := by
  induction k generalizing s with
  | zero => exact ⟨[], rfl, rfl, by simp⟩
  | succ k ih =>
    obtain ⟨reads, htrace, hlen, hreads⟩ := ih (busReadCr .gate s)
    refine ⟨reads ++ [.busRd .cr s.crAnswer], by simpa [gateReads] using htrace, by simp [hlen], fun e he => ?_⟩
    obtain he | rfl := by simpa using he
    · exact hreads e he
    · exact ⟨_, rfl⟩

/-- What a CR read says of BUSY is the next coming draw's (40 R107). -/
theorem crAnswer_busy {w : Word} (hwf : s.cfg.WF) (hw : s.answers.head? = some w) :
    s.cfg.busy s.crAnswer = w.getLsbD s.cfg.busyBit := by
  obtain ⟨ws, hw⟩ := List.head?_eq_some_iff.mp hw
  have hdraw : s.nextDraw = w := by simp only [State.nextDraw, hw]
  rw [← hdraw]
  exact hwf.crAnswer_busyBit s.crLast s.nextDraw

/-- The last of the gate's CR reads says of BUSY what its own draw does (40 R107). -/
theorem gateReads_busy {k : Nat} {w : Word} (hwf : s.cfg.WF) (hw : s.answers[k]? = some w) :
    s.cfg.busy (gateReads (k + 1) s).tmp = w.getLsbD s.cfg.busyBit := by
  induction k generalizing s with
  | zero => exact crAnswer_busy hwf (by rwa [List.head?_eq_getElem?])
  | succ k ih => exact ih (s := busReadCr .gate s) hwf (by simpa using hw)

/-- While every CR read finds BUSY 1, a command with a gate stays in it, one read a step: there is no bound (41 R121). -/
theorem run_gate_busy (k n : Nat) (hgate : .gate ∈ i.positions) (hr : s.resets = []) (hp : s.phase = .active .gate)
    (hi : decodeLatch s = .ok i) (hb : ∀ m < k, s.cfg.busy (gateReads m s).tmp = true) :
    core.run (k + n) s = core.run n (gateReads k s) := by
  induction k generalizing s with
  | zero => rw [Nat.zero_add]; rfl
  | succ k ih =>
    have hread := exec_gate_busy hgate hp (hb 0 k.succ_pos)
    rw [Nat.succ_add, run_step _ hr hp hi hread]
    exact ih (s := busReadCr .gate s) hr rfl hi fun m hm => hb (m + 1) (Nat.succ_lt_succ hm)

/-- Settles O28: TMP says BUSY before the first of the k reads and after each of them. -/
theorem gateHangsWhileBusy : Obligations.GateHangsWhileBusy := by
  intro k s hwf hr hp hi hb hk hbusy
  have hall : ∀ m ≤ k, s.cfg.busy (gateReads m s).tmp = true := by
    rintro (_ | m) hm
    · exact hb
    · have hw : s.answers[m]? = some s.answers[m] := List.getElem?_eq_getElem (by omega)
      rw [gateReads_busy hwf hw]
      exact hbusy _ (List.mem_take_iff_getElem.mpr ⟨m, by omega, rfl⟩)
  obtain ⟨reads, htrace, hlen, hreads⟩ := gateReads_trace k s
  refine ⟨gateReads k s, reads, ?_, hall k le_rfl, htrace, hlen, hreads, ?_⟩
  · exact run_gate_busy k 0 (by decide) hr hp hi fun m hm => hall m (Nat.le_of_lt hm)
  · exact (gateReads_frame k s).trans (by rw [gateReads_phase k hp])

/-- Settles O29: the first step makes the first read, each busy answer another, and the ready one ends the gate. -/
theorem gateEndsAtFirstReadyAnswer : Obligations.GateEndsAtFirstReadyAnswer := by
  intro ws w rest s hwf hr hp hc hi hans hbusy hready
  have hall : ∀ m < ws.length, s.cfg.busy (gateReads (m + 1) s).tmp = true := by
    intro m hm
    have hw : s.answers[m]? = some ws[m] := by
      rw [hans, List.getElem?_append_left hm, List.getElem?_eq_getElem hm]
    rw [gateReads_busy hwf hw]
    exact hbusy _ (List.getElem_mem hm)
  have hend : s.cfg.busy (gateReads (ws.length + 1) s).tmp = false := by
    rw [gateReads_busy (w := w) hwf (by simp [hans]), hready]
  have hphase : (gateReads (ws.length + 1) s).phase = .active .gate := gateReads_phase (s := busReadCr .gate s) _ rfl
  have hrun : core.run (ws.length + 2) s = .next (complete .ok (gateReads (ws.length + 1) s)) :=
    calc core.run (ws.length + 2) s
      _ = core.run (ws.length + 1) (busReadCr .gate s) := run_step _ hr hp hi (exec_waitrdy_start hp hc)
      _ = core.run 1 (gateReads (ws.length + 1) s) := run_gate_busy _ 1 (by decide) hr rfl hi hall
      _ = .next (complete .ok (gateReads (ws.length + 1) s)) :=
        run_step 0 ((gateReads_resets _ s).trans hr) hphase ((gateReads_latch _ s).trans hi)
          (exec_waitrdy_ready hphase (by simpa using hend))
  obtain ⟨reads, htrace, hlen, hreads⟩ := gateReads_trace (ws.length + 1) s
  refine ⟨_, reads, hrun, congrArg _ htrace, hlen, hreads, ?_⟩
  have hrest : s.answers.drop (ws.length + 1) = rest := by simp [hans, List.drop_append]
  exact (congrArg (complete .ok) (gateReads_frame (ws.length + 1) s)).trans (by rw [hrest]; rfl)

/-! ### ENCODE and DECODE from the gate on (44 R170, R172) -/

section
variable {d : Bool} {src dst len e : Word}

/-- ReadChunk reads the next output word while J is below END. -/
theorem readLoop_reads (hj : s.j < s.endJ) : readLoop src s = .next (busReadData .chunkStore s) := by
  simp only [readLoop, hj, if_true]

/-- ReadChunk ends with the chunk's last word, and OFF advances by SZ. -/
theorem readLoop_ends (hj : ¬ s.j < s.endJ) : readLoop src s = chunkLoop src { s with off := s.off + s.sz } := by
  simp only [readLoop, hj, if_false]

/-- The chunk loop completes once OFF has reached N. -/
theorem chunkLoop_completes (hoff : ¬ s.off < s.n) : chunkLoop src s = .next (complete .ok s) := by
  simp only [chunkLoop, hoff, if_false]

/-- The end of a chunk is clipped to N: END = min(OFF + SZ, N). -/
theorem chunk_end_eq_min {o sz n : Word} (he : e.toNat = min (o.toNat + sz.toNat) n.toNat)
    (hsum : o.toNat + sz.toNat < 2 ^ 32) : (if o + sz ≤ n then o + sz else n) = e := by
  apply BitVec.eq_of_toNat_eq
  have hadd : (o + sz).toNat = o.toNat + sz.toNat := BitVec.toNat_add_of_lt hsum
  split <;> rename_i h <;> rw [BitVec.le_def, hadd] at h <;> omega

/-- A chunk begins with the read of its first source word. -/
theorem chunkLoop_begins (hoff : s.off < s.n) (he : e.toNat = min (s.off.toNat + s.sz.toNat) s.n.toNat)
    (hsum : s.off.toNat + s.sz.toNat < 2 ^ 32) (hlt : s.off < e) (hadm : s.cfg.admits .load src s.n s.off = true) :
    chunkLoop src s = .next (memRead (wordAddr src s.off) .chunkWrite { s with endJ := e, j := s.off }) := by
  simp only [chunkLoop, hoff, if_true, chunk_end_eq_min he hsum, writeLoop, hlt]
  exact loadWord_next.mpr ⟨hadm, rfl⟩

/-- At the first answer with BUSY 0, ENCODE or DECODE goes on to read the chunk back (44 R172). -/
theorem exec_streamOf_ready (hp : s.phase = .active .gate) (hb : s.cfg.busy s.tmp = false) :
    exec (streamOf d src dst len) s = readLoop src { s with j := s.off } := by
  simp only [exec_streamOf, streamStep, hp, gateTest, hb, readStart, Bool.false_eq_true, if_false]

/-- An admitted store of ReadChunk. -/
theorem exec_streamOf_chunkStore (hp : s.phase = .active .chunkStore) (hadm : s.cfg.admits .store dst s.n s.j = true) :
    exec (streamOf d src dst len) s = .next (memWrite (wordAddr dst s.j) s.v .chunkStored s) := by
  simp only [exec_streamOf, streamStep, hp]
  exact storeWord_next.mpr ⟨hadm, rfl⟩

/-- After a store of ReadChunk, J advances and its loop goes on. -/
theorem exec_streamOf_chunkStored (hp : s.phase = .active .chunkStored) :
    exec (streamOf d src dst len) s = readLoop src { s with j := s.j + 1#32 } := by
  simp only [exec_streamOf, streamStep, hp]

end

/-- Settles O25, position by position. -/
theorem streamReadsItsChunksBack : Obligations.StreamReadsItsChunksBack := by
  intro d src dst len s
  refine ⟨fun hp => ⟨?busy, ?ready⟩, ?store, ?stored⟩
  case busy => exact exec_gate_busy (by simp [streamPositions]) hp
  case ready =>
    intro hb hoff
    rw [exec_streamOf_ready hp hb]
    exact readLoop_reads hoff
  case store =>
    intro hp hadm
    refine ⟨_, exec_streamOf_chunkStore hp hadm, rfl, fun a ha => ?_, fun hm => ?_⟩
    · exact Memory.read_writeWord_other _ _ _ _ ha
    · exact Memory.readWord_writeWord _ _ _ hm
  case stored =>
    rintro hp j rfl
    rw [exec_streamOf_chunkStored hp]
    refine ⟨fun hj => readLoop_reads hj, fun hj hoff => ?_, fun o e hj ho hon he hsum hlt hadm => ?_⟩
    · exact (readLoop_ends hj).trans (chunkLoop_completes hoff)
    · obtain rfl : s.off + s.sz = o := by bv_omega
      exact (readLoop_ends hj).trans (chunkLoop_begins hon he hsum hlt hadm)

end Sys2Proof.Machine
end

section
/-! PROOFS. The family 42_configuration: SetField, the read and the write that a setter makes once and INIT four times
(42 R130, R133), with what the write leaves of CR (42 R139); the four setters, INIT and RSTCNT position by position and
from start to end (42 R130 to R140); the hook call (42 R131, 60 R208); and a field write of an illegal value (70 R245). -/

/-! ### The words that a field write and RSTCNT write (42 R134, R139, R140) -/

namespace Sys2Proof

/-- A field write writes every bit outside its field back as read (42 R139). -/
theorem rmwValue_field_outside (p : Params) (f : Field) (tmp v : Word) :
    rmwValue tmp (p.fieldMask f) (p.fieldValue f v) &&& ~~~p.fieldMask f = tmp &&& ~~~p.fieldMask f := by
  rw [and_mask_eq_iff]
  intro i hi
  obtain ⟨hlt, hout⟩ : i < 32 ∧ (p.fieldMask f).getLsbD i = false := by
    simpa only [BitVec.getLsbD_not, Bool.and_eq_true, decide_eq_true_eq, Bool.not_eq_true'] using hi
  exact rmwValue_getLsbD_kept hlt hout (Params.fieldValue_getLsbD_outside hout v)

/-- Clearing bits that are then set changes nothing (42 R140). -/
theorem rmwValue_same (tmp m : Word) : rmwValue tmp m m = tmp ||| m := by
  ext i hi
  cases hm : m[i] <;> simp [rmwValue, hm]

/-- DECODE is among the stored bits (40 R107). -/
theorem Params.decodeMask_stored (p : Params) {i : Nat} (h : p.decodeMask.getLsbD i = true) :
    p.storedMask.getLsbD i = true := by
  simp [Params.storedMask, h]

end Sys2Proof

/-! ### SetField: a CR read and the write of a field and its mirror (42 R133) -/

namespace Sys2Proof.Machine

/-- `SetField(f, v)`, whose two steps end at `q` (42 R133). -/
def setField (f : Field) (v : Word) (q : Pos) (s : State) : State := fieldWrite f v q (busReadCr (.fieldWrite f) s)

section
variable {s : State} {f g : Field} {v : Word} {q : Pos}

/-- What a field write changes. -/
theorem fieldWrite_fields (f : Field) (v : Word) (q : Pos) (s : State) :
    fieldWrite f v q s =
      { s with
        algoM := if f = .algo then v else s.algoM
        modeM := if f = .mode then v else s.modeM
        swapM := if f = .swap then v else s.swapM
        orderM := if f = .order then v else s.orderM
        crLast := rmwValue s.tmp (s.cfg.fieldMask f) (s.cfg.fieldValue f v)
        trace := .busWr .cr (rmwValue s.tmp (s.cfg.fieldMask f) (s.cfg.fieldValue f v)) :: s.trace
        phase := .active q } := by
  rw [fieldWrite, writeMirror_fields]
  rfl

@[simp] theorem setField_cfg : (setField f v q s).cfg = s.cfg := by
  simp [setField, fieldWrite]

@[simp] theorem setField_resets : (setField f v q s).resets = s.resets := by
  simp [setField, fieldWrite]

@[simp] theorem setField_crLast :
    (setField f v q s).crLast = rmwValue s.crAnswer (s.cfg.fieldMask f) (s.cfg.fieldValue f v) := by
  simp [setField, fieldWrite]

/-- SetField's two events, the word written being the word read outside the field (42 R133, R139). -/
theorem setField_events (f : Field) (v : Word) (q : Pos) (s : State) :
    ∃ r w, (setField f v q s).trace = [.busWr .cr w, .busRd .cr r] ++ s.trace ∧
      w &&& ~~~s.cfg.fieldMask f = r &&& ~~~s.cfg.fieldMask f :=
  ⟨s.crAnswer, _, by simp [setField, fieldWrite], rmwValue_field_outside s.cfg f s.crAnswer v⟩

/-- SetField leaves the command in the latch. -/
@[simp] theorem setField_latch : decodeLatch (setField f v q s) = decodeLatch s := by
  simp [decodeLatch, setField, fieldWrite]

/-- SetField puts the whole operand in its mirror and leaves the others (42 R133). -/
theorem mirror_setField (f g : Field) (v : Word) (q : Pos) (s : State) :
    (setField f v q s).mirror g = if g = f then v else s.mirror g :=
  mirror_fieldWrite f g v q _

/-- SetField leaves the stored bits outside its field as CR had them: it reads them back, and writes them as read
(40 R107, 42 R139). -/
theorem setField_isolated (hwf : s.cfg.WF) :
    (setField f v q s).crLast &&& (s.cfg.storedMask &&& ~~~s.cfg.fieldMask f) =
      s.crLast &&& (s.cfg.storedMask &&& ~~~s.cfg.fieldMask f) := by
  rw [and_mask_eq_iff, setField_crLast]
  intro i hi
  rw [BitVec.getLsbD_and, Bool.and_eq_true] at hi
  obtain ⟨hstored, hout⟩ := hi
  have hwritten := and_mask_eq_iff.mp (rmwValue_field_outside s.cfg f s.crAnswer v) i hout
  have hread := and_mask_eq_iff.mp (hwf.crAnswer_stored s.crLast s.nextDraw) i hstored
  exact hwritten.trans hread

/-- SetField leaves CR alone under a mask of stored bits outside its field (42 R139). -/
theorem setField_keeps_crLast {m : Word} (hwf : s.cfg.WF)
    (hstored : ∀ i, m.getLsbD i = true → s.cfg.storedMask.getLsbD i = true)
    (hout : ∀ i, m.getLsbD i = true → (s.cfg.fieldMask f).getLsbD i = false) :
    (setField f v q s).crLast &&& m = s.crLast &&& m := by
  rw [and_mask_eq_iff]
  intro i hi
  refine and_mask_eq_iff.mp (setField_isolated hwf) i ?_
  simp only [BitVec.getLsbD_and, BitVec.getLsbD_not, hstored i hi, hout i hi, BitVec.lt_of_getLsbD hi]
  rfl

/-- SetField leaves DECODE alone (42 R139). -/
theorem setField_decode (hwf : s.cfg.WF) :
    (setField f v q s).crLast &&& s.cfg.decodeMask = s.crLast &&& s.cfg.decodeMask := by
  refine setField_keeps_crLast hwf (fun _ => s.cfg.decodeMask_stored) fun i hi => ?_
  refine Bool.eq_false_iff.mpr fun hfield => ?_
  simp [hwf.fieldMask_apart_decode hfield] at hi

/-- A completion leaves CR and the mirrors alone. -/
theorem complete_mirrorAgrees {r : Result} : (complete r s).MirrorAgrees g ↔ s.MirrorAgrees g := Iff.rfl

/-- SetField makes its own field agree with its mirror, and leaves the others in agreement (10 R24, 42 R139). -/
theorem setField_mirrorAgrees (hwf : s.cfg.WF) (h : g ≠ f → s.MirrorAgrees g) : (setField f v q s).MirrorAgrees g := by
  by_cases hgf : g = f
  · exact hgf ▸ fieldWrite_mirrorAgrees g v q _
  · refine (h hgf).congr setField_cfg ?cr ((mirror_setField f g v q s).trans (if_neg hgf))
    case cr =>
      exact setField_keeps_crLast hwf (fun _ => s.cfg.fieldMask_stored) fun _ => hwf.fieldMask_apart_field (Ne.symm hgf)

end

/-! ### One step of a configuration command (42 R130 to R140) -/

section
variable {s : State} {i : Instr} {f : Field} {v a m w o : Word}

/-- A setter's step is its field's (42 R135 to R138). -/
theorem exec_setterOf (f : Field) (v : Word) (s : State) : exec (setterOf f v) s = setterStep f v s := by
  cases f <;> rfl

/-- The positions of a setter are its field's. -/
theorem positions_setterOf (f : Field) (v : Word) : (setterOf f v).positions = setterPositions f := by
  cases f <;> rfl

/-- A configuration command completes with OK (42 R130, R135 to R138, R140). -/
theorem exec_finish (hi : .finish ∈ i.positions) (hp : s.phase = .active .finish) :
    exec i s = .next (complete .ok s) := by
  cases i with
  | init a m w o => simp only [exec, execInit, hp]
  | setalgo v => simp only [exec, execSetalgo, setterStep, hp]
  | setmode v => simp only [exec, execSetmode, setterStep, hp]
  | setswap v => simp only [exec, execSetswap, setterStep, hp]
  | setorder v => simp only [exec, execSetorder, setterStep, hp]
  | rstcnt => simp only [exec, execRstcnt, hp]
  | _ => simp [Instr.positions, streamPositions] at hi

/-- A setter completes with OK. -/
theorem exec_setterOf_finish (hp : s.phase = .active .finish) : exec (setterOf f v) s = .next (complete .ok s) :=
  exec_finish (by simp [positions_setterOf, setterPositions]) hp

/-- A setter's first step reads CR. -/
theorem exec_setterOf_start (hp : s.phase = .active .start) (hc : s.clken = true) :
    exec (setterOf f v) s = .next (busReadCr (.fieldWrite f) s) := by
  simp only [exec_setterOf, setterStep, hp, whenClocked, hc, if_true]

/-- A setter's second step is its field write. -/
theorem exec_setterOf_fieldWrite (hp : s.phase = .active (.fieldWrite f)) :
    exec (setterOf f v) s = .next (fieldWrite f v .finish s) := by
  simp only [exec_setterOf, setterStep, hp, if_true]

/-- The operand of INIT for a field (42 R130). -/
def initOperand (a m w o : Word) : Field → Word
  | .algo => a
  | .mode => m
  | .swap => w
  | .order => o

/-- Where INIT stands after the write of a field: the order ALGO, MODE, SWAP, ORDER (42 R132). -/
def afterField : Field → Pos
  | .algo => .fieldRead .mode
  | .mode => .fieldRead .swap
  | .swap => .fieldRead .order
  | .order => .finish

/-- INIT in a hook call from which the platform does not return stops (42 R131, 60 R208). -/
theorem exec_init_held (hi : i.isInit = true) (hp : s.phase = .active .start) (hh : s.hookHeld = true) :
    exec i s = .fault .hookHeld := by
  cases i with
  | init a m w o => simp only [exec, execInit, hp, hh, if_true]
  | _ => simp [Instr.isInit] at hi

/-- INIT's first step is the hook call, once the platform returns from it (42 R130, R131). -/
theorem exec_init_hook (hp : s.phase = .active .start) (hh : s.hookHeld = false) :
    exec (.init a m w o) s = .next (hookCall .clockOn s) := by
  simp only [exec, execInit, hp, hh, Bool.false_eq_true, if_false]

/-- INIT reads CR for each field after ALGO (42 R130). -/
theorem exec_init_fieldRead (hf : f ≠ .algo) (hp : s.phase = .active (.fieldRead f)) :
    exec (.init a m w o) s = .next (busReadCr (.fieldWrite f) s) := by
  cases f with
  | algo => exact absurd rfl hf
  | _ => simp only [exec, execInit, hp]

/-- INIT writes each field with its own operand (42 R130). -/
theorem exec_init_fieldWrite (hp : s.phase = .active (.fieldWrite f)) :
    exec (.init a m w o) s = .next (fieldWrite f (initOperand a m w o f) (afterField f) s) := by
  cases f <;> simp only [exec, execInit, hp, initOperand, afterField]

/-- RSTCNT's first step reads CR (42 R140). -/
theorem exec_rstcnt_start (hp : s.phase = .active .start) (hc : s.clken = true) :
    exec .rstcnt s = .next (busReadCr .rmwWrite s) := by
  simp only [exec, execRstcnt, hp, whenClocked, hc, if_true]

/-- RSTCNT's second step writes CR as read with CNTRST set (42 R140). -/
theorem exec_rstcnt_rmwWrite (hp : s.phase = .active .rmwWrite) :
    exec .rstcnt s = .next (busWriteCr (s.tmp ||| s.cfg.cntrstMask) .finish s) := by
  simp only [exec, execRstcnt, hp, rmwValue_same]

/-- Settles O19, position by position. -/
theorem settersWriteFieldAndMirror : Obligations.SettersWriteFieldAndMirror := by
  intro f v s
  refine ⟨exec_setterOf_start, ?_, exec_setterOf_finish⟩
  rintro _ rfl hp
  rw [exec_setterOf_fieldWrite hp, fieldWrite_fields]
  rfl

/-- Settles O20, position by position. -/
theorem initEnablesAndPushesAllFour : Obligations.InitEnablesAndPushesAllFour := by
  intro a m w o s
  refine ⟨exec_init_hook, exec_init_clockOn rfl, fun f => exec_init_fieldRead, ?algo, ?mode, ?swap, ?order,
    exec_finish (by simp [Instr.positions])⟩
  all_goals
    rintro _ rfl hp
    exact exec_init_fieldWrite hp

/-- Settles O21, position by position. -/
theorem rstcntSetsTheCounterResetBit : Obligations.RstcntSetsTheCounterResetBit := by
  intro s
  refine ⟨exec_rstcnt_start, ?write, exec_finish (by decide)⟩
  case write =>
    rintro _ rfl
    exact exec_rstcnt_rmwWrite

end

/-! ### A setter and INIT from start to end (42 R130 to R139) -/

section
variable {s : State} {f : Field} {v a m w o : Word}

/-- A setter with no Reset to come is SetField and its completion. -/
theorem run_setterOf (hr : s.resets = []) (hp : s.phase = .active .start) (hc : s.clken = true)
    (hi : decodeLatch s = .ok (setterOf f v)) : core.run 3 s = .next (complete .ok (setField f v .finish s)) :=
  calc core.run 3 s
    _ = core.run 2 (busReadCr (.fieldWrite f) s) := run_step 2 hr hp hi (exec_setterOf_start hp hc)
    _ = core.run 1 (setField f v .finish s) := run_step 1 hr rfl hi (exec_setterOf_fieldWrite rfl)
    _ = .next (complete .ok (setField f v .finish s)) :=
      run_step 0 (by simpa using hr) rfl (by simpa using hi) (exec_setterOf_finish rfl)

/-- Settles O26: the run is SetField and its completion. -/
theorem setterRunsToItsEnd : Obligations.SetterRunsToItsEnd := by
  intro f v s hr hp hc hi
  refine ⟨_, run_setterOf hr hp hc hi, ?own, ?other, setField_crLast (q := .finish), ?frame⟩
  case own => exact (mirror_setField f f v .finish s).trans (if_pos rfl)
  case other => exact fun g hg => (mirror_setField f g v .finish s).trans (if_neg hg)
  case frame => cases f <;> rfl

/-- Settles O55: what SetField writes, and what CR then holds. -/
theorem fieldIsolation : Obligations.FieldIsolation := by
  intro f v s hwf hr hp hc hi
  obtain ⟨r, w, htrace, hout⟩ := setField_events f v .finish s
  exact ⟨_, r, w, run_setterOf hr hp hc hi, congrArg _ htrace, hout, setField_isolated (q := .finish) hwf⟩

/-- INIT's two steps for a field after ALGO are SetField with that field's operand (42 R130). -/
theorem run_init_setField (k : Nat) (hf : f ≠ .algo) (hr : s.resets = []) (hp : s.phase = .active (.fieldRead f))
    (hi : decodeLatch s = .ok (.init a m w o)) :
    core.run (k + 2) s = core.run k (setField f (initOperand a m w o f) (afterField f) s) :=
  (run_step (k + 1) hr hp hi (exec_init_fieldRead hf hp)).trans (run_step k hr rfl hi (exec_init_fieldWrite rfl))

/-- INIT after its hook and its SetField of ALGO, the read of which has set CLKEN (42 R130). -/
def initAlgo (a : Word) (s : State) : State :=
  setField .algo a (.fieldRead .mode) { hookCall .clockOn s with clken := true }

/-- INIT after its SetField of MODE (42 R130). -/
def initMode (a m : Word) (s : State) : State := setField .mode m (.fieldRead .swap) (initAlgo a s)

/-- INIT after its SetField of SWAP (42 R130). -/
def initSwap (a m w : Word) (s : State) : State := setField .swap w (.fieldRead .order) (initMode a m s)

/-- INIT after its SetField of ORDER, the last (42 R130, R132). -/
def initOrder (a m w o : Word) (s : State) : State := setField .order o .finish (initSwap a m w s)

/-- INIT with no Reset to come, once the platform returns from its hook call, is the hook, the four SetFields and its
completion (42 R130 to R132). -/
theorem run_init (hr : s.resets = []) (hp : s.phase = .active .start) (hh : s.hookHeld = false)
    (hi : decodeLatch s = .ok (.init a m w o)) : core.run 10 s = .next (complete .ok (initOrder a m w o s)) :=
  calc core.run 10 s
    _ = core.run 9 (hookCall .clockOn s) := run_step 9 hr hp hi (exec_init_hook hp hh)
    _ = core.run 8 (busReadCr (.fieldWrite .algo) { hookCall .clockOn s with clken := true }) :=
      run_step 8 hr rfl hi (exec_init_clockOn rfl rfl)
    _ = core.run 7 (initAlgo a s) := run_step 7 hr rfl hi (exec_init_fieldWrite rfl)
    _ = core.run 5 (initMode a m s) := run_init_setField 5 (by decide) hr rfl hi
    _ = core.run 3 (initSwap a m w s) := run_init_setField 3 (by decide) hr rfl hi
    _ = core.run 1 (initOrder a m w o s) := run_init_setField 1 (by decide) hr rfl hi
    _ = .next (complete .ok (initOrder a m w o s)) := run_step 0 hr rfl hi (exec_finish (by simp [Instr.positions]) rfl)

/-- INIT leaves every field in agreement with its mirror, whatever they held before (10 R24, 42 R132). -/
theorem initOrder_mirrorAgrees (hwf : s.cfg.WF) (f : Field) : (initOrder a m w o s).MirrorAgrees f := by
  refine setField_mirrorAgrees hwf fun horder => setField_mirrorAgrees hwf fun hswap =>
    setField_mirrorAgrees hwf fun hmode => setField_mirrorAgrees hwf fun halgo => ?_
  cases f <;> contradiction

/-- INIT leaves DECODE as it was (42 R139). -/
theorem initOrder_decode (hwf : s.cfg.WF) :
    (initOrder a m w o s).crLast &&& s.cfg.decodeMask = s.crLast &&& s.cfg.decodeMask :=
  calc (initOrder a m w o s).crLast &&& s.cfg.decodeMask
    _ = (initSwap a m w s).crLast &&& s.cfg.decodeMask := setField_decode hwf
    _ = (initMode a m s).crLast &&& s.cfg.decodeMask := setField_decode hwf
    _ = (initAlgo a s).crLast &&& s.cfg.decodeMask := setField_decode hwf
    _ = s.crLast &&& s.cfg.decodeMask := setField_decode (s := { hookCall .clockOn s with clken := true }) hwf

/-- Settles O27: the run is the hook, the four SetFields and the completion. -/
theorem initRunsToItsEnd : Obligations.InitRunsToItsEnd := by
  intro a m w o s hwf hr hp hh hi
  refine ⟨_, run_init hr hp hh hi, rfl, rfl, rfl, rfl, rfl, rfl, rfl, ?agree, ?decode, rfl, rfl, ?events⟩
  case agree => exact fun f => complete_mirrorAgrees.mpr (initOrder_mirrorAgrees hwf f)
  case decode =>
    rw [complete_crLast]
    exact initOrder_decode hwf
  case events =>
    obtain ⟨r1, w1, htrace1, hout1⟩ := setField_events .algo a (.fieldRead .mode) { hookCall .clockOn s with clken := true }
    obtain ⟨r2, w2, htrace2, hout2⟩ := setField_events .mode m (.fieldRead .swap) (initAlgo a s)
    obtain ⟨r3, w3, htrace3, hout3⟩ := setField_events .swap w (.fieldRead .order) (initMode a m s)
    obtain ⟨r4, w4, htrace4, hout4⟩ := setField_events .order o .finish (initSwap a m w s)
    refine ⟨r1, r2, r3, r4, w1, w2, w3, w4, ?_, hout1, hout2, hout3, hout4⟩
    rw [complete_trace, initOrder, htrace4, initSwap, htrace3, initMode, htrace2, initAlgo, htrace1]
    rfl

end

/-! ### Commands that are stuck, and the hook calls (42 R131, 60 R208) -/

section
variable {s : State} {i : Instr}

/-- A command that is stuck in its hook call or at an access is so whatever Resets are to come. -/
theorem exec_stuck_resets {r : Fault} (hr : r = .notAdmitted ∨ r = .hookHeld) (h : exec i s = .fault r)
    (resets : List Nat) : exec i { s with resets := resets } = .fault r := by
  obtain ⟨-, hstops⟩ := commandsStopOnlyWhenStuck i s
  obtain ⟨rfl, hi, hp, hh⟩ | ⟨rfl, x, hx, hadmits⟩ | ⟨rfl, -⟩ := hstops r h
  · exact exec_init_held hi hp hh
  · obtain ⟨hstuck, -⟩ := accessesAreMadeExactlyWhenAdmitted i { s with resets := resets } x hx
    exact hstuck hadmits
  · simp at hr

/-- A Reset takes INIT out of a held hook call, and with it the entry of that call (70 R231; log 8). -/
theorem deviceReset_hookHolds_held {a m w o : Word} (hp : s.phase = .active .start)
    (hi : decodeLatch s = .ok (.init a m w o)) (hh : s.hookHeld = true) (later : List Nat) :
    (deviceReset later s).hookHolds = s.hookHolds.tail := by
  have hstuck : hookStuck s = true := by simp only [hookStuck, hp, hi, hh]
  simp only [deviceReset, hstuck, if_true]

/-- Settles O50: the stop itself, the step of a stuck command, and the hook call after one that was held or returned. -/
theorem stuckCommandsWaitForReset : Obligations.StuckCommandsWaitForReset := by
  refine ⟨fun i s => exec_init_held, ?stuck, ?reset, ?returned⟩
  case stuck =>
    intro i s p r hp hi hr h
    obtain ⟨hnow, hwait⟩ := stepRunsTheLatchedCommand s p i hp hi
    refine ⟨fun hres => (hnow hres).trans h, fun k later hres => ?_⟩
    rw [hwait k later hres, exec_stuck_resets hr h]
    rfl
  case reset =>
    intro s later a m w o x xs hres hp hi hholds
    have hstep : step s = .next (deviceReset later s) := by simp only [step, hres]
    have hnext : (deviceReset later s).hookHolds = x :: xs := by
      rw [deviceReset_hookHolds_held hp hi (by simp [State.hookHeld, hholds]), hholds, List.tail_cons]
    exact ⟨_, hstep, rfl, hnext, by simp [State.hookHeld, hnext]⟩
  case returned =>
    intro s a m w o x xs hp hholds
    exact ⟨_, exec_init_hook hp (by simp [State.hookHeld, hholds]), by simp [State.hookHeld, hholds]⟩

end
end Sys2Proof.Machine

/-! ### A field write of an illegal value (70 R245 item 1) -/

namespace Sys2Proof

open Machine

/-- A field write leaves the run since the last Reset unbroken only if its operand and the value in the field are legal. -/
theorem Conformance.crWrite_sinceReset {c : Conformance} {f : Field} {v : Word} (h : c.writing = some (f, v)) (p : Params)
    (w : Word) :
    (c.crWrite p w).sinceReset =
      (c.sinceReset && decide (v ∈ legalValues p f) && decide (p.fieldOf f w ∈ legalValues p f)) := by
  simp only [Conformance.crWrite, h]
  split <;> rfl

/-- Settles O60: the write is the last event of the trace. -/
theorem illegalFieldValueIsNonConformant : Obligations.IllegalFieldValueIsNonConformant := by
  intro p tr f v w hwriting hillegal
  have hbroken := Conformance.crWrite_sinceReset hwriting p w
  have hlast : (Event.busWr .cr w :: tr).reverse.foldl (Conformance.event p) .initial =
      (tr.reverse.foldl (Conformance.event p) .initial).crWrite p w := by
    rw [List.reverse_cons, List.foldl_append]
    rfl
  rw [conformant, hlast, hbroken]
  obtain hoperand | hfield := hillegal
  · simp [hoperand]
  · simp [hfield]

end Sys2Proof
end

section
/-! PROOFS. The family 43_key_iv_load: SETKEY and SETIV position by position (43 R150 to R159); then, for any command that
copies a buffer to a port word by word (20 R69), the run of its copy loop and the events that it adds; and SETIV and SETKEY
from start to end. -/

/-! ### SETKEY at each of its positions (43 R150 to R154) -/

namespace Sys2Proof.Machine

section
variable {a : Word} {s : State} {k : FaultKind}

/-- How many words the key of the ALGO mirror's algorithm has (10 R42, 43 R150). -/
abbrev State.keyCount (s : State) : Word := s.cfg.keyWords s.algoM

/-- SETKEY has assigned SZ and decided nothing yet (43 R150; log 12). -/
def State.keySized (s : State) : State := { s with sz := s.keyCount }

/-- A key buffer that fails its check raises that fault (43 R150, 40 R113). -/
theorem exec_setkey_fault (hp : s.phase = .active .start) (hc : s.clken = true)
    (hbuf : checkBuffer a s.keyCount = some k) : exec (.setkey a) s = .next (raise k s.keySized) := by
  simp only [exec, execSetkey, hp, whenClocked, hc, hbuf, State.keySized, if_true]

/-- A key buffer that passes its check is followed by the direction's CR read (43 R150). -/
theorem exec_setkey_start (hp : s.phase = .active .start) (hc : s.clken = true)
    (hbuf : checkBuffer a s.keyCount = none) :
    exec (.setkey a) s = .next (busReadCr .rmwWrite s.keySized) := by
  simp only [exec, execSetkey, hp, whenClocked, hc, hbuf, State.keySized, if_true]

/-- SETKEY's CR write clears DECODE and keeps the rest as read (43 R151, 40 R112). -/
theorem exec_setkey_rmwWrite (hp : s.phase = .active .rmwWrite) :
    exec (.setkey a) s = .next (directionWrite false .directionSet s) :=
  exec_rmwWrite_direction hp (.inl ⟨⟨a, rfl⟩, rfl⟩)

/-- Clearing bits and setting none. -/
theorem rmwValue_clear (tmp m : Word) : rmwValue tmp m 0#32 = tmp &&& ~~~m := BitVec.or_zero

/-- After the direction write the key loop begins at word 0 (43 R150). -/
theorem exec_setkey_directionSet (hp : s.phase = .active .directionSet) :
    exec (.setkey a) s = keyLoop a { s with j := 0#32 } := by
  simp only [exec, execSetkey, hp]

/-- A key word read from memory is written to KEY (43 R150). -/
theorem exec_setkey_keyWrite (hp : s.phase = .active .keyWrite) :
    exec (.setkey a) s = .next (busWritePort .key s.v .keyWritten s) := by
  simp only [exec, execSetkey, hp]

/-- After a KEY write, J advances and the key loop goes on (43 R150). -/
theorem exec_setkey_keyWritten (hp : s.phase = .active .keyWritten) :
    exec (.setkey a) s = keyLoop a { s with j := s.j + 1#32 } := by
  simp only [exec, execSetkey, hp]

/-- SETKEY's result: an algorithm mirror of no algorithm is found out last (43 R154). -/
def setkeyResult (sz : Word) : Result := if sz = 0#32 then .unsupportedAlgo else .ok

/-- SETKEY completes at the first answer with BUSY 0 (43 R150, R154). -/
theorem exec_setkey_ready (hp : s.phase = .active .gate) (hb : s.cfg.busy s.tmp = false) :
    exec (.setkey a) s = .next (complete (setkeyResult s.sz) s) := by
  simp only [exec, execSetkey, hp]
  exact gateTest_next.mpr (.inr ⟨hb, rfl⟩)

/-- The key loop reads the next key word while J is below SZ. -/
theorem keyLoop_reads (hj : s.j < s.sz) (hadm : s.cfg.admits .load a s.sz s.j = true) :
    keyLoop a s = .next (memRead (wordAddr a s.j) .keyWrite s) := by
  simp only [keyLoop, hj, if_true]
  exact loadWord_next.mpr ⟨hadm, rfl⟩

/-- The key loop ends with the gate's first CR read. -/
theorem keyLoop_ends (hj : ¬ s.j < s.sz) : keyLoop a s = .next (busReadCr .gate s) := by
  simp only [keyLoop, hj, if_false]

/-- Settles O22, position by position. -/
theorem setkeyAtEachPosition : Obligations.SetkeyAtEachPosition := by
  intro a s
  refine ⟨?start, ?direction, ?loop, exec_setkey_keyWrite, fun hp => ⟨?busy, ?unsupported, ?ok⟩⟩
  case start =>
    rintro sz rfl hp hc
    refine ⟨fun hsz ha => ?_, fun hsz ha hw => ?_, fun hbuf => ?_⟩
    · exact exec_setkey_fault hp hc (checkBuffer_misaligned hsz ha)
    · exact exec_setkey_fault hp hc (checkBuffer_addressWrap hsz ha hw)
    · exact exec_setkey_start hp hc (checkBuffer_passes hbuf)
  case direction =>
    rintro w rfl hp
    rw [exec_setkey_rmwWrite hp, ← rmwValue_clear]
    rfl
  case loop =>
    intro j hj
    have hloop : exec (.setkey a) s = keyLoop a { s with j := j } := by
      obtain ⟨hp, rfl⟩ | ⟨hp, rfl⟩ := hj
      · exact exec_setkey_directionSet hp
      · exact exec_setkey_keyWritten hp
    rw [hloop]
    exact ⟨keyLoop_reads (s := { s with j := j }), keyLoop_ends (s := { s with j := j })⟩
  case busy => exact exec_gate_busy (by simp [Instr.positions]) hp
  case unsupported =>
    intro hb hsz
    rw [exec_setkey_ready hp hb, setkeyResult, if_pos hsz]
    rfl
  case ok =>
    intro hb hsz
    rw [exec_setkey_ready hp hb, setkeyResult, if_neg hsz]
    rfl

end

/-! ### SETIV at each of its positions (43 R155 to R159) -/

section
variable {a n : Word} {s : State} {k : FaultKind}

/-- An IV buffer that fails its check raises that fault (43 R155, 40 R113). -/
theorem exec_setiv_fault (hp : s.phase = .active .start) (hc : s.clken = true) (hbuf : checkBuffer a n = some k) :
    exec (.setiv a n) s = .next (raise k { s with n := n }) := by
  simp only [exec, execSetiv, hp, whenClocked, hc, hbuf, if_true]

/-- SETIV has assigned N and begins its loop at word 0 (43 R155). -/
def State.ivSized (n : Word) (s : State) : State := { s with n := n, j := 0#32 }

/-- With an IV buffer that passes its check the IV loop begins at once: there is no CR access (43 R155, R159). -/
theorem exec_setiv_start (hp : s.phase = .active .start) (hc : s.clken = true) (hbuf : checkBuffer a n = none) :
    exec (.setiv a n) s = ivLoop a (s.ivSized n) := by
  simp only [exec, execSetiv, hp, whenClocked, hc, hbuf, State.ivSized, if_true]

/-- An IV word read from memory is written to IV (43 R155). -/
theorem exec_setiv_ivWrite (hp : s.phase = .active .ivWrite) :
    exec (.setiv a n) s = .next (busWritePort .iv s.v .ivWritten s) := by
  simp only [exec, execSetiv, hp]

/-- After the write of an IV word, J advances and the IV loop goes on (43 R155). -/
theorem exec_setiv_ivWritten (hp : s.phase = .active .ivWritten) :
    exec (.setiv a n) s = ivLoop a { s with j := s.j + 1#32 } := by
  simp only [exec, execSetiv, hp]

/-- After the write of a zero word, J advances and the zero fill goes on (43 R155, R156). -/
theorem exec_setiv_zeroWritten (hp : s.phase = .active .zeroWritten) :
    exec (.setiv a n) s = zeroLoop { s with j := s.j + 1#32 } := by
  simp only [exec, execSetiv, hp]

/-- The IV loop reads the next IV word while J is below N. -/
theorem ivLoop_reads (hj : s.j < s.n) (hadm : s.cfg.admits .load a s.n s.j = true) :
    ivLoop a s = .next (memRead (wordAddr a s.j) .ivWrite s) := by
  simp only [ivLoop, hj, if_true]
  exact loadWord_next.mpr ⟨hadm, rfl⟩

/-- In counter mode the IV loop ends with the zero fill, J starting again at 0 (43 R156). -/
theorem ivLoop_fills (hj : ¬ s.j < s.n) (hm : s.modeM = s.cfg.codeCtr) : ivLoop a s = zeroLoop { s with j := 0#32 } := by
  simp only [ivLoop, hj, hm, if_false, if_true]

/-- In any other mode the IV loop ends the command (43 R156). -/
theorem ivLoop_completes (hj : ¬ s.j < s.n) (hm : s.modeM ≠ s.cfg.codeCtr) : ivLoop a s = .next (complete .ok s) := by
  simp only [ivLoop, hj, hm, if_false]

/-- The zero fill writes a zero word while J is below N. -/
theorem zeroLoop_writes (hj : s.j < s.n) : zeroLoop s = .next (busWritePort .iv 0#32 .zeroWritten s) := by
  simp only [zeroLoop, hj, if_true]

/-- The zero fill ends the command. -/
theorem zeroLoop_completes (hj : ¬ s.j < s.n) : zeroLoop s = .next (complete .ok s) := by
  simp only [zeroLoop, hj, if_false]

/-- An IV of no word completes at once, whatever the mode. -/
theorem ivLoop_empty : ivLoop a (s.ivSized 0#32) = .next (complete .ok (s.ivSized 0#32)) := by
  have hend : ¬ (s.ivSized 0#32).j < (s.ivSized 0#32).n := BitVec.lt_irrefl 0#32
  by_cases hm : s.modeM = s.cfg.codeCtr
  · exact (ivLoop_fills hend hm).trans (zeroLoop_completes hend)
  · exact ivLoop_completes hend hm

@[simp] theorem wordAddr_zero (a : Word) : wordAddr a 0#32 = a := by simp [wordAddr]

/-- Settles O23, position by position. -/
theorem setivAtEachPosition : Obligations.SetivAtEachPosition := by
  intro a n s
  refine ⟨fun hp hc => ⟨?misaligned, ?wraps, ?reads, ?empty⟩, exec_setiv_ivWrite, ?iv, ?zero⟩
  case misaligned => exact fun hn ha => exec_setiv_fault hp hc (checkBuffer_misaligned hn ha)
  case wraps => exact fun hn ha hw => exec_setiv_fault hp hc (checkBuffer_addressWrap hn ha hw)
  case reads =>
    intro hn ha hw hadm
    have hj : 0#32 < n := by bv_omega
    rw [exec_setiv_start hp hc (checkBuffer_passes (.inr ⟨ha, hw⟩)), ivLoop_reads (s := s.ivSized n) hj hadm]
    simp [State.ivSized, memRead, State.readMem]
  case empty =>
    rintro rfl
    exact (exec_setiv_start hp hc (checkBuffer_passes (.inl rfl))).trans ivLoop_empty
  case iv =>
    rintro j rfl hp
    rw [exec_setiv_ivWritten hp]
    refine ⟨fun hj hadm => ivLoop_reads hj hadm, fun hj hm hn => ?_, fun hj hm => ivLoop_completes hj hm⟩
    exact (ivLoop_fills (s := { s with j := s.j + 1#32 }) hj hm).trans (zeroLoop_writes hn)
  case zero =>
    rintro j rfl hp
    rw [exec_setiv_zeroWritten hp]
    exact ⟨fun hj => zeroLoop_writes hj, fun hj => zeroLoop_completes hj⟩

end

/-! ### A run through a loop's test -/

section
variable {s : State} {i : Instr} {p : Pos}

/-- `k` steps after the step that answers `o`. -/
def runFrom (k : Nat) (o : Out) : Host.Outcome core.State core.Fault core.Refusal :=
  match o with
  | .next t => core.run k t
  | .fault r => .fault r
  | .refused r => .refused r

@[simp] theorem runFrom_next (k : Nat) (t : State) : runFrom k (.next t) = core.run k t := rfl

/-- A run of an active command with no Reset to come is its step and what follows. -/
theorem run_active (k : Nat) (hr : s.resets = []) (hp : s.phase = .active p) (hi : decodeLatch s = .ok i) :
    core.run (k + 1) s = runFrom k (exec i s) := by
  have hs : core.step s = exec i s := (step_no_reset hr).trans (advance_active hp hi)
  simp only [Host.Core.run, hs]
  cases exec i s <;> rfl

end

/-! ### The copy loop: SETKEY's, SETIV's and WriteChunk's (20 R69; 43 R150, R155; 44 R170) -/

section
variable {i : Instr} {L : State → Out} {r : Reg} {buf : Word} {q : Pos} {s : State}

/-- Counting on from the index after `j`. -/
theorem word_add_one_add (j : Word) (c : Nat) : j + 1#32 + BitVec.ofNat 32 c = j + BitVec.ofNat 32 (c + 1) := by
  rw [Nat.add_comm c 1, BitVec.ofNat_add, BitVec.add_assoc]

/-- A number below a word's is the number of a smaller word. -/
theorem ofNat_lt_of_lt_toNat {n : Word} {c : Nat} (hc : c < n.toNat) : BitVec.ofNat 32 c < n := by
  rw [BitVec.lt_def, BitVec.toNat_ofNat, Nat.mod_eq_of_lt (by omega)]
  exact hc

/-- One round of a copy loop: word J of the buffer is read and then written to port `r`, and J advances. -/
def copyWord (r : Reg) (buf : Word) (q : Pos) (s : State) : State :=
  { busWritePort r (s.readMem (wordAddr buf s.j)) q (memRead (wordAddr buf s.j) q s) with j := s.j + 1#32 }

/-- `L` is the test of a loop in which `i` copies its buffer at `buf` to port `r`, standing at `p` after a read and at `q`
after a write. -/
structure CopyLoop (i : Instr) (L : State → Out) (r : Reg) (buf : Word) (p q : Pos) : Prop where
  reads : ∀ s, s.j < i.readEnd s → s.cfg.admits .load buf (i.bufferWords s) s.j = true →
    L s = .next (memRead (wordAddr buf s.j) p s)
  writes : ∀ s, s.phase = .active p → exec i s = .next (busWritePort r s.v q s)
  loops : ∀ s, s.phase = .active q → exec i s = L { s with j := s.j + 1#32 }

/-- A round leaves the end of the loop alone. -/
@[simp] theorem readEnd_copyWord : i.readEnd (copyWord r buf q s) = i.readEnd s := by cases i <;> rfl

/-- A round leaves the word count of the buffer alone. -/
@[simp] theorem bufferWords_copyWord : i.bufferWords (copyWord r buf q s) = i.bufferWords s := by cases i <;> rfl

/-- One round of a copy loop takes two steps. -/
theorem CopyLoop.run_round {p : Pos} (h : CopyLoop i L r buf p q) (k : Nat) (hr : s.resets = [])
    (hi : decodeLatch s = .ok i) (hj : s.j < i.readEnd s)
    (hadm : s.cfg.admits .load buf (i.bufferWords s) s.j = true) :
    runFrom (k + 2) (L s) = runFrom k (L (copyWord r buf q s)) :=
  calc runFrom (k + 2) (L s)
    _ = core.run (k + 2) (memRead (wordAddr buf s.j) p s) := by rw [h.reads s hj hadm, runFrom_next]
    _ = core.run (k + 1) (busWritePort r (s.readMem (wordAddr buf s.j)) q (memRead (wordAddr buf s.j) p s)) :=
      run_step (k + 1) hr rfl hi (h.writes _ rfl)
    _ = runFrom k (exec i (busWritePort r (s.readMem (wordAddr buf s.j)) q (memRead (wordAddr buf s.j) p s))) :=
      run_active k hr rfl hi
    _ = runFrom k (L (copyWord r buf q s)) := congrArg (runFrom k) (h.loops _ rfl)

/-- The copy loop runs through any number of words that lie before its end and are admitted, two steps a word. -/
theorem CopyLoop.run_rounds {p : Pos} (h : CopyLoop i L r buf p q) (m k : Nat) (hr : s.resets = [])
    (hi : decodeLatch s = .ok i)
    (hwords : ∀ c < m, s.j + BitVec.ofNat 32 c < i.readEnd s ∧
      s.cfg.admits .load buf (i.bufferWords s) (s.j + BitVec.ofNat 32 c) = true) :
    runFrom (2 * m + k) (L s) = runFrom k (L ((copyWord r buf q)^[m] s)) := by
  induction m generalizing s with
  | zero => rw [Nat.mul_zero, Nat.zero_add]; rfl
  | succ m ih =>
    obtain ⟨hj, hadm⟩ := hwords 0 m.succ_pos
    have hnext (c : Nat) : (copyWord r buf q s).j + BitVec.ofNat 32 c = s.j + BitVec.ofNat 32 (c + 1) :=
      word_add_one_add s.j c
    rw [show 2 * (m + 1) + k = 2 * m + k + 2 by omega,
      h.run_round _ hr hi (by simpa using hj) (by simpa using hadm), Function.iterate_succ_apply]
    refine ih (s := copyWord r buf q s) hr hi fun c hc => ?_
    rw [hnext, readEnd_copyWord, bufferWords_copyWord]
    exact hwords (c + 1) (Nat.succ_lt_succ hc)

/-- Copying words changes only J, V, PHASE and the trace. -/
theorem copyWords_frame (m : Nat) (s : State) :
    (copyWord r buf q)^[m] s =
      { s with
        j := s.j + BitVec.ofNat 32 m, v := ((copyWord r buf q)^[m] s).v, phase := ((copyWord r buf q)^[m] s).phase,
        trace := ((copyWord r buf q)^[m] s).trace } := by
  induction m with
  | zero => simp
  | succ m ih =>
    rw [Function.iterate_succ_apply', ih]
    simp [copyWord, busWritePort, memRead, BitVec.ofNat_add, BitVec.add_assoc]

/-- A buffer of one word more. -/
theorem buffer_succ (s : State) (buf : Word) (m : Nat) :
    s.buffer buf (m + 1) = s.buffer buf m ++ [s.readMem (wordAddr buf (BitVec.ofNat 32 m))] := by
  simp [State.buffer, List.range_succ]

/-- The copy of one word more. -/
theorem copyEvents_succ (s : State) (r : Reg) (buf : Word) (m : Nat) :
    s.copyEvents r buf (m + 1) = s.copyEvents r buf m ++
      [.memRd (wordAddr buf (BitVec.ofNat 32 m)) (s.readMem (wordAddr buf (BitVec.ofNat 32 m))),
       .busWr r (s.readMem (wordAddr buf (BitVec.ofNat 32 m)))] := by
  have hlen : (s.buffer buf m).length = m := by simp [State.buffer]
  simp [State.copyEvents, buffer_succ, List.zipIdx_append, hlen]

/-- The events of a copy that begins at word 0. -/
theorem copyWords_trace (m : Nat) (hj : s.j = 0#32) :
    ((copyWord r buf q)^[m] s).trace = (s.copyEvents r buf m).reverse ++ s.trace := by
  induction m with
  | zero => rfl
  | succ m ih =>
    have hframe := copyWords_frame (r := r) (buf := buf) (q := q) m s
    have hidx : ((copyWord r buf q)^[m] s).j = BitVec.ofNat 32 m := by rw [hframe]; simp [hj]
    have hmem (addr : Word) : ((copyWord r buf q)^[m] s).readMem addr = s.readMem addr := by rw [hframe]; rfl
    rw [Function.iterate_succ_apply', copyEvents_succ, copyWord]
    simp [hidx, hmem, ih]

/-- What a trace gave to a register, by its parts. -/
theorem given_append (r : Reg) (new old : List Event) : given r (new ++ old) = given r old ++ given r new := by
  simp [given]

/-- An event that is no write of a register gives it nothing. -/
theorem given_cons_of_not_given {e : Event} (h : e.given r = none) (tr : List Event) : given r (e :: tr) = given r tr := by
  simp [given, h]

/-- A word written any number of times. -/
theorem given_replicate (r : Reg) (w : Word) (m : Nat) : given r (List.replicate m (.busWr r w)) = List.replicate m w := by
  simp [given, Event.given]

/-- A copy gives its port the words of the buffer, in order. -/
theorem given_copyEvents (m : Nat) : given r (s.copyEvents r buf m).reverse = s.buffer buf m := by
  induction m with
  | zero => rfl
  | succ m ih =>
    rw [copyEvents_succ, buffer_succ, List.reverse_append, given_append, ih]
    simp [given, Event.given]

end

/-! ### A whole SETIV (43 R155, R156) -/

section
variable {a n : Word} {s : State}

/-- SETIV's copy loop. -/
theorem ivLoop_copies (a n : Word) : CopyLoop (.setiv a n) (ivLoop a) .iv a .ivWrite .ivWritten where
  reads _ hj hadm := ivLoop_reads hj hadm
  writes _ hp := exec_setiv_ivWrite hp
  loops _ hp := exec_setiv_ivWritten hp

/-- One round of the zero fill. -/
def fillZero (s : State) : State := { busWritePort .iv 0#32 .zeroWritten s with j := s.j + 1#32 }

/-- The zero fill runs through any number of words before its end, a step a word. -/
theorem run_fillZeros (m k : Nat) (hr : s.resets = []) (hi : decodeLatch s = .ok (.setiv a n))
    (hwords : ∀ c < m, s.j + BitVec.ofNat 32 c < s.n) :
    runFrom (m + k) (zeroLoop s) = runFrom k (zeroLoop (fillZero^[m] s)) := by
  induction m generalizing s with
  | zero => rw [Nat.zero_add]; rfl
  | succ m ih =>
    have hj : s.j < s.n := by simpa using hwords 0 m.succ_pos
    have hnext (c : Nat) : (fillZero s).j + BitVec.ofNat 32 c = s.j + BitVec.ofNat 32 (c + 1) := word_add_one_add s.j c
    have hrest : ∀ c < m, (fillZero s).j + BitVec.ofNat 32 c < s.n := fun c hc => by
      rw [hnext]
      exact hwords (c + 1) (Nat.succ_lt_succ hc)
    calc runFrom (m + 1 + k) (zeroLoop s)
      _ = core.run (m + k + 1) (busWritePort .iv 0#32 .zeroWritten s) := by
        rw [zeroLoop_writes hj, runFrom_next, Nat.add_right_comm]
      _ = runFrom (m + k) (exec (.setiv a n) (busWritePort .iv 0#32 .zeroWritten s)) := run_active (m + k) hr rfl hi
      _ = runFrom (m + k) (zeroLoop (fillZero s)) := congrArg (runFrom (m + k)) (exec_setiv_zeroWritten rfl)
      _ = runFrom k (zeroLoop (fillZero^[m + 1] s)) := ih (s := fillZero s) hr hi hrest

/-- What the zero fill changes. -/
theorem fillZeros_frame (m : Nat) (s : State) :
    fillZero^[m] s =
      { s with
        j := s.j + BitVec.ofNat 32 m, phase := (fillZero^[m] s).phase,
        trace := List.replicate m (.busWr .iv 0#32) ++ s.trace } := by
  induction m with
  | zero => simp
  | succ m ih =>
    rw [Function.iterate_succ_apply', ih]
    simp [fillZero, busWritePort, BitVec.ofNat_add, BitVec.add_assoc, List.replicate_succ]

/-- The zero fill of all N words, with no Reset to come, ends the command. -/
theorem run_zeroFill (hr : s.resets = []) (hi : decodeLatch s = .ok (.setiv a n)) (hn : s.n = n) (hj : s.j = 0#32) :
    runFrom n.toNat (zeroLoop s) = .next (complete .ok (fillZero^[n.toNat] s)) := by
  have hwords : ∀ c < n.toNat, s.j + BitVec.ofNat 32 c < s.n := fun c hc => by
    simpa [hj, hn] using ofNat_lt_of_lt_toNat hc
  have hend : ¬ (fillZero^[n.toNat] s).j < (fillZero^[n.toNat] s).n := by
    rw [fillZeros_frame]
    simp [hj, hn]
  refine (run_fillZeros n.toNat 0 hr hi hwords).trans ?_
  rw [zeroLoop_completes hend]
  rfl

/-- SETIV once it has copied the IV. -/
def ivCopied (a n : Word) (s : State) : State := (copyWord .iv a .ivWritten)^[n.toNat] (s.ivSized n)

/-- The copy of the IV changes N, J, V, PHASE and the trace. -/
theorem ivCopied_frame (a n : Word) (s : State) :
    ivCopied a n s =
      { s with
        n := n, j := n, v := (ivCopied a n s).v, phase := (ivCopied a n s).phase,
        trace := (s.copyEvents .iv a n.toNat).reverse ++ s.trace } := by
  have htrace : (ivCopied a n s).trace = (s.copyEvents .iv a n.toNat).reverse ++ s.trace := copyWords_trace n.toNat rfl
  rw [← htrace]
  refine (copyWords_frame n.toNat (s.ivSized n)).trans ?_
  simp [ivCopied, State.ivSized]

/-- SETIV once it has made its last write: in counter mode the zero fill follows the IV. -/
def ivLoaded (a n : Word) (s : State) : State :=
  if s.modeM = s.cfg.codeCtr then fillZero^[n.toNat] { ivCopied a n s with j := 0#32 } else ivCopied a n s

/-- The events of SETIV before it completes. -/
theorem ivLoaded_trace (a n : Word) (s : State) :
    (ivLoaded a n s).trace =
      (if s.modeM = s.cfg.codeCtr then List.replicate n.toNat (.busWr .iv 0#32) else []) ++
        (s.copyEvents .iv a n.toNat).reverse ++ s.trace := by
  unfold ivLoaded
  split
  · rw [fillZeros_frame, ivCopied_frame, List.append_assoc]
  · rw [ivCopied_frame]
    rfl

/-- SETIV changes N, J, V, PHASE and the trace before it completes. -/
theorem ivLoaded_frame (a n : Word) (s : State) :
    ivLoaded a n s =
      { s with
        n := n, j := (ivLoaded a n s).j, v := (ivLoaded a n s).v, phase := (ivLoaded a n s).phase,
        trace := (ivLoaded a n s).trace } := by
  unfold ivLoaded
  split
  · rw [fillZeros_frame, ivCopied_frame]
  · rw [ivCopied_frame]

/-- A SETIV whose buffer is checked and admitted first copies the IV. -/
theorem run_ivCopied (k : Nat) (hr : s.resets = []) (hp : s.phase = .active .start) (hc : s.clken = true)
    (hi : decodeLatch s = .ok (.setiv a n)) (hbuf : checkBuffer a n = none)
    (hadm : ∀ c < n.toNat, s.cfg.admits .load a n (BitVec.ofNat 32 c) = true) :
    core.run (2 * n.toNat + k + 1) s = runFrom k (ivLoop a (ivCopied a n s)) := by
  rw [run_active _ hr hp hi, exec_setiv_start hp hc hbuf]
  refine (ivLoop_copies a n).run_rounds (s := s.ivSized n) n.toNat k hr hi fun c hc => ?_
  simpa [State.ivSized, Instr.readEnd, Instr.bufferWords] using And.intro (ofNat_lt_of_lt_toNat hc) (hadm c hc)

/-- SETIV with no Reset to come, its buffer checked and admitted, from start to end. -/
theorem run_setiv (hr : s.resets = []) (hp : s.phase = .active .start) (hc : s.clken = true)
    (hi : decodeLatch s = .ok (.setiv a n)) (hbuf : checkBuffer a n = none)
    (hadm : ∀ c < n.toNat, s.cfg.admits .load a n (BitVec.ofNat 32 c) = true) :
    core.run (if s.modeM = s.cfg.codeCtr then 3 * n.toNat + 1 else 2 * n.toNat + 1) s =
      .next (complete .ok (ivLoaded a n s)) := by
  have hframe := ivCopied_frame a n s
  have hend : ¬ (ivCopied a n s).j < (ivCopied a n s).n := by rw [hframe]; exact BitVec.lt_irrefl n
  have hmode : (ivCopied a n s).modeM = (ivCopied a n s).cfg.codeCtr ↔ s.modeM = s.cfg.codeCtr := by rw [hframe]
  unfold ivLoaded
  split
  case isTrue hm =>
    rw [show 3 * n.toNat + 1 = 2 * n.toNat + n.toNat + 1 by omega, run_ivCopied _ hr hp hc hi hbuf hadm,
      ivLoop_fills hend (hmode.mpr hm), hframe]
    exact run_zeroFill hr hi rfl rfl
  case isFalse hm =>
    refine (run_ivCopied 0 hr hp hc hi hbuf hadm).trans ?_
    rw [ivLoop_completes hend (hmode.not.mpr hm)]
    rfl

/-- Settles O30: the run copies the IV, in counter mode fills with zeros, and completes. -/
theorem setivGivesTheIvAndZeroFill : Obligations.SetivGivesTheIvAndZeroFill := by
  intro a n s hr hp hc hi hbuf hadm
  have hcheck : checkBuffer a n = none := checkBuffer_passes (or_iff_not_imp_left.mpr hbuf)
  have htrace := congrArg (Event.done .ok :: ·) (ivLoaded_trace a n s)
  refine ⟨_, run_setiv hr hp hc hi hcheck hadm, ?given, htrace, congrArg (complete .ok) (ivLoaded_frame a n s)⟩
  case given =>
    rw [complete_trace, given_cons_of_not_given rfl, ivLoaded_trace, given_append, given_append, given_copyEvents,
      List.append_assoc]
    split
    · rw [given_replicate]
    · rfl

end

/-! ### A whole SETKEY (43 R150 to R154) -/

section
variable {a : Word} {s : State}

/-- SETKEY's copy loop. -/
theorem keyLoop_copies (a : Word) : CopyLoop (.setkey a) (keyLoop a) .key a .keyWrite .keyWritten where
  reads _ hj hadm := keyLoop_reads hj hadm
  writes _ hp := exec_setkey_keyWrite hp
  loops _ hp := exec_setkey_keyWritten hp

/-- SETKEY once its direction write is made (43 R151). -/
def keyDirected (s : State) : State := directionWrite false .directionSet (busReadCr .rmwWrite s.keySized)

/-- SETKEY once it has copied the key. -/
def keyCopied (a : Word) (s : State) : State :=
  (copyWord .key a .keyWritten)^[s.keyCount.toNat] { keyDirected s with j := 0#32 }

/-- The copy of the key changes what the direction write has changed, and J, V, PHASE and the trace. -/
theorem keyCopied_frame (a : Word) (s : State) :
    keyCopied a s =
      { keyDirected s with
        j := s.keyCount, v := (keyCopied a s).v, phase := (keyCopied a s).phase,
        trace := (s.copyEvents .key a s.keyCount.toNat).reverse ++ (keyDirected s).trace } := by
  have htrace : (keyCopied a s).trace =
      (s.copyEvents .key a s.keyCount.toNat).reverse ++ (keyDirected s).trace :=
    copyWords_trace (s := { keyDirected s with j := 0#32 }) _ rfl
  rw [← htrace]
  refine (copyWords_frame _ { keyDirected s with j := 0#32 }).trans ?_
  simp [keyCopied]

/-- SETKEY at the end of its gate, of one CR read. -/
def keyLoaded (a : Word) (s : State) : State := busReadCr .gate (keyCopied a s)

/-- SETKEY changes SZ, J, V, TMP, CR, PHASE, the draws to come and the trace before it completes. -/
theorem keyLoaded_frame (a : Word) (s : State) :
    keyLoaded a s =
      { s with
        sz := s.keyCount, j := (keyLoaded a s).j, v := (keyLoaded a s).v, tmp := (keyLoaded a s).tmp,
        crLast := (keyLoaded a s).crLast, phase := .active .gate, answers := s.answers.tail.tail, draws := s.draws + 2,
        trace := (keyLoaded a s).trace } := by
  unfold keyLoaded
  rw [keyCopied_frame]
  rfl

/-- The CR that SETKEY leaves is CR as read with DECODE cleared (43 R151). -/
theorem keyLoaded_crLast (a : Word) (s : State) : (keyLoaded a s).crLast = s.crAnswer &&& ~~~s.cfg.decodeMask := by
  rw [keyLoaded, keyCopied_frame]
  exact rmwValue_clear s.crAnswer s.cfg.decodeMask

/-- DECODE is 0 after SETKEY (43 R151). -/
theorem keyLoaded_decode (a : Word) (hwf : s.cfg.WF) : (keyLoaded a s).crLast.getLsbD s.cfg.decodeBit = false := by
  rw [keyLoaded, keyCopied_frame]
  exact directionWrite_decodeBit (s := busReadCr .rmwWrite s.keySized) hwf false .directionSet

/-- The events of SETKEY before it completes. -/
theorem keyLoaded_trace (a : Word) (s : State) :
    (keyLoaded a s).trace = .busRd .cr (keyLoaded a s).tmp ::
      ((s.copyEvents .key a s.keyCount.toNat).reverse ++
        [.busWr .cr (keyLoaded a s).crLast, .busRd .cr s.crAnswer] ++ s.trace) := by
  unfold keyLoaded
  rw [keyCopied_frame, List.append_assoc]
  rfl

/-- The gate's read of SETKEY says of BUSY what the draw after the direction's does (40 R107). -/
theorem keyLoaded_busy {w : Word} (hwf : s.cfg.WF) (hw : s.answers.tail.head? = some w) :
    s.cfg.busy (keyLoaded a s).tmp = w.getLsbD s.cfg.busyBit := by
  have hframe := keyCopied_frame a s
  have hcfg : (keyCopied a s).cfg = s.cfg := by rw [hframe]; rfl
  have hans : (keyCopied a s).answers.head? = some w := by rw [hframe]; exact hw
  rw [← hcfg]
  exact crAnswer_busy (hcfg ▸ hwf) hans

/-- SETKEY with no Reset to come, its buffer checked and admitted, goes as far as its gate. -/
theorem run_keyLoaded (k : Nat) (hr : s.resets = []) (hp : s.phase = .active .start) (hc : s.clken = true)
    (hi : decodeLatch s = .ok (.setkey a)) (hbuf : checkBuffer a s.keyCount = none)
    (hadm : ∀ c < s.keyCount.toNat, s.cfg.admits .load a s.keyCount (BitVec.ofNat 32 c) = true) :
    core.run (2 * s.keyCount.toNat + k + 3) s = core.run k (keyLoaded a s) := by
  have hend : ¬ (keyCopied a s).j < (keyCopied a s).sz := by
    rw [keyCopied_frame]
    exact BitVec.lt_irrefl s.keyCount
  have hwords : ∀ c < s.keyCount.toNat, 0#32 + BitVec.ofNat 32 c < s.keyCount ∧
      s.cfg.admits .load a s.keyCount (0#32 + BitVec.ofNat 32 c) = true := fun c hc => by
    rw [BitVec.zero_add]
    exact ⟨ofNat_lt_of_lt_toNat hc, hadm c hc⟩
  calc core.run (2 * s.keyCount.toNat + k + 3) s
    _ = core.run (2 * s.keyCount.toNat + k + 2) (busReadCr .rmwWrite s.keySized) :=
      run_step _ hr hp hi (exec_setkey_start hp hc hbuf)
    _ = core.run (2 * s.keyCount.toNat + k + 1) (keyDirected s) :=
      run_step _ hr rfl hi (exec_setkey_rmwWrite rfl)
    _ = runFrom (2 * s.keyCount.toNat + k) (exec (.setkey a) (keyDirected s)) := run_active _ hr rfl hi
    _ = runFrom (2 * s.keyCount.toNat + k) (keyLoop a { keyDirected s with j := 0#32 }) :=
      congrArg (runFrom _) (exec_setkey_directionSet rfl)
    _ = runFrom k (keyLoop a (keyCopied a s)) :=
      (keyLoop_copies a).run_rounds (s := { keyDirected s with j := 0#32 }) _ k hr hi hwords
    _ = core.run k (keyLoaded a s) := congrArg (runFrom k) (keyLoop_ends hend)

/-- SETKEY with no Reset to come, its buffer checked and admitted and the gate's first answer ready, from start to end. -/
theorem run_setkey {w : Word} (hwf : s.cfg.WF) (hr : s.resets = []) (hp : s.phase = .active .start) (hc : s.clken = true)
    (hi : decodeLatch s = .ok (.setkey a)) (hbuf : checkBuffer a s.keyCount = none)
    (hadm : ∀ c < s.keyCount.toNat, s.cfg.admits .load a s.keyCount (BitVec.ofNat 32 c) = true)
    (hw : s.answers.tail.head? = some w) (hb : w.getLsbD s.cfg.busyBit = false) :
    core.run (2 * s.keyCount.toNat + 4) s =
      .next (complete (setkeyResult s.keyCount) (keyLoaded a s)) := by
  have hframe := keyLoaded_frame a s
  have hres : (keyLoaded a s).resets = [] := by rw [hframe]; exact hr
  have hlatch : decodeLatch (keyLoaded a s) = .ok (.setkey a) := by rw [hframe]; exact hi
  have hsz : (keyLoaded a s).sz = s.keyCount := by rw [hframe]
  have hready : (keyLoaded a s).cfg.busy (keyLoaded a s).tmp = false := by
    rw [show (keyLoaded a s).cfg = s.cfg by rw [hframe], keyLoaded_busy hwf hw, hb]
  refine (run_keyLoaded 1 hr hp hc hi hbuf hadm).trans ?_
  rw [run_step 0 hres rfl hlatch (exec_setkey_ready rfl hready), hsz, run_zero]

/-- Settles O31: the run is the direction write, the copy of the key, the gate and the completion. -/
theorem setkeyGivesTheWholeKey : Obligations.SetkeyGivesTheWholeKey := by
  rintro a k w0 w1 rest s hwf hr hp hc hi rfl hbuf hadm hans hb
  have hcheck : checkBuffer a s.keyCount = none := checkBuffer_passes (or_iff_not_imp_left.mpr hbuf)
  have hrun := run_setkey hwf hr hp hc hi hcheck hadm (w := w1) (by rw [hans]; rfl) hb
  have hframe := congrArg (complete (setkeyResult s.keyCount)) (keyLoaded_frame a s)
  have hrest : s.answers.tail.tail = rest := by rw [hans]; rfl
  refine ⟨_, hrun, ?given, ?trace, keyLoaded_crLast a s, keyLoaded_decode a hwf, ?res, hrest ▸ hframe⟩
  case given =>
    rw [complete_trace, given_cons_of_not_given rfl, keyLoaded_trace, given_cons_of_not_given rfl, List.append_assoc,
      given_append, given_copyEvents]
    rfl
  case trace => exact congrArg (Event.done _ :: ·) (keyLoaded_trace a s)
  case res => exact apply_ite Result.code _ _ _

end

end Sys2Proof.Machine
end

section
/-! PROOFS. The family 44_block_streaming: ENCODE and DECODE from their checks to the gate (44 R170 to R174); the chunk
invariant, which every step keeps; and whole runs: the direction write, then each block's copy to DATA, its gate and its
output words, with the events that a block makes. -/

namespace Sys2Proof.Machine

/-! ### ENCODE and DECODE up to the gate (44 R170, R172, R173) -/

section
variable {d : Bool} {src dst len : Word} {s : State}

/-- The direction write is CR as read with DECODE set for DECODE and cleared for ENCODE (40 R111, R112). -/
theorem rmwValue_direction (p : Params) (tmp : Word) (d : Bool) :
    rmwValue tmp p.decodeMask (p.directionValue d) =
      if d then tmp ||| (1#32 <<< p.decodeBit) else tmp &&& ~~~(1#32 <<< p.decodeBit) := by
  cases d with
  | false => exact rmwValue_clear tmp p.decodeMask
  | true => exact rmwValue_same tmp p.decodeMask

/-- The second step of ENCODE and DECODE is the direction write. -/
theorem exec_streamOf_rmwWrite (hp : s.phase = .active .rmwWrite) :
    exec (streamOf d src dst len) s = .next (directionWrite d .directionSet s) :=
  exec_rmwWrite_direction hp (.inr ⟨src, dst, len, rfl⟩)

/-- After the direction write the chunk loop begins at word 0. -/
theorem exec_streamOf_directionSet (hp : s.phase = .active .directionSet) :
    exec (streamOf d src dst len) s = chunkLoop src { s with off := 0#32 } := by
  simp only [exec_streamOf, streamStep, hp]

/-- A word that WriteChunk has read goes to DATA. -/
theorem exec_streamOf_chunkWrite (hp : s.phase = .active .chunkWrite) :
    exec (streamOf d src dst len) s = .next (busWritePort .data s.v .chunkWritten s) := by
  simp only [exec_streamOf, streamStep, hp]

/-- After a DATA write of WriteChunk, J advances and its loop goes on. -/
theorem exec_streamOf_chunkWritten (hp : s.phase = .active .chunkWritten) :
    exec (streamOf d src dst len) s = writeLoop src { s with j := s.j + 1#32 } := by
  simp only [exec_streamOf, streamStep, hp]

/-- WriteChunk reads the next source word while J is below END. -/
theorem writeLoop_reads (hj : s.j < s.endJ) (hadm : s.cfg.admits .load src s.n s.j = true) :
    writeLoop src s = .next (memRead (wordAddr src s.j) .chunkWrite s) := by
  simp only [writeLoop, hj, if_true]
  exact loadWord_next.mpr ⟨hadm, rfl⟩

/-- WriteChunk ends with the gate's first CR read. -/
theorem writeLoop_ends (hj : ¬ s.j < s.endJ) : writeLoop src s = .next (busReadCr .gate s) := by
  simp only [writeLoop, hj, if_false]

end

/-- Settles O24, position by position. -/
theorem streamWritesItsChunks : Obligations.StreamWritesItsChunks := by
  intro d src dst len s
  refine ⟨?direction, fun hp => ⟨?completes, ?begins⟩, exec_streamOf_chunkWrite, ?written⟩
  case direction =>
    rintro w rfl hp
    rw [exec_streamOf_rmwWrite hp, directionWrite, rmwValue_direction]
    rfl
  case completes =>
    intro hn
    rw [exec_streamOf_directionSet hp]
    exact chunkLoop_completes (by simp [hn])
  case begins =>
    intro e hn he hpos hadm
    have he' : e.toNat = min ((0#32).toNat + s.sz.toNat) s.n.toNat := by simpa using he
    have hsum : (0#32).toNat + s.sz.toNat < 2 ^ 32 := by simp [s.sz.isLt]
    rw [exec_streamOf_directionSet hp, chunkLoop_begins (s := { s with off := 0#32 }) hn he' hsum hpos hadm,
      wordAddr_zero]
    rfl
  case written =>
    rintro j rfl hp
    rw [exec_streamOf_chunkWritten hp]
    exact ⟨fun hj hadm => writeLoop_reads hj hadm, fun hj => writeLoop_ends hj⟩

/-! ### The chunk invariant (44 R170, R172, R173) -/

section
variable {d : Bool} {src dst len : Word} {s t : State} {i : Instr}

/-- If `s` stands within a chunk, END is at most N, and J is before END where a store comes next. -/
def State.InChunk (s : State) : Prop :=
  ∀ p, s.phase = .active p → p ≠ .start → p ≠ .rmwWrite → p ≠ .directionSet →
    s.endJ ≤ s.n ∧ (p = .chunkStore → s.j < s.endJ)

/-- The invariant speaks of the latched command only where that is ENCODE or DECODE. -/
theorem chunkInside_iff : s.ChunkInside ↔ ∀ i, decodeLatch s = .ok i → i.isStream = true → s.InChunk :=
  ⟨fun h i hi hstream p hp => h p i hp hi hstream, fun h p i hp hi hstream => h i hi hstream p hp⟩

/-- A position outside ReadChunk's store asks only for END. -/
theorem inChunk_of_end {p : Pos} (hp : s.phase = .active p) (hps : p ≠ .chunkStore) (hend : s.endJ ≤ s.n) : s.InChunk := by
  intro q hq _ _ _
  obtain rfl : p = q := by simpa [hp] using hq
  exact ⟨hend, fun h => absurd h hps⟩

/-- With no command active there is no chunk. -/
theorem inChunk_of_not_active (hp : ∀ p, s.phase ≠ .active p) : s.InChunk :=
  fun p h => absurd h (hp p)

/-- Before the first chunk the invariant asks for nothing. -/
theorem inChunk_of_before {p : Pos} (hp : s.phase = .active p) (hps : p = .start ∨ p = .rmwWrite ∨ p = .directionSet) :
    s.InChunk := by
  intro q hq h1 h2 h3
  obtain rfl : p = q := by simpa [hp] using hq
  simp [h1, h2, h3] at hps

/-- WriteChunk stays inside the chunk it is given. -/
theorem writeLoop_inChunk (hend : s.endJ ≤ s.n) (h : writeLoop src s = .next t) : t.InChunk := by
  unfold writeLoop at h
  split at h
  · obtain ⟨-, rfl⟩ := loadWord_next.mp h
    exact inChunk_of_end rfl (by simp) hend
  · cases h
    exact inChunk_of_end rfl (by simp) hend

/-- The chunk loop clips END to N. -/
theorem chunkLoop_inChunk (h : chunkLoop src s = .next t) : t.InChunk := by
  have hclip : (if s.off + s.sz ≤ s.n then s.off + s.sz else s.n) ≤ s.n := by
    split
    · assumption
    · exact BitVec.le_refl _
  unfold chunkLoop at h
  split at h
  · exact writeLoop_inChunk hclip h
  · cases h
    exact inChunk_of_not_active (by simp)

/-- ReadChunk reads a word to store only while J is below END. -/
theorem readLoop_inChunk (hend : s.endJ ≤ s.n) (h : readLoop src s = .next t) : t.InChunk := by
  unfold readLoop at h
  split at h
  case isTrue hj =>
    cases h
    exact fun _ _ _ _ _ => ⟨hend, fun _ => hj⟩
  case isFalse => exact chunkLoop_inChunk h

/-- What ENCODE or DECODE decides at its start ends before the first chunk. -/
theorem streamStart_inChunk (h : streamStart src dst len s = .next t) : t.InChunk :=
  fun _ hq _ hrmw _ => absurd (streamStart_position h hq) hrmw

/-- A step of ENCODE or DECODE keeps it inside its chunk. -/
theorem streamStep_inChunk (hs : s.InChunk) (h : streamStep d src dst len s = .next t) : t.InChunk := by
  have hend {p : Pos} (hp : s.phase = .active p) (hps : p ≠ .start ∧ p ≠ .rmwWrite ∧ p ≠ .directionSet) :
      s.endJ ≤ s.n := by
    obtain ⟨hstart, hrmw, hdir⟩ := hps
    obtain ⟨hend, -⟩ := hs p hp hstart hrmw hdir
    exact hend
  unfold streamStep at h
  split at h
  case h_1 =>
    obtain ⟨-, h⟩ | ⟨-, rfl⟩ := whenClocked_next.mp h
    · exact streamStart_inChunk h
    · exact inChunk_of_not_active (by simp)
  case h_2 =>
    cases h
    exact inChunk_of_before rfl (by simp)
  case h_3 => exact chunkLoop_inChunk h
  case h_4 hp =>
    cases h
    exact inChunk_of_end rfl (by simp) (hend hp (by simp))
  case h_5 hp => exact writeLoop_inChunk (s := { s with j := s.j + 1#32 }) (hend hp (by simp)) h
  case h_6 hp =>
    have hgate := hend hp (by simp)
    obtain ⟨-, rfl⟩ | ⟨-, h⟩ := gateTest_next.mp h
    · exact inChunk_of_end rfl (by simp) hgate
    · exact readLoop_inChunk (s := { s with j := s.off }) hgate h
  case h_7 hp =>
    obtain ⟨-, rfl⟩ := storeWord_next.mp h
    exact inChunk_of_end rfl (by simp) (hend hp (by simp))
  case h_8 hp => exact readLoop_inChunk (s := { s with j := s.j + 1#32 }) (hend hp (by simp)) h
  case h_9 => simp at h

/-- A step of a command keeps ENCODE and DECODE inside their buffers. -/
theorem exec_keeps_chunkInside (hs : s.ChunkInside) (hi : decodeLatch s = .ok i) (h : exec i s = .next t) :
    t.ChunkInside := by
  rw [chunkInside_iff] at hs ⊢
  intro k hk hstream
  obtain rfl : i = k := by simpa [(exec_effect h).latch, hi] using hk
  have hin := hs i hi hstream
  obtain ⟨d, src, dst, len, rfl⟩ := exists_streamOf hstream
  rw [exec_streamOf] at h
  exact streamStep_inChunk hin h

/-- Outside a chunk the invariant holds whatever the latch holds. -/
theorem State.InChunk.chunkInside (h : s.InChunk) : s.ChunkInside :=
  chunkInside_iff.mpr fun _ _ _ => h

end

/-- Settles O39, by the cases of what a step can do. -/
theorem stepKeepsChunksInside : Obligations.StepKeepsChunksInside := by
  intro s t hs h
  refine step_keeps h hs ?reset ?tick ?host ?illegal ?command
  case reset => exact fun later _ => (inChunk_of_not_active (by simp)).chunkInside
  case tick => exact fun _ hs => hs
  case host =>
    intro s t hs _ h
    exact hostStep_keeps h hs (fun _ _ => hs) fun _ _ _ => (inChunk_of_before rfl (.inl rfl)).chunkInside
  case illegal => exact fun _ _ _ _ _ => (inChunk_of_not_active (by simp)).chunkInside
  case command => exact fun _ _ _ _ hs _ hi h => exec_keeps_chunkInside hs hi h

/-! ### From the start to the first chunk (44 R170, R174, R177) -/

section
variable {d : Bool} {src dst len : Word} {s : State}

/-- ENCODE or DECODE once its direction write is made, at word 0 of its buffers. -/
def streamBegun (d : Bool) (len : Word) (s : State) : State :=
  { directionWrite d .directionSet (busReadCr .rmwWrite (s.sized len)) with off := 0#32 }

/-- The direction write and the assignments before it change SZ, OFF, N, TMP, CR, PHASE and the trace, and take a draw. -/
theorem streamBegun_frame (d : Bool) (len : Word) (s : State) :
    streamBegun d len s =
      { s with
        sz := s.cfg.blockWords s.algoM, off := 0#32, n := len, tmp := s.crAnswer, crLast := (streamBegun d len s).crLast,
        phase := .active .directionSet, answers := s.answers.tail, draws := s.draws + 1,
        trace := [.busWr .cr (streamBegun d len s).crLast, .busRd .cr s.crAnswer] ++ s.trace } := by
  simp only [streamBegun, directionWrite, busWriteCr, busReadCr, State.sized, State.crAnswer, State.nextDraw,
    List.cons_append, List.nil_append]

@[simp] theorem streamBegun_cfg (d : Bool) (len : Word) (s : State) : (streamBegun d len s).cfg = s.cfg := by
  rw [streamBegun_frame]
@[simp] theorem streamBegun_sz (d : Bool) (len : Word) (s : State) :
    (streamBegun d len s).sz = s.cfg.blockWords s.algoM := by rw [streamBegun_frame]
@[simp] theorem streamBegun_off (d : Bool) (len : Word) (s : State) : (streamBegun d len s).off = 0#32 := by
  rw [streamBegun_frame]
@[simp] theorem streamBegun_n (d : Bool) (len : Word) (s : State) : (streamBegun d len s).n = len := by
  rw [streamBegun_frame]
@[simp] theorem streamBegun_mem (d : Bool) (len : Word) (s : State) : (streamBegun d len s).mem = s.mem := by
  rw [streamBegun_frame]
@[simp] theorem streamBegun_resets (d : Bool) (len : Word) (s : State) : (streamBegun d len s).resets = s.resets := by
  rw [streamBegun_frame]
@[simp] theorem streamBegun_answers (d : Bool) (len : Word) (s : State) :
    (streamBegun d len s).answers = s.answers.tail := by rw [streamBegun_frame]
@[simp] theorem streamBegun_draws (d : Bool) (len : Word) (s : State) : (streamBegun d len s).draws = s.draws + 1 := by
  rw [streamBegun_frame]

/-- The events of the direction write. -/
theorem streamBegun_trace (d : Bool) (len : Word) (s : State) :
    (streamBegun d len s).trace = [.busWr .cr (streamBegun d len s).crLast, .busRd .cr s.crAnswer] ++ s.trace := by
  rw [streamBegun_frame]

@[simp] theorem streamBegun_latch (d : Bool) (len : Word) (s : State) :
    decodeLatch (streamBegun d len s) = decodeLatch s := by
  rw [streamBegun_frame]
  rfl

/-- The CR that the direction write leaves: as read, with DECODE set or cleared. -/
theorem streamBegun_crLast (d : Bool) (len : Word) (s : State) :
    (streamBegun d len s).crLast =
      if d then s.crAnswer ||| (1#32 <<< s.cfg.decodeBit) else s.crAnswer &&& ~~~(1#32 <<< s.cfg.decodeBit) :=
  rmwValue_direction s.cfg s.crAnswer d

/-- The direction write puts the direction in DECODE (40 R112). -/
theorem streamBegun_decodeBit (hwf : s.cfg.WF) (d : Bool) (len : Word) :
    (streamBegun d len s).crLast.getLsbD s.cfg.decodeBit = d :=
  directionWrite_decodeBit (s := busReadCr .rmwWrite (s.sized len)) hwf d .directionSet

/-- The direction write writes every bit but DECODE back as read (40 R112). -/
theorem streamBegun_kept {b : Nat} (hb : b ≠ s.cfg.decodeBit) (d : Bool) (len : Word) :
    (streamBegun d len s).crLast.getLsbD b = s.crAnswer.getLsbD b :=
  directionWrite_kept (s := busReadCr .rmwWrite (s.sized len)) hb d .directionSet

/-- ENCODE or DECODE with no Reset to come, past its checks, makes two events and goes on to the chunk loop's first test. -/
theorem run_streamBegun (k : Nat) (hr : s.resets = []) (hp : s.phase = .active .start) (hc : s.clken = true)
    (hi : decodeLatch s = .ok (streamOf d src dst len)) (hbw : s.cfg.blockWords s.algoM ≠ 0#32)
    (hlen : len % s.cfg.blockWords s.algoM = 0#32) (hsrc : checkBuffer src len = none)
    (hdst : checkBuffer dst len = none) :
    core.run (k + 3) s = runFrom k (chunkLoop src (streamBegun d len s)) :=
  calc core.run (k + 3) s
    _ = core.run (k + 2) (busReadCr .rmwWrite (s.sized len)) :=
      run_step _ hr hp hi ((exec_streamOf_start hp hc).trans (streamStart_passes hbw hlen hsrc hdst))
    _ = core.run (k + 1) (directionWrite d .directionSet (busReadCr .rmwWrite (s.sized len))) :=
      run_step _ hr rfl hi (exec_streamOf_rmwWrite rfl)
    _ = runFrom k (exec (streamOf d src dst len) (directionWrite d .directionSet (busReadCr .rmwWrite (s.sized len)))) :=
      run_active k hr rfl hi
    _ = runFrom k (chunkLoop src (streamBegun d len s)) := congrArg (runFrom k) (exec_streamOf_directionSet rfl)

end

/-- Settles O32: both buffers of no word pass their check, and the chunk loop ends at its first test. -/
theorem zeroLengthSetsTheDirectionOnly : Obligations.ZeroLengthSetsTheDirectionOnly := by
  intro d src dst s _ hr hp hc hi hbw
  have hbuf (a : Word) : checkBuffer a 0#32 = none := checkBuffer_passes (.inl rfl)
  have hrun := run_streamBegun 0 hr hp hc hi hbw BitVec.zero_umod (hbuf src) (hbuf dst)
  rw [chunkLoop_completes (s := streamBegun d 0#32 s) (by simp)] at hrun
  refine ⟨_, _, hrun, ?_, streamBegun_crLast d 0#32 s, rfl, rfl, rfl, streamBegun_mem d 0#32 s⟩
  rw [complete_trace, streamBegun_trace]
  rfl

/-! ### ReadChunk's loop: DATA is drained into the destination (20 R69; 44 R170) -/

section
variable {d : Bool} {src dst len : Word} {s : State}

/-- One round of ReadChunk: an output word is read and stored at word J of the destination, and J advances. -/
def drainWord (dst : Word) (s : State) : State :=
  { memWrite (wordAddr dst s.j) s.dataAnswer .chunkStored (busReadData .chunkStore s) with j := s.j + 1#32 }

/-- One round of ReadChunk takes two steps. -/
theorem run_drainWord (k : Nat) (hr : s.resets = []) (hi : decodeLatch s = .ok (streamOf d src dst len))
    (hj : s.j < s.endJ) (hadm : s.cfg.admits .store dst s.n s.j = true) :
    runFrom (k + 2) (readLoop src s) = runFrom k (readLoop src (drainWord dst s)) :=
  calc runFrom (k + 2) (readLoop src s)
    _ = core.run (k + 2) (busReadData .chunkStore s) := by rw [readLoop_reads hj, runFrom_next]
    _ = core.run (k + 1) (memWrite (wordAddr dst s.j) s.dataAnswer .chunkStored (busReadData .chunkStore s)) :=
      run_step (k + 1) hr rfl hi (exec_streamOf_chunkStore rfl hadm)
    _ = runFrom k (exec (streamOf d src dst len)
          (memWrite (wordAddr dst s.j) s.dataAnswer .chunkStored (busReadData .chunkStore s))) := run_active k hr rfl hi
    _ = runFrom k (readLoop src (drainWord dst s)) := congrArg (runFrom k) (exec_streamOf_chunkStored rfl)

/-- ReadChunk runs through any number of words that lie before END and are admitted, two steps a word. -/
theorem run_drainWords (m k : Nat) (hr : s.resets = []) (hi : decodeLatch s = .ok (streamOf d src dst len))
    (hwords : ∀ c < m, s.j + BitVec.ofNat 32 c < s.endJ ∧
      s.cfg.admits .store dst s.n (s.j + BitVec.ofNat 32 c) = true) :
    runFrom (2 * m + k) (readLoop src s) = runFrom k (readLoop src ((drainWord dst)^[m] s)) := by
  induction m generalizing s with
  | zero => rw [Nat.mul_zero, Nat.zero_add]; rfl
  | succ m ih =>
    obtain ⟨hj, hadm⟩ := hwords 0 m.succ_pos
    have hnext (c : Nat) : (drainWord dst s).j + BitVec.ofNat 32 c = s.j + BitVec.ofNat 32 (c + 1) :=
      word_add_one_add s.j c
    rw [show 2 * (m + 1) + k = 2 * m + k + 2 by omega,
      run_drainWord _ hr hi (by simpa using hj) (by simpa using hadm), Function.iterate_succ_apply]
    refine ih (s := drainWord dst s) hr hi fun c hc => ?_
    rw [hnext]
    exact hwords (c + 1) (Nat.succ_lt_succ hc)

/-- Draining words changes only J, V, memory, PHASE, the draws to come and the trace. -/
theorem drainWords_frame (m : Nat) (s : State) :
    (drainWord dst)^[m] s =
      { s with
        j := s.j + BitVec.ofNat 32 m, v := ((drainWord dst)^[m] s).v, mem := ((drainWord dst)^[m] s).mem,
        phase := ((drainWord dst)^[m] s).phase, answers := s.answers.drop m, draws := s.draws + m,
        trace := ((drainWord dst)^[m] s).trace } := by
  induction m with
  | zero => simp
  | succ m ih =>
    rw [Function.iterate_succ_apply', ih]
    simp [drainWord, busReadData, memWrite, BitVec.ofNat_add, BitVec.add_assoc, Nat.add_assoc]

end

/-! ### One whole block (44 R172) -/

section
variable {d : Bool} {src dst len : Word} {s : State}

/-- A chunk of a whole block, once its words have gone to DATA. -/
def blockCopied (src : Word) (s : State) : State :=
  (copyWord .data src .chunkWritten)^[s.sz.toNat] { s with endJ := s.off + s.sz, j := s.off }

/-- The block in its gate, after the gate's first CR read and `k` more. -/
def blockGated (src : Word) (k : Nat) (s : State) : State := gateReads k (busReadCr .gate (blockCopied src s))

/-- The block once its output words are stored. -/
def blockDrained (src dst : Word) (k : Nat) (s : State) : State :=
  (drainWord dst)^[s.sz.toNat] { blockGated src k s with j := s.off }

/-- The block done, and OFF at the next one; its gate's first `k` CR reads found BUSY 1. -/
def blockDone (src dst : Word) (k : Nat) (s : State) : State :=
  { blockDrained src dst k s with off := s.off + s.sz }

/-- The copy of a block changes END, J, V, PHASE and the trace. -/
theorem blockCopied_frame (src : Word) (s : State) :
    blockCopied src s =
      { s with
        endJ := s.off + s.sz, j := s.off + s.sz, v := (blockCopied src s).v, phase := (blockCopied src s).phase,
        trace := (blockCopied src s).trace } := by
  refine (copyWords_frame _ { s with endJ := s.off + s.sz, j := s.off }).trans ?_
  simp [blockCopied]

/-- The gate changes TMP and takes a draw for each CR read. -/
theorem blockGated_frame (src : Word) (k : Nat) (s : State) :
    blockGated src k s =
      { s with
        endJ := s.off + s.sz, j := s.off + s.sz, v := (blockCopied src s).v, tmp := (blockGated src k s).tmp,
        phase := .active .gate, answers := s.answers.drop (k + 1), draws := s.draws + (k + 1),
        trace := (blockGated src k s).trace } := by
  have hphase : (blockGated src k s).phase = .active .gate :=
    gateReads_phase (s := busReadCr .gate (blockCopied src s)) k rfl
  have hread : blockGated src k s =
    { blockCopied src s with
      tmp := (blockGated src k s).tmp, phase := (blockGated src k s).phase,
      answers := (blockCopied src s).answers.drop (k + 1), draws := (blockCopied src s).draws + (k + 1),
      trace := (blockGated src k s).trace } := gateReads_frame (k + 1) (blockCopied src s)
  generalize blockGated src k s = t at hread hphase ⊢
  rw [blockCopied_frame, hphase] at hread
  exact hread

/-- The drain changes J, V, memory, PHASE, the draws to come and the trace. -/
theorem blockDrained_frame (src dst : Word) (k : Nat) (s : State) :
    blockDrained src dst k s =
      { s with
        endJ := s.off + s.sz, j := s.off + s.sz, v := (blockDrained src dst k s).v, tmp := (blockGated src k s).tmp,
        mem := (blockDrained src dst k s).mem, phase := (blockDrained src dst k s).phase,
        answers := s.answers.drop (k + 1 + s.sz.toNat), draws := s.draws + (k + 1) + s.sz.toNat,
        trace := (blockDrained src dst k s).trace } := by
  have hdrain : blockDrained src dst k s =
    { blockGated src k s with
      j := s.off + BitVec.ofNat 32 s.sz.toNat, v := (blockDrained src dst k s).v,
      mem := (blockDrained src dst k s).mem, phase := (blockDrained src dst k s).phase,
      answers := (blockGated src k s).answers.drop s.sz.toNat, draws := (blockGated src k s).draws + s.sz.toNat,
      trace := (blockDrained src dst k s).trace } := drainWords_frame s.sz.toNat { blockGated src k s with j := s.off }
  generalize blockDrained src dst k s = t at hdrain ⊢
  rw [blockGated_frame] at hdrain
  simpa [List.drop_drop] using hdrain

/-- A block changes OFF, END, J, V, TMP, memory, PHASE, the draws to come and the trace. -/
theorem blockDone_frame (src dst : Word) (k : Nat) (s : State) :
    blockDone src dst k s =
      { s with
        off := s.off + s.sz, endJ := (blockDone src dst k s).endJ, j := (blockDone src dst k s).j,
        v := (blockDone src dst k s).v, tmp := (blockDone src dst k s).tmp, mem := (blockDone src dst k s).mem,
        phase := (blockDone src dst k s).phase, answers := s.answers.drop (k + 1 + s.sz.toNat),
        draws := s.draws + (k + 1) + s.sz.toNat, trace := (blockDone src dst k s).trace } := by
  unfold blockDone
  rw [blockDrained_frame]

@[simp] theorem blockCopied_cfg (src : Word) (s : State) : (blockCopied src s).cfg = s.cfg := by rw [blockCopied_frame]
@[simp] theorem blockGated_cfg (src : Word) (k : Nat) (s : State) : (blockGated src k s).cfg = s.cfg := by
  rw [blockGated_frame]

/-- The gate's last CR read of a block says of BUSY what its own draw does (40 R107). -/
theorem blockGated_busy {k : Nat} {w : Word} (hwf : s.cfg.WF) (hw : s.answers[k]? = some w) :
    s.cfg.busy (blockGated src k s).tmp = w.getLsbD s.cfg.busyBit := by
  have hcfg := blockCopied_cfg src s
  have hans : (blockCopied src s).answers = s.answers := by rw [blockCopied_frame]
  have hread := gateReads_busy (s := blockCopied src s) (hcfg.symm ▸ hwf) (hans.symm ▸ hw)
  rwa [hcfg] at hread

/-- WriteChunk's copy loop. -/
theorem writeLoop_copies (d : Bool) (src dst len : Word) :
    CopyLoop (streamOf d src dst len) (writeLoop src) .data src .chunkWrite .chunkWritten where
  reads _ hj hadm := writeLoop_reads (by simpa using hj) (by simpa using hadm)
  writes _ hp := exec_streamOf_chunkWrite hp
  loops _ hp := exec_streamOf_chunkWritten hp

/-- A whole block that ends in the buffers is a chunk from OFF to OFF + SZ. -/
theorem chunkLoop_block (hsz : s.sz ≠ 0#32) (hfits : s.off.toNat + s.sz.toNat ≤ s.n.toNat) :
    chunkLoop src s = writeLoop src { s with endJ := s.off + s.sz, j := s.off } := by
  have hoff : s.off < s.n := by bv_omega
  have hend : s.off + s.sz ≤ s.n := by bv_omega
  simp only [chunkLoop, hoff, hend, if_true]

/-- The draws that a block of ENCODE or DECODE takes: BUSY 1 at each read of the gate but the last, and an output word for
each of the block's `k` words (44 R172). -/
structure GateBlock.Answers (p : Params) (k : Nat) (b : GateBlock) : Prop where
  busy : ∀ x ∈ b.busy, x.getLsbD p.busyBit = true
  ready : b.ready.getLsbD p.busyBit = false
  outs : b.outs.length = k

/-- Both buffers are admitted word by word. -/
def State.AdmitsStream (src dst : Word) (s : State) : Prop :=
  ∀ c < s.n.toNat, s.cfg.admits .load src s.n (BitVec.ofNat 32 c) = true ∧
    s.cfg.admits .store dst s.n (BitVec.ofNat 32 c) = true

variable {b : GateBlock} {rest : List Word}

/-- The words of a whole block lie before its end, and are admitted in both buffers. -/
theorem State.AdmitsStream.block_words (h : s.AdmitsStream src dst) (hfits : s.off.toNat + s.sz.toNat ≤ s.n.toNat) :
    ∀ c < s.sz.toNat, s.off + BitVec.ofNat 32 c < s.off + s.sz ∧
      s.cfg.admits .load src s.n (s.off + BitVec.ofNat 32 c) = true ∧
      s.cfg.admits .store dst s.n (s.off + BitVec.ofNat 32 c) = true := by
  intro c hc
  have hidx : s.off + BitVec.ofNat 32 c = BitVec.ofNat 32 (s.off.toNat + c) := by bv_omega
  exact ⟨by bv_omega, hidx ▸ h (s.off.toNat + c) (by omega)⟩

/-- A whole block is copied to DATA, two steps a word, and then its gate begins. -/
theorem run_blockCopied (k : Nat) (hr : s.resets = []) (hi : decodeLatch s = .ok (streamOf d src dst len))
    (hsz : s.sz ≠ 0#32) (hfits : s.off.toNat + s.sz.toNat ≤ s.n.toNat) (hadm : s.AdmitsStream src dst) :
    runFrom (2 * s.sz.toNat + k) (chunkLoop src s) = core.run k (busReadCr .gate (blockCopied src s)) := by
  have hend : ¬ (blockCopied src s).j < (blockCopied src s).endJ := by
    rw [blockCopied_frame]
    exact BitVec.lt_irrefl _
  have hcopy := (writeLoop_copies d src dst len).run_rounds (s := { s with endJ := s.off + s.sz, j := s.off })
    s.sz.toNat k hr hi fun c hc => by
      obtain ⟨hlt, hload, -⟩ := hadm.block_words hfits c hc
      simpa using And.intro hlt hload
  rw [chunkLoop_block hsz hfits, hcopy]
  exact congrArg (runFrom k) (writeLoop_ends hend)

/-- The gate of a block reads CR until the block's ready answer. -/
theorem run_blockGated (n : Nat) (hwf : s.cfg.WF) (hr : s.resets = [])
    (hi : decodeLatch s = .ok (streamOf d src dst len)) (hans : s.answers = b.draws ++ rest)
    (hb : b.Answers s.cfg s.sz.toNat) :
    core.run (b.busy.length + n) (busReadCr .gate (blockCopied src s)) =
      core.run n (blockGated src b.busy.length s) := by
  have hres : (blockCopied src s).resets = [] := by rw [blockCopied_frame]; exact hr
  have hlatch : decodeLatch (blockCopied src s) = .ok (streamOf d src dst len) := by rw [blockCopied_frame]; exact hi
  have hgate : .gate ∈ (streamOf d src dst len).positions := by simp [streamPositions]
  refine run_gate_busy b.busy.length n hgate hres rfl hlatch fun m hm => ?_
  have hw : s.answers[m]? = some b.busy[m] := by
    rw [hans, GateBlock.draws, List.append_assoc, List.getElem?_append_left hm, List.getElem?_eq_getElem hm]
  rw [busReadCr_cfg, blockCopied_cfg]
  exact (blockGated_busy hwf hw).trans (hb.busy _ (List.getElem_mem hm))

/-- After its ready answer a block is drained into the destination, two steps a word, and then comes the next chunk. -/
theorem run_blockDrained (m k : Nat) (hr : s.resets = []) (hi : decodeLatch s = .ok (streamOf d src dst len))
    (hfits : s.off.toNat + s.sz.toNat ≤ s.n.toNat) (hadm : s.AdmitsStream src dst)
    (hready : s.cfg.busy (blockGated src m s).tmp = false) :
    core.run (2 * s.sz.toNat + k + 1) (blockGated src m s) = runFrom k (chunkLoop src (blockDone src dst m s)) := by
  have hgated := blockGated_frame src m s
  have hdrained := blockDrained_frame src dst m s
  have hres : (blockGated src m s).resets = [] := by rw [hgated]; exact hr
  have hlatch : decodeLatch (blockGated src m s) = .ok (streamOf d src dst len) := by rw [hgated]; exact hi
  have hphase : (blockGated src m s).phase = .active .gate := by rw [hgated]
  have hoff : (blockGated src m s).off = s.off := by rw [hgated]
  have hend : ¬ (blockDrained src dst m s).j < (blockDrained src dst m s).endJ := by
    rw [hdrained]
    exact BitVec.lt_irrefl _
  calc core.run (2 * s.sz.toNat + k + 1) (blockGated src m s)
    _ = runFrom (2 * s.sz.toNat + k) (exec (streamOf d src dst len) (blockGated src m s)) :=
      run_active _ hres hphase hlatch
    _ = runFrom (2 * s.sz.toNat + k) (readLoop src { blockGated src m s with j := s.off }) := by
      rw [exec_streamOf_ready hphase (by rwa [blockGated_cfg]), ← hoff]
    _ = runFrom k (readLoop src (blockDrained src dst m s)) := by
      refine run_drainWords _ k hres hlatch fun c hc => ?_
      obtain ⟨hlt, -, hstore⟩ := hadm.block_words hfits c hc
      rw [hgated]
      exact ⟨hlt, hstore⟩
    _ = runFrom k (chunkLoop src (blockDone src dst m s)) := by
      rw [readLoop_ends hend, blockDone, show (blockDrained src dst m s).off = s.off by rw [hdrained],
        show (blockDrained src dst m s).sz = s.sz by rw [hdrained]]

/-- A whole block runs from the chunk loop's test to its next: two steps a word to DATA, a step for each CR read of the
gate, and two steps a word back (44 R172). -/
theorem run_blockDone (k : Nat) (hwf : s.cfg.WF) (hr : s.resets = [])
    (hi : decodeLatch s = .ok (streamOf d src dst len)) (hsz : s.sz ≠ 0#32)
    (hfits : s.off.toNat + s.sz.toNat ≤ s.n.toNat) (hadm : s.AdmitsStream src dst)
    (hans : s.answers = b.draws ++ rest) (hb : b.Answers s.cfg s.sz.toNat) :
    runFrom (4 * s.sz.toNat + (b.busy.length + 1) + k) (chunkLoop src s) =
      runFrom k (chunkLoop src (blockDone src dst b.busy.length s)) := by
  have hready : s.cfg.busy (blockGated src b.busy.length s).tmp = false :=
    (blockGated_busy hwf (by simp [hans, GateBlock.draws])).trans hb.ready
  calc runFrom (4 * s.sz.toNat + (b.busy.length + 1) + k) (chunkLoop src s)
    _ = runFrom (2 * s.sz.toNat + (b.busy.length + (2 * s.sz.toNat + k + 1))) (chunkLoop src s) := by
      congr 1
      omega
    _ = core.run (b.busy.length + (2 * s.sz.toNat + k + 1)) (busReadCr .gate (blockCopied src s)) :=
      run_blockCopied _ hr hi hsz hfits hadm
    _ = core.run (2 * s.sz.toNat + k + 1) (blockGated src b.busy.length s) := run_blockGated _ hwf hr hi hans hb
    _ = runFrom k (chunkLoop src (blockDone src dst b.busy.length s)) :=
      run_blockDrained _ k hr hi hfits hadm hready

end

/-! ### Any number of blocks (44 R181) -/

section
variable {d : Bool} {src dst len : Word} {s : State} {b : GateBlock} {blocks : List GateBlock} {rest : List Word}

@[simp] theorem blockDone_cfg (src dst : Word) (k : Nat) (s : State) : (blockDone src dst k s).cfg = s.cfg := by
  rw [blockDone_frame]
@[simp] theorem blockDone_sz (src dst : Word) (k : Nat) (s : State) : (blockDone src dst k s).sz = s.sz := by
  rw [blockDone_frame]
@[simp] theorem blockDone_n (src dst : Word) (k : Nat) (s : State) : (blockDone src dst k s).n = s.n := by
  rw [blockDone_frame]
@[simp] theorem blockDone_crLast (src dst : Word) (k : Nat) (s : State) : (blockDone src dst k s).crLast = s.crLast := by
  rw [blockDone_frame]

theorem blockDone_draws (src dst : Word) (k : Nat) (s : State) :
    (blockDone src dst k s).draws = s.draws + (k + 1) + s.sz.toNat := by rw [blockDone_frame]

/-- A block takes its own draws. -/
theorem blockDone_answers (hans : s.answers = b.draws ++ rest) (hb : b.Answers s.cfg s.sz.toNat) :
    (blockDone src dst b.busy.length s).answers = rest := by
  have hlen : b.draws.length = b.busy.length + 1 + s.sz.toNat := by
    rw [GateBlock.draws, List.length_append, List.length_cons, hb.outs]
    omega
  rw [blockDone_frame, hans, ← hlen, List.drop_left]

/-- `s` after the given blocks. -/
def blocksDone (src dst : Word) : List GateBlock → State → State
  | [], s => s
  | b :: blocks, s => blocksDone src dst blocks (blockDone src dst b.busy.length s)

/-- No block writes CR. -/
@[simp] theorem blocksDone_crLast (src dst : Word) (blocks : List GateBlock) (s : State) :
    (blocksDone src dst blocks s).crLast = s.crLast := by
  induction blocks generalizing s with
  | nil => rfl
  | cons b blocks ih => exact (ih _).trans (blockDone_crLast ..)

/-- The blocks take their own draws. -/
theorem blocksDone_answers (hans : s.answers = blocks.flatMap GateBlock.draws ++ rest)
    (hblocks : ∀ b ∈ blocks, b.Answers s.cfg s.sz.toNat) : (blocksDone src dst blocks s).answers = rest := by
  induction blocks generalizing s with
  | nil => exact hans
  | cons b blocks ih =>
    obtain ⟨hb, hblocks⟩ := List.forall_mem_cons.mp hblocks
    refine ih (blockDone_answers ?_ hb) (by simpa using hblocks)
    rw [hans, List.flatMap_cons, List.append_assoc]

/-- ENCODE or DECODE runs through as many whole blocks as its buffers hold, and completes (44 R170, R181). -/
theorem run_blocksDone (hwf : s.cfg.WF) (hr : s.resets = []) (hi : decodeLatch s = .ok (streamOf d src dst len))
    (hsz : s.sz ≠ 0#32) (hfits : s.off.toNat + blocks.length * s.sz.toNat = s.n.toNat) (hadm : s.AdmitsStream src dst)
    (hans : s.answers = blocks.flatMap GateBlock.draws ++ rest)
    (hblocks : ∀ b ∈ blocks, b.Answers s.cfg s.sz.toNat) :
    runFrom (blocks.map fun b => 4 * s.sz.toNat + (b.busy.length + 1)).sum (chunkLoop src s) =
      .next (complete .ok (blocksDone src dst blocks s)) := by
  induction blocks generalizing s with
  | nil =>
    have hoff : ¬ s.off < s.n := by
      rw [BitVec.lt_def]
      simp only [List.length_nil, Nat.zero_mul, Nat.add_zero] at hfits
      omega
    rw [chunkLoop_completes hoff]
    rfl
  | cons b blocks ih =>
    obtain ⟨hb, hblocks⟩ := List.forall_mem_cons.mp hblocks
    have hans' : s.answers = b.draws ++ (blocks.flatMap GateBlock.draws ++ rest) := by
      rw [hans, List.flatMap_cons, List.append_assoc]
    have hsum : s.off.toNat + s.sz.toNat + blocks.length * s.sz.toNat = s.n.toNat := by
      rw [← hfits, List.length_cons, Nat.succ_mul]
      omega
    have hoff : (blockDone src dst b.busy.length s).off.toNat = s.off.toNat + s.sz.toNat := by
      rw [blockDone_frame]
      exact BitVec.toNat_add_of_lt (by omega)
    have hnext := ih (s := blockDone src dst b.busy.length s) (by simpa using hwf)
      (by rw [blockDone_frame]; exact hr) (by rw [blockDone_frame]; exact hi) (by simpa using hsz)
      (by simpa [hoff] using hsum) (by simpa [State.AdmitsStream] using hadm) (blockDone_answers hans' hb)
      (by simpa using hblocks)
    rw [List.map_cons, List.sum_cons, run_blockDone _ hwf hr hi hsz (by omega) hadm hans' hb]
    simpa [blocksDone] using hnext

/-- ENCODE or DECODE of whole blocks with no Reset to come, its buffers checked and admitted, from start to end: the
direction write, the blocks and the completion (44 R170, R181). -/
theorem run_stream {w : Word} (hwf : s.cfg.WF) (hr : s.resets = []) (hp : s.phase = .active .start)
    (hc : s.clken = true) (hi : decodeLatch s = .ok (streamOf d src dst len)) (hbw : s.cfg.blockWords s.algoM ≠ 0#32)
    (hlen : len.toNat = blocks.length * (s.cfg.blockWords s.algoM).toNat)
    (hbuf : len ≠ 0#32 → src.toNat % 4 = 0 ∧ src.toNat + 4 * len.toNat ≤ 2 ^ 32 ∧
      dst.toNat % 4 = 0 ∧ dst.toNat + 4 * len.toNat ≤ 2 ^ 32)
    (hadm : (s.sized len).AdmitsStream src dst) (hans : s.answers = w :: blocks.flatMap GateBlock.draws ++ rest)
    (hblocks : ∀ b ∈ blocks, b.Answers s.cfg (s.cfg.blockWords s.algoM).toNat) :
    core.run (2 + (blocks.map fun b => 4 * (s.cfg.blockWords s.algoM).toNat + (b.busy.length + 1)).sum + 1) s =
      .next (complete .ok (blocksDone src dst blocks (streamBegun d len s))) := by
  have hmod : len % s.cfg.blockWords s.algoM = 0#32 := word_mod_eq_zero_iff.mpr (by rw [hlen, Nat.mul_mod_left])
  have hcheck := or_iff_not_imp_left.mpr hbuf
  have hsrc : checkBuffer src len = none := checkBuffer_passes (hcheck.imp_right fun ⟨ha, hw, _⟩ => ⟨ha, hw⟩)
  have hdst : checkBuffer dst len = none := checkBuffer_passes (hcheck.imp_right fun ⟨_, _, ha, hw⟩ => ⟨ha, hw⟩)
  rw [Nat.add_right_comm, Nat.add_comm (2 + 1), run_streamBegun _ hr hp hc hi hbw hmod hsrc hdst]
  have hadmBegun : (streamBegun d len s).AdmitsStream src dst := by
    simpa [State.AdmitsStream, State.sized] using hadm
  have hdraws : (streamBegun d len s).answers = blocks.flatMap GateBlock.draws ++ rest := by simp [hans]
  have hblocksRun := run_blocksDone (s := streamBegun d len s) (d := d) (len := len) (by simpa using hwf)
    (by simpa using hr) (by simpa using hi) (by simpa using hbw) (by simp [hlen]) hadmBegun hdraws (by simpa using hblocks)
  rwa [streamBegun_sz] at hblocksRun

end

/-! ### How many events of each kind (44 R172, R181) -/

/-- The event is a DATA read. -/
def Event.isDataRead : Event → Bool
  | .busRd .data _ => true
  | _ => false

/-- The event is a CR read. -/
def Event.isCrRead : Event → Bool
  | .busRd .cr _ => true
  | _ => false

/-- The event is a memory read. -/
def Event.isMemRead : Event → Bool
  | .memRd _ _ => true
  | _ => false

/-- The event is a memory write. -/
def Event.isMemWrite : Event → Bool
  | .memWr _ _ => true
  | _ => false

/-- The events copy `copied` words from memory to DATA, drain `drained` words from DATA to memory, and read and write CR so
many times; there are no others. -/
structure Tally (new : List Event) (copied drained crReads crWrites : Nat) : Prop where
  length : new.length = 2 * copied + 2 * drained + crReads + crWrites
  dataWrites : (given .data new).length = copied
  crWrites : (given .cr new).length = crWrites
  dataReads : new.countP Event.isDataRead = drained
  crReads : new.countP Event.isCrRead = crReads
  memReads : new.countP Event.isMemRead = copied
  memWrites : new.countP Event.isMemWrite = drained

/-- The tally of two lists of events is the sum of theirs. -/
theorem Tally.append {new old : List Event} {c c' m m' r r' w w' : Nat} (h : Tally new c m r w)
    (k : Tally old c' m' r' w') : Tally (new ++ old) (c' + c) (m' + m) (r' + r) (w' + w) where
  length := by rw [List.length_append, h.length, k.length]; omega
  dataWrites := by rw [given_append, List.length_append, h.dataWrites, k.dataWrites]
  crWrites := by rw [given_append, List.length_append, h.crWrites, k.crWrites]
  dataReads := by rw [List.countP_append, h.dataReads, k.dataReads, Nat.add_comm]
  crReads := by rw [List.countP_append, h.crReads, k.crReads, Nat.add_comm]
  memReads := by rw [List.countP_append, h.memReads, k.memReads, Nat.add_comm]
  memWrites := by rw [List.countP_append, h.memWrites, k.memWrites, Nat.add_comm]

/-- The trace of `t` is that of `s` and events of this tally. -/
def State.Adds (s t : State) (copied drained crReads crWrites : Nat) : Prop :=
  ∃ new, t.trace = new ++ s.trace ∧ Tally new copied drained crReads crWrites

section
variable {src dst : Word} {s t u : State} {c c' m m' r r' w w' : Nat}

/-- No event at all. -/
theorem State.Adds.refl (s : State) : s.Adds s 0 0 0 0 := ⟨[], rfl, by constructor <;> rfl⟩

/-- What is added in two parts. -/
theorem State.Adds.trans (h : s.Adds t c m r w) (k : t.Adds u c' m' r' w') :
    s.Adds u (c + c') (m + m') (r + r') (w + w') := by
  obtain ⟨old, hold, htold⟩ := h
  obtain ⟨new, hnew, htnew⟩ := k
  exact ⟨new ++ old, by rw [hnew, hold, List.append_assoc], htnew.append htold⟩

/-- What any number of rounds of the same tally add. -/
theorem State.Adds.iterate {f : State → State} (h : ∀ s : State, s.Adds (f s) c m r w) (k : Nat) (s : State) :
    s.Adds (f^[k] s) (k * c) (k * m) (k * r) (k * w) := by
  induction k generalizing s with
  | zero => simpa using State.Adds.refl s
  | succ k ih =>
    rw [Function.iterate_succ_apply]
    simpa [Nat.succ_mul, Nat.add_comm] using (h s).trans (ih (f s))

/-- The copy of `k` words to DATA. -/
theorem copyWords_adds (buf : Word) (q : Pos) (k : Nat) (s : State) :
    s.Adds ((copyWord .data buf q)^[k] s) k 0 0 0 := by
  have hround (s : State) : s.Adds (copyWord .data buf q s) 1 0 0 0 := ⟨[_, _], rfl, by constructor <;> rfl⟩
  simpa using State.Adds.iterate hround k s

/-- The drain of `k` words from DATA. -/
theorem drainWords_adds (dst : Word) (k : Nat) (s : State) : s.Adds ((drainWord dst)^[k] s) 0 k 0 0 := by
  have hround (s : State) : s.Adds (drainWord dst s) 0 1 0 0 := ⟨[_, _], rfl, by constructor <;> rfl⟩
  simpa using State.Adds.iterate hround k s

/-- A CR read. -/
theorem busReadCr_adds (p : Pos) (s : State) : s.Adds (busReadCr p s) 0 0 1 0 :=
  ⟨[_], rfl, by constructor <;> rfl⟩

/-- The direction's CR read and CR write. -/
theorem streamBegun_adds (d : Bool) (len : Word) (s : State) : s.Adds (streamBegun d len s) 0 0 1 1 :=
  ⟨[_, _], rfl, by constructor <;> rfl⟩

/-- The CR reads of a gate. -/
theorem gateReads_adds (k : Nat) (s : State) : s.Adds (gateReads k s) 0 0 k 0 := by
  induction k generalizing s with
  | zero => exact .refl s
  | succ k ih => simpa [gateReads, Nat.add_comm] using (busReadCr_adds .gate s).trans (ih (busReadCr .gate s))

/-- A block copies SZ words, drains SZ words, and reads CR once more than it finds BUSY 1. -/
theorem blockDone_adds (src dst : Word) (k : Nat) (s : State) :
    s.Adds (blockDone src dst k s) s.sz.toNat s.sz.toNat (k + 1) 0 := by
  have hcopy : s.Adds (blockCopied src s) s.sz.toNat 0 0 0 :=
    copyWords_adds src .chunkWritten s.sz.toNat { s with endJ := s.off + s.sz, j := s.off }
  have hgate : (blockCopied src s).Adds (blockGated src k s) 0 0 (k + 1) 0 := gateReads_adds (k + 1) (blockCopied src s)
  have hdrain : (blockGated src k s).Adds (blockDone src dst k s) 0 s.sz.toNat 0 0 :=
    drainWords_adds dst s.sz.toNat { blockGated src k s with j := s.off }
  simpa using (hcopy.trans hgate).trans hdrain

/-- The events of any number of blocks. -/
theorem blocksDone_adds (src dst : Word) (blocks : List GateBlock) (s : State) :
    s.Adds (blocksDone src dst blocks s) (blocks.length * s.sz.toNat) (blocks.length * s.sz.toNat)
      (blocks.map fun b => b.busy.length + 1).sum 0 := by
  induction blocks generalizing s with
  | nil => simpa [blocksDone] using State.Adds.refl s
  | cons b blocks ih =>
    have hrest := ih (blockDone src dst b.busy.length s)
    rw [blockDone_sz] at hrest
    simpa [blocksDone, Nat.succ_mul, Nat.add_comm] using (blockDone_adds src dst b.busy.length s).trans hrest

end

/-- The events of a whole ENCODE or DECODE before it completes. -/
theorem stream_adds (d : Bool) (src dst len : Word) (blocks : List GateBlock) (s : State) :
    s.Adds (blocksDone src dst blocks (streamBegun d len s)) (blocks.length * (s.cfg.blockWords s.algoM).toNat)
      (blocks.length * (s.cfg.blockWords s.algoM).toNat) (1 + (blocks.map fun b => b.busy.length + 1).sum) 1 := by
  have hblocks : (streamBegun d len s).Adds (blocksDone src dst blocks (streamBegun d len s))
      (blocks.length * (s.cfg.blockWords s.algoM).toNat) (blocks.length * (s.cfg.blockWords s.algoM).toNat)
      (blocks.map fun b => b.busy.length + 1).sum 0 := blocksDone_adds src dst blocks (streamBegun d len s)
  simpa using (streamBegun_adds d len s).trans hblocks

/-- Settles O34: the run is the direction write, the blocks and the completion, and its events are theirs. -/
theorem streamEventCount : Obligations.StreamEventCount := by
  intro d src dst len w0 blocks rest s hwf hr hp hc hi hbw hlen hbuf hadm hans hblocks
  have hanswers : ∀ b ∈ blocks, b.Answers s.cfg (s.cfg.blockWords s.algoM).toNat := fun b hb => by
    obtain ⟨hbusy, hready, houts⟩ := hblocks b hb
    exact ⟨hbusy, hready, houts⟩
  have hrun := run_stream hwf hr hp hc hi hbw hlen hbuf hadm hans hanswers
  have hrest : (blocksDone src dst blocks (streamBegun d len s)).answers = rest :=
    blocksDone_answers (s := streamBegun d len s) (by simp [hans]) (by simpa using hanswers)
  have hdir : (blocksDone src dst blocks (streamBegun d len s)).crLast.getLsbD s.cfg.decodeBit = d := by
    rw [blocksDone_crLast]
    exact streamBegun_decodeBit hwf d len
  obtain ⟨new, htrace, htally⟩ := stream_adds d src dst len blocks s
  rw [← hlen] at htally
  refine ⟨_, new, hrun, rfl, rfl, congrArg (Event.done .ok :: ·) htrace, hrest, ?length, htally.dataWrites, htally.crWrites,
    htally.dataReads, htally.crReads, htally.memReads, htally.memWrites, hdir⟩
  case length =>
    have hsum : (blocks.map fun b => 4 * (s.cfg.blockWords s.algoM).toNat + (b.busy.length + 1)).sum =
        4 * len.toNat + (blocks.map fun b => b.busy.length + 1).sum := by
      rw [hlen, List.sum_map_add, List.map_const', List.sum_replicate, smul_eq_mul, Nat.mul_left_comm]
    rw [htally.length, hsum]
    omega

/-! ### One block's events and its output in memory (20 R62, R69; 44 R172) -/

section
variable {src dst y : Word} {s : State} {outs rest : List Word} {b : GateBlock} {k : Nat}

/-- The words of a buffer that ends in the address space lie one after the other (20 R65). -/
theorem lane_wordAddr {buf : Word} {c i : Nat} (hfit : buf.toNat + 4 * k ≤ 2 ^ 32) (hc : c < k) (hi : i < 4) :
    Memory.lane (wordAddr buf (BitVec.ofNat 32 c)) i = buf.toNat + 4 * c + i := by
  simp only [Memory.lane, wordAddr, BitVec.toNat_add, BitVec.toNat_mul, BitVec.toNat_ofNat]
  omega

/-- Where its four bytes are the same, a word is the same. -/
theorem Memory.readWord_congr {o : ByteOrder} {a : Word} {m m' : List Host.Cell}
    (h : ∀ i < 4, Memory.read (Memory.lane a i) m' = Memory.read (Memory.lane a i) m) :
    Memory.readWord o a m' = Memory.readWord o a m := by
  simp only [Memory.readWord, h 0 (by omega), h 1 (by omega), h 2 (by omega), h 3 (by omega)]

/-- The next draw is the first that is to come (log 4). -/
theorem nextDraw_cons (h : s.answers = y :: rest) : s.nextDraw = y := by
  simp only [State.nextDraw, h]

/-- The drain of one word more. -/
theorem drainEvents_append (dst : Word) (outs : List Word) (y : Word) :
    drainEvents dst (outs ++ [y]) =
      drainEvents dst outs ++ [.busRd .data y, .memWr (wordAddr dst (BitVec.ofNat 32 outs.length)) y] := by
  simp [drainEvents, List.zipIdx_append]

/-- A drain that begins at word 0 has come to the word after those it has drained. -/
theorem drainWords_j (m : Nat) (hj : s.j = 0#32) : ((drainWord dst)^[m] s).j = BitVec.ofNat 32 m := by
  rw [drainWords_frame, hj, BitVec.zero_add]

/-- The output word after those that are drained. -/
theorem drainWords_dataAnswer (hans : s.answers = outs ++ y :: rest) :
    ((drainWord dst)^[outs.length] s).dataAnswer = y := by
  refine nextDraw_cons (rest := rest) ?_
  rw [drainWords_frame, hans, List.drop_left]

/-- The events of a drain that begins at word 0. -/
theorem drainWords_trace (hj : s.j = 0#32) (hans : s.answers = outs ++ rest) :
    ((drainWord dst)^[outs.length] s).trace = (drainEvents dst outs).reverse ++ s.trace := by
  induction outs using List.reverseRecOn generalizing rest with
  | nil => rfl
  | append_singleton outs y ih =>
    rw [List.append_assoc] at hans
    rw [List.length_append, List.length_singleton, Function.iterate_succ_apply', drainWord, memWrite_trace,
      busReadData_trace, drainWords_j _ hj, drainWords_dataAnswer hans, ih hans, drainEvents_append]
    simp

/-- A drain leaves every byte outside its words alone. -/
theorem drainWords_outside {a m : Nat} (hj : s.j = 0#32) (hfit : dst.toNat + 4 * k ≤ 2 ^ 32) (hm : m ≤ k)
    (ha : a < dst.toNat ∨ dst.toNat + 4 * k ≤ a) :
    Memory.read a ((drainWord dst)^[m] s).mem = Memory.read a s.mem := by
  induction m with
  | zero => rfl
  | succ m ih =>
    rw [Function.iterate_succ_apply', drainWord, memWrite_mem, busReadData_mem, Memory.read_writeWord_other, ih (by omega)]
    intro i hi
    rw [drainWords_j m hj, lane_wordAddr hfit hm hi]
    omega

/-- A drain keeps memory in its canonical form. -/
theorem drainWords_wf (m : Nat) (h : Memory.wf s.mem = true) : Memory.wf ((drainWord dst)^[m] s).mem = true := by
  induction m with
  | zero => exact h
  | succ m ih =>
    rw [Function.iterate_succ_apply']
    exact Memory.writeWord_wf _ _ _ _ ih

/-- A store of word J of a buffer leaves the words before it alone. -/
theorem buffer_drainWord {m : Nat} (hfit : dst.toNat + 4 * (m + 1) ≤ 2 ^ 32) (hj : s.j = BitVec.ofNat 32 m) :
    (drainWord dst s).buffer dst m = s.buffer dst m := by
  refine List.map_congr_left fun c hc => Memory.readWord_congr fun i hi => ?_
  have hlt : c < m := List.mem_range.mp hc
  refine Memory.read_writeWord_other _ _ _ _ fun i' hi' => ?_
  rw [hj, lane_wordAddr hfit (by omega) hi, lane_wordAddr hfit (by omega) hi']
  omega

/-- A drain that begins at word 0 leaves its output words in the buffer, in order. -/
theorem drainWords_buffer (hj : s.j = 0#32) (hwf : Memory.wf s.mem = true) (hans : s.answers = outs ++ rest)
    (hfit : dst.toNat + 4 * outs.length ≤ 2 ^ 32) : ((drainWord dst)^[outs.length] s).buffer dst outs.length = outs := by
  induction outs using List.reverseRecOn generalizing rest with
  | nil => rfl
  | append_singleton outs y ih =>
    rw [List.append_assoc] at hans
    rw [List.length_append, List.length_singleton] at hfit ⊢
    have hidx := drainWords_j (dst := dst) outs.length hj
    have hlast : (drainWord dst ((drainWord dst)^[outs.length] s)).readMem
        (wordAddr dst (BitVec.ofNat 32 outs.length)) = y := by
      rw [← hidx, ← drainWords_dataAnswer (dst := dst) hans]
      exact Memory.readWord_writeWord _ _ _ (drainWords_wf _ hwf)
    rw [Function.iterate_succ_apply', buffer_succ, buffer_drainWord hfit hidx, ih hans (by omega), hlast]

/-- The output words of a block are the draws after its gate's. -/
theorem blockGated_answers (hans : s.answers = b.draws ++ rest) :
    (blockGated src b.busy.length s).answers = b.outs ++ rest := by
  rw [blockGated_frame, hans]
  simp [GateBlock.draws, List.drop_append]

/-- The first block leaves its output words at the start of the destination. -/
theorem blockDone_buffer (hoff : s.off = 0#32) (hwf : Memory.wf s.mem = true) (hans : s.answers = b.draws ++ rest)
    (hb : b.Answers s.cfg s.sz.toNat) (hfit : dst.toNat + 4 * s.sz.toNat ≤ 2 ^ 32) :
    (blockDone src dst b.busy.length s).buffer dst s.sz.toNat = b.outs := by
  have hwf' : Memory.wf (blockGated src b.busy.length s).mem = true := by rw [blockGated_frame]; exact hwf
  have hbuffer := drainWords_buffer (s := { blockGated src b.busy.length s with j := s.off }) hoff hwf'
    (blockGated_answers hans) (hb.outs.symm ▸ hfit)
  rwa [hb.outs] at hbuffer

/-- The first block leaves every byte outside its words of the destination alone. -/
theorem blockDone_outside {a : Nat} (hoff : s.off = 0#32) (hfit : dst.toNat + 4 * s.sz.toNat ≤ 2 ^ 32)
    (ha : a < dst.toNat ∨ dst.toNat + 4 * s.sz.toNat ≤ a) (k : Nat) :
    Memory.read a (blockDone src dst k s).mem = Memory.read a s.mem := by
  have hmem : (blockGated src k s).mem = s.mem := by rw [blockGated_frame]
  rw [← hmem]
  exact drainWords_outside (s := { blockGated src k s with j := s.off }) hoff hfit le_rfl ha

/-- The events of the first block, whose gate reads CR once. -/
theorem blockDone_trace {w : Word} (hoff : s.off = 0#32) (hans : s.answers = w :: (outs ++ rest))
    (houts : outs.length = s.sz.toNat) :
    (blockDone src dst 0 s).trace = (drainEvents dst outs).reverse ++ .busRd .cr (blockDone src dst 0 s).tmp ::
      ((s.copyEvents .data src s.sz.toNat).reverse ++ s.trace) := by
  have hcopy : (blockCopied src s).trace = (s.copyEvents .data src s.sz.toNat).reverse ++ s.trace :=
    copyWords_trace (s := { s with endJ := s.off + s.sz, j := s.off }) s.sz.toNat hoff
  have hgate : (blockGated src 0 s).trace = .busRd .cr (blockGated src 0 s).tmp :: (blockCopied src s).trace := rfl
  have htmp : (blockDone src dst 0 s).tmp = (blockGated src 0 s).tmp := by rw [blockDone, blockDrained_frame]
  have hdraws : (blockGated src 0 s).answers = outs ++ rest := by rw [blockGated_frame, hans]; rfl
  have hdrain := drainWords_trace (dst := dst) (s := { blockGated src 0 s with j := s.off }) hoff hdraws
  rw [htmp, ← hcopy, ← hgate, ← hdrain, houts]
  rfl

end

/-- Settles O33: the run is one block's, whose gate reads CR once. -/
theorem streamCarriesOneBlock : Obligations.StreamCarriesOneBlock := by
  rintro d src dst k w0 w1 outs rest s hwf hmem hr hp hc hi hk hk0 hsrc hsrcFits hdst hdstFits hadm hans houts hready
  have hb : (GateBlock.mk [] w1 outs).Answers s.cfg k.toNat := ⟨by simp, hready, houts⟩
  have hrun := run_stream (blocks := [⟨[], w1, outs⟩]) (rest := rest) (w := w0) hwf hr hp hc hi (hk ▸ hk0) (by simp [← hk])
    (fun _ => ⟨hsrc, hsrcFits, hdst, hdstFits⟩) hadm (by simpa [GateBlock.draws] using hans) (by simpa [← hk] using hb)
  rw [← hk] at hrun
  have hoff := streamBegun_off d k s
  have hsz : (streamBegun d k s).sz = k := by rw [streamBegun_sz, hk]
  have hdraws : (streamBegun d k s).answers = w1 :: (outs ++ rest) := by simp [hans]
  have hfit : dst.toNat + 4 * (streamBegun d k s).sz.toNat ≤ 2 ^ 32 := by rwa [hsz]
  have hbegun : (GateBlock.mk [] w1 outs).Answers (streamBegun d k s).cfg (streamBegun d k s).sz.toNat := by
    rwa [streamBegun_cfg, hsz]
  have hcr := blockDone_crLast src dst 0 (streamBegun d k s)
  refine ⟨complete .ok (blockDone src dst 0 (streamBegun d k s)), ?run, ?trace, ?buffer, ?outside, ?decode, ?kept, ?frame⟩
  case run =>
    rw [show 4 * k.toNat + 4 = 2 + (4 * k.toNat + (0 + 1) + 0) + 1 by omega]
    exact hrun
  case trace =>
    rw [complete_trace, blockDone_trace hoff hdraws (by rw [hsz, houts]), hsz, streamBegun_trace, complete_crLast, hcr,
      List.append_assoc]
    rfl
  case buffer =>
    have hbuffer := blockDone_buffer (src := src) (b := ⟨[], w1, outs⟩) hoff (by rwa [streamBegun_mem]) hdraws hbegun hfit
    rwa [hsz] at hbuffer
  case outside =>
    intro a ha
    rw [complete_mem, blockDone_outside hoff hfit (by rwa [hsz]), streamBegun_mem]
  case decode => rw [complete_crLast, hcr, streamBegun_decodeBit hwf]
  case kept => exact fun b hb => by rw [complete_crLast, hcr, streamBegun_kept hb]
  case frame =>
    have hrest : (blockDone src dst 0 (streamBegun d k s)).answers = rest :=
      blockDone_answers (b := ⟨[], w1, outs⟩) hdraws hbegun
    have hcount : (blockDone src dst 0 (streamBegun d k s)).draws = s.draws + k.toNat + 2 := by
      rw [blockDone_draws, streamBegun_draws, hsz]
      omega
    have hframe := blockDone_frame src dst 0 (streamBegun d k s)
    generalize blockDone src dst 0 (streamBegun d k s) = B at hframe hrest hcount ⊢
    rw [streamBegun_frame, ← hk] at hframe
    rw [← hrest, ← hcount, hframe]
    rfl

end Sys2Proof.Machine
end

section
/-! PROOFS. The family 60_exceptions: an illegal command's completion (60 R203), a fault, which a command raises at its start
or not at all (60 R205, R211), and the two ways out of any state: Reset, and the wait for it (60 R205, R213; 70 R230). -/

/-! ### Illegal commands, Reset and the faulted machine (60 R203, R205, R213; 70 R230) -/

namespace Sys2Proof.Machine

/-- A step in which Reset is due is Reset (60 R213). -/
theorem step_reset_due {s : State} {later : List Nat} (h : s.resets = 0 :: later) :
    step s = .next (deviceReset later s) := by
  simp only [step, h]

/-- A faulted machine has no step of its own (60 R205). -/
theorem advance_faulted {s : State} (hp : s.phase = .faulted) : advance s = .fault .halted := by
  simp only [advance, hp]

/-- An illegal command's first step is its completion (60 R203). -/
theorem advance_illegal {s : State} {e : DecodeError} (hp : s.phase = .active .start) (hi : decodeLatch s = .error e) :
    advance s = .next (complete .illegal s) := by
  simp only [advance, hp, hi, illegalStep_start hp]

/-- Settles O10: such a latch does not decode, and the dispatch of an illegal command asks for no CLKEN. -/
theorem illegalCompletesAtOnce : Obligations.IllegalCompletesAtOnce := by
  intro s hr hp hillegal
  obtain ⟨e, hi⟩ : ∃ e, decodeLatch s = .error e := exists_decodeFields_error_iff.mpr hillegal
  exact (step_no_reset hr).trans (advance_illegal hp hi)

/-- Settles O12: the step is `deviceReset`. -/
theorem resetWinsAndClears : Obligations.ResetWinsAndClears := fun s later hr =>
  ⟨deviceReset later s, step_reset_due hr, rfl, rfl, rfl, rfl, rfl, rfl, rfl, rfl, rfl, rfl, rfl, rfl, rfl⟩

/-- Settles O14: the faulted state has no step of its own, so with a Reset to come the machine waits for it. -/
theorem faultedUntilReset : Obligations.FaultedUntilReset := by
  intro s hp
  constructor
  · intro hr
    rw [step_no_reset hr, advance_faulted hp]
  · intro k later hr
    rw [step_no_reset_due (by simp [hr]), advance_faulted (s := tickReset s) hp, tickReset_cons hr]
    rfl

end Sys2Proof.Machine

/-! ### Past its start a command raises no fault (60 R205) -/

namespace Sys2Proof.Machine

/-- The answer is no faulted state. -/
def RaisesNothing (o : Out) : Prop := ∀ t, o = .next t → t.phase ≠ .faulted

@[simp] theorem raisesNothing_next {t : State} : RaisesNothing (.next t) ↔ t.phase ≠ .faulted := by
  simp [RaisesNothing]

@[simp] theorem raisesNothing_fault (f : Fault) : RaisesNothing (.fault f) := by
  simp [RaisesNothing]

@[simp] theorem fieldWrite_phase (f : Field) (w : Word) (q : Pos) (s : State) : (fieldWrite f w q s).phase = .active q := rfl

@[simp] theorem directionWrite_phase (d : Bool) (q : Pos) (s : State) : (directionWrite d q s).phase = .active q := rfl

section
variable {i : Instr} {s : State} {a buf n j w : Word} {q : Pos}

/-! #### The shared operations and the loops -/

@[simp] theorem foreign_raisesNothing : RaisesNothing foreign := raisesNothing_fault _

@[simp] theorem loadWord_raisesNothing : RaisesNothing (loadWord buf n j q s) := by
  unfold loadWord
  split <;> simp

@[simp] theorem storeWord_raisesNothing : RaisesNothing (storeWord buf n j q s) := by
  unfold storeWord
  split <;> simp

theorem gateTest_raisesNothing {exit : State → Out} (hexit : RaisesNothing (exit s)) :
    RaisesNothing (gateTest exit s) := by
  unfold gateTest
  split
  · simp
  · exact hexit

@[simp] theorem keyLoop_raisesNothing : RaisesNothing (keyLoop a s) := by
  unfold keyLoop
  split <;> simp

@[simp] theorem zeroLoop_raisesNothing : RaisesNothing (zeroLoop s) := by
  unfold zeroLoop
  split <;> simp

@[simp] theorem ivLoop_raisesNothing : RaisesNothing (ivLoop a s) := by
  unfold ivLoop
  split_ifs <;> simp

@[simp] theorem writeLoop_raisesNothing : RaisesNothing (writeLoop a s) := by
  unfold writeLoop
  split <;> simp

@[simp] theorem chunkLoop_raisesNothing : RaisesNothing (chunkLoop a s) := by
  unfold chunkLoop
  split <;> simp

@[simp] theorem readLoop_raisesNothing : RaisesNothing (readLoop a s) := by
  unfold readLoop
  split <;> simp

/-! #### The commands, past the start that `whenClocked` and the buffers' checks are at -/

theorem setterStep_raisesNothing {f : Field} (hp : s.phase ≠ .active .start) : RaisesNothing (setterStep f w s) := by
  unfold setterStep
  split
  case h_1 hstart => exact absurd hstart hp
  case h_2 => split <;> simp
  all_goals simp

theorem streamStep_raisesNothing {d : Bool} {src dst len : Word} (hp : s.phase ≠ .active .start) :
    RaisesNothing (streamStep d src dst len s) := by
  unfold streamStep
  split
  case h_1 hstart => exact absurd hstart hp
  case h_6 => exact gateTest_raisesNothing readLoop_raisesNothing
  all_goals simp

theorem execWaitrdy_raisesNothing (hp : s.phase ≠ .active .start) : RaisesNothing (execWaitrdy s) := by
  unfold execWaitrdy
  split
  case h_1 hstart => exact absurd hstart hp
  case h_2 => exact gateTest_raisesNothing (by simp)
  case h_3 => simp

theorem execSetkey_raisesNothing (hp : s.phase ≠ .active .start) : RaisesNothing (execSetkey a s) := by
  unfold execSetkey
  split
  case h_1 hstart => exact absurd hstart hp
  case h_6 => exact gateTest_raisesNothing (by simp)
  all_goals simp

theorem execSetiv_raisesNothing (hp : s.phase ≠ .active .start) : RaisesNothing (execSetiv a n s) := by
  unfold execSetiv
  split
  case h_1 hstart => exact absurd hstart hp
  all_goals simp

theorem execRstcnt_raisesNothing (hp : s.phase ≠ .active .start) : RaisesNothing (execRstcnt s) := by
  unfold execRstcnt
  split
  case h_1 hstart => exact absurd hstart hp
  all_goals simp

/-- INIT raises nothing at all: it needs no CLKEN and has no buffer (40 R102, R113). -/
theorem execInit_raisesNothing {m r : Word} : RaisesNothing (execInit a m w r s) := by
  unfold execInit
  split
  case h_1 => split <;> simp
  all_goals simp

/-- Past its start a command raises nothing: its checks have been made (60 R205). -/
theorem exec_raisesNothing (hp : s.phase ≠ .active .start) : RaisesNothing (exec i s) := by
  cases i with
  | waitrdy => exact execWaitrdy_raisesNothing hp
  | init a m w o => exact execInit_raisesNothing
  | setalgo v => exact setterStep_raisesNothing hp
  | setmode v => exact setterStep_raisesNothing hp
  | setswap v => exact setterStep_raisesNothing hp
  | setorder v => exact setterStep_raisesNothing hp
  | setkey a => exact execSetkey_raisesNothing hp
  | setiv a n => exact execSetiv_raisesNothing hp
  | encode a b n => exact streamStep_raisesNothing hp
  | decode a b n => exact streamStep_raisesNothing hp
  | rstcnt => exact execRstcnt_raisesNothing hp

end

/-! ### What a command raises at its start (60 R205 to R207) -/

/-- If the answer is a faulted state, it is `s` with SZ and N assigned and a fault raised (60 R205; log 12). -/
def RaisesAlone (s : State) (o : Out) : Prop :=
  ∀ t, o = .next t → t.phase = .faulted → ∃ k sz n, t = raise k { s with sz := sz, n := n }

section
variable {i : Instr} {s : State} {a n v src dst len : Word} {f : Field} {d : Bool}

/-- An answer that raises nothing. -/
theorem RaisesNothing.raisesAlone {o : Out} (h : RaisesNothing o) : RaisesAlone s o :=
  fun t ho ht => absurd ht (h t ho)

/-- A fault raised once SZ and N are assigned. -/
theorem raise_raisesAlone (k : FaultKind) (s : State) (sz n : Word) :
    RaisesAlone s (.next (raise k { s with sz := sz, n := n })) := by
  rintro _ ⟨⟩ -
  exact ⟨k, sz, n, rfl⟩

/-! #### The commands that CLKEN lets through -/

theorem exec_setterOf_start_raisesAlone (hp : s.phase = .active .start) (hc : s.clken = true) :
    RaisesAlone s (exec (setterOf f v) s) := by
  rw [exec_setterOf_start hp hc]
  exact RaisesNothing.raisesAlone (by simp)

theorem exec_setkey_start_raisesAlone (hp : s.phase = .active .start) (hc : s.clken = true) :
    RaisesAlone s (exec (.setkey a) s) := by
  cases hbuf : checkBuffer a s.keyCount with
  | some k =>
    rw [exec_setkey_fault hp hc hbuf]
    exact raise_raisesAlone k s s.keyCount s.n
  | none =>
    rw [exec_setkey_start hp hc hbuf]
    exact RaisesNothing.raisesAlone (by simp)

theorem exec_setiv_start_raisesAlone (hp : s.phase = .active .start) (hc : s.clken = true) :
    RaisesAlone s (exec (.setiv a n) s) := by
  cases hbuf : checkBuffer a n with
  | some k =>
    rw [exec_setiv_fault hp hc hbuf]
    exact raise_raisesAlone k s s.sz n
  | none =>
    rw [exec_setiv_start hp hc hbuf]
    exact ivLoop_raisesNothing.raisesAlone

/-- ENCODE and DECODE raise what the first buffer to fail its check gives, after the two completions (44 R170). -/
theorem streamStart_raisesAlone : RaisesAlone s (streamStart src dst len s) := by
  by_cases hbw : s.cfg.blockWords s.algoM = 0#32
  case pos =>
    rw [streamStart_unsupportedAlgo hbw]
    exact RaisesNothing.raisesAlone (by simp)
  by_cases hlen : len % s.cfg.blockWords s.algoM = 0#32
  case neg =>
    rw [streamStart_align hbw hlen]
    exact RaisesNothing.raisesAlone (by simp)
  cases hsrc : checkBuffer src len with
  | some k =>
    rw [streamStart_source hbw hlen hsrc]
    exact raise_raisesAlone k s _ len
  | none =>
    cases hdst : checkBuffer dst len with
    | some k =>
      rw [streamStart_destination hbw hlen hsrc hdst]
      exact raise_raisesAlone k s _ len
    | none =>
      rw [streamStart_passes hbw hlen hsrc hdst]
      exact RaisesNothing.raisesAlone (by simp)

theorem exec_streamOf_start_raisesAlone (hp : s.phase = .active .start) (hc : s.clken = true) :
    RaisesAlone s (exec (streamOf d src dst len) s) := by
  rw [exec_streamOf_start hp hc]
  exact streamStart_raisesAlone

/-- Whatever a command raises at its start, it has assigned no more than SZ and N. -/
theorem exec_start_raisesAlone (hp : s.phase = .active .start) : RaisesAlone s (exec i s) := by
  cases hinit : i.isInit with
  | true =>
    intro t h ht
    obtain rfl := exec_init_start hinit hp h
    simp at ht
  | false =>
    cases hc : s.clken with
    | false =>
      rw [exec_start_unclocked hinit hp hc]
      exact raise_raisesAlone .notInitialised s s.sz s.n
    | true =>
      cases i with
      | init a m w o => simp [Instr.isInit] at hinit
      | waitrdy =>
        rw [exec_waitrdy_start hp hc]
        exact RaisesNothing.raisesAlone (by simp)
      | rstcnt =>
        rw [exec_rstcnt_start hp hc]
        exact RaisesNothing.raisesAlone (by simp)
      | setalgo v => exact exec_setterOf_start_raisesAlone (f := .algo) hp hc
      | setmode v => exact exec_setterOf_start_raisesAlone (f := .mode) hp hc
      | setswap v => exact exec_setterOf_start_raisesAlone (f := .swap) hp hc
      | setorder v => exact exec_setterOf_start_raisesAlone (f := .order) hp hc
      | setkey a => exact exec_setkey_start_raisesAlone hp hc
      | setiv a n => exact exec_setiv_start_raisesAlone hp hc
      | encode a b n => exact exec_streamOf_start_raisesAlone (d := false) hp hc
      | decode a b n => exact exec_streamOf_start_raisesAlone (d := true) hp hc

end

/-- Settles O47: a faulted state is reached at the command's start or not at all, and there by raising alone. -/
theorem faultsComeBeforeAnyEvent : Obligations.FaultsComeBeforeAnyEvent := by
  intro i s t h ht
  by_cases hp : s.phase = .active .start
  · obtain ⟨k, sz, n, rfl⟩ := exec_start_raisesAlone hp t h ht
    exact ⟨hp, rfl⟩
  · exact absurd ht (exec_raisesNothing hp t h)

end Sys2Proof.Machine
end

section
/-! PROOFS. The family 70_reset_and_hazards: the idle CCD's wait for a command (70 R232), the state after reset (70 R230, R232),
and the invariants of the steps, which that state meets. -/

namespace Sys2Proof.Machine

/-! ### The idle CCD (70 R232) -/

/-- The step of an idle CCD is the host's move (40 R101). -/
theorem advance_idle {s : State} (hp : s.phase = .idle) : advance s = hostStep s := by
  simp only [advance, hp]

/-- Where the host presents nothing, its move changes nothing (70 R232). -/
theorem hostStep_of_host_nil {s : State} (hh : s.host = []) : hostStep s = .next s := by
  simp only [hostStep, hh]

/-- Settles O15: the step is the host's move, and there is none. -/
theorem idleWaitsForACommand : Obligations.IdleWaitsForACommand := by
  intro s hr hp hh
  rw [step_no_reset hr, advance_idle hp, hostStep_of_host_nil hh]

/-! ### The state after reset (70 R230, R232) -/

@[simp] theorem State.reset_phase : State.reset.phase = .idle := rfl
@[simp] theorem State.reset_clken : State.reset.clken = false := rfl
@[simp] theorem State.reset_fault : State.reset.fault = none := rfl
@[simp] theorem State.reset_res : State.reset.res = 0#32 := rfl
@[simp] theorem State.reset_crLast : State.reset.crLast = State.reset.cfg.crReset := rfl
@[simp] theorem State.reset_trace : State.reset.trace = [] := rfl
@[simp] theorem State.reset_mem : State.reset.mem = [] := rfl

/-- The parameters the state after reset carries are the machine's, and meet 00 R9. -/
theorem State.reset_cfg_wf : State.reset.cfg.WF := Config.params_wf

/-- READY is 1 in the idle state (10 R27). -/
theorem State.ready_of_idle {s : State} (hp : s.phase = .idle) : s.ready = true := by
  simp [State.ready, hp]

/-- Settles O13: the registers are what `State.reset` lists, and its parameters, opaque but for 00 R9, are the machine's. -/
theorem resetStateIsIdle : Obligations.ResetStateIsIdle :=
  ⟨State.ready_of_idle State.reset_phase, State.reset_clken, State.reset_res, State.reset_fault, State.reset_crLast,
    State.reset_cfg_wf⟩

/-- The sequencer is idle, without a fault and with a result code (10 R25, R26, R27, R30). -/
theorem State.reset_sequencerInv : State.reset.SequencerInv :=
  sequencerInv_of_idle State.reset_phase State.reset_fault (Result.code_le .ok)

/-- With CLKEN 0 no mirror is held to CR yet (10 R24). -/
theorem State.reset_mirrorInv : State.reset.MirrorInv :=
  mirrorInv_of_start State.reset_cfg_wf (fun p hp => by simp at hp) (fun hc => by simp at hc)

/-- There has been no access, and no command has one to make (20 R64). -/
theorem State.reset_alignmentInv : State.reset.AlignmentInv :=
  ⟨by simp, buffersAligned_of_start fun p hp => by simp at hp⟩

/-- No command is in a chunk (44 R170). -/
theorem State.reset_chunkInside : State.reset.ChunkInside :=
  (inChunk_of_not_active (by simp)).chunkInside

/-- Memory that lists no byte is canonical (log 3). -/
@[simp] theorem Memory.wf_nil : Memory.wf [] = true := rfl

/-- No byte is listed after reset (log 3). -/
theorem State.reset_memory_wf : Memory.wf State.reset.mem = true := by
  rw [State.reset_mem, Memory.wf_nil]

/-- Settles O35: the state after reset is idle with CLKEN 0, an empty trace and an empty memory. -/
theorem resetMeetsTheInvariants : Obligations.ResetMeetsTheInvariants :=
  ⟨State.reset_sequencerInv, State.reset_mirrorInv, State.reset_alignmentInv, State.reset_chunkInside,
    State.reset_memory_wf⟩

end Sys2Proof.Machine
end
